-- ==== Sys2Proof/Word.lean ====
section
/-! DEFINITION. Word.lean: the bit-vector types of the machine (00_scope.md R8, 10_state.md R20, R27, 20_memory.md R52).
Digits and magnitudes are no bit vectors: their width W is a parameter, and the spec computes with them as integers. -/

namespace Sys2Proof

/-- A command word, one IMEM location (20_memory.md R50). -/
abbrev Word := BitVec 32

/-- A TMEM byte (20_memory.md R50). -/
abbrev Byte := BitVec 8

/-- A 64-bit native value or binary64 pattern (10_state.md R21, R24). -/
abbrev Native := BitVec 64

/-- A magnitude: its digits, numbers below the digit base, index 0 least significant (00_scope.md R6, R10). -/
abbrev Magnitude := List Nat

end Sys2Proof
end

