-- ==== Sys2Proof/Config.lean ====
section
/-! DEFINITION. Config.lean: the parameters of an implementation (00_scope.md R5) and the free values.
Config.Params is plain data: a state carries the parameters it runs under, and no step changes them (log entry 1). -/

namespace Sys2Proof.Config

/-- The implementation parameters of 00_scope.md R5. -/
structure Params where
  /-- W, the digit width in bits. -/
  w : Nat
  /-- A, the accumulator word width in bits. -/
  a : Nat
  /-- KARATSUBA_THRESHOLD. -/
  karatsubaThreshold : Nat
  /-- DC_THRESHOLD. -/
  dcThreshold : Nat
  /-- MAXLEN, `none` when it is unbounded. -/
  maxLen : Option Nat
  /-- TMEM_SIZE, in bytes. -/
  tmemSize : Nat
  /-- IMEM_WORDS, in 32-bit words. -/
  imemWords : Nat
  deriving DecidableEq, Repr

/-- The default column of 00_scope.md R5. DESIGN CHOICE (unsafe for a claim that rests on it): State.reset runs
under it, log entry 1. -/
def Params.default : Params where
  w := 32
  a := 64
  karatsubaThreshold := 100
  dcThreshold := 32
  maxLen := some 4096
  tmemSize := 4096
  imemWords := 1024

/-- MAXLEN is at least 2 or unbounded, and fits its CSR. -/
abbrev Params.LegalMaxLen (p : Params) : Prop :=
  match p.maxLen with
  | none => True
  | some n => 2 ≤ n ∧ n < 2 ^ 64

/-- The legal values of 00_scope.md R5. DEDUCED (safe), log entry 2: each value fits the 64 bits of the CSR that
reads it (10_state.md R32, R38). -/
abbrev Params.Legal (p : Params) : Prop :=
  (32 ≤ p.w ∧ p.w ≤ 64) ∧ (2 * p.w ≤ p.a ∧ p.a < 2 ^ 64) ∧
  (1 ≤ p.karatsubaThreshold ∧ p.karatsubaThreshold < 2 ^ 64) ∧
  (1 ≤ p.dcThreshold ∧ p.dcThreshold < 2 ^ 64) ∧ p.LegalMaxLen ∧
  (1 ≤ p.tmemSize ∧ p.tmemSize < 2 ^ 64) ∧ (1 ≤ p.imemWords ∧ p.imemWords ≤ 2 ^ 32)

/-- B = DIGIT_BASE = 2^W (00_scope.md R6). -/
def Params.base (p : Params) : Nat := 2 ^ p.w

/-- Does a magnitude of `len` digits fit an M register (10_state.md R22)? -/
def Params.fits (p : Params) (len : Nat) : Bool :=
  match p.maxLen with
  | none => true
  | some n => decide (len ≤ n)

/-- FREE VALUE (safe), log entries 3 and 4: what the TMEM byte at `addr` holds after the `epoch`-th reset until it is
written (70_reset_and_hazards.md R312: "arbitrary (universally quantified)"). -/
opaque tmemReset (epoch addr : Nat) : Byte

/-- FREE VALUE (safe), log entries 3 and 4: what the IMEM word at `index` holds after the `epoch`-th reset until it is
written (70_reset_and_hazards.md R312). -/
opaque imemReset (epoch index : Nat) : Word

/-- FREE VALUE (safe), log entry 5: what LEN writes for a length of 2^64 or more, which an X register cannot hold. -/
opaque wideLength (len : Nat) : Native

end Sys2Proof.Config
end

