-- ==== Sys2Proof/Syntax.lean ====
section
/-! DEFINITION. Syntax.lean: the commands of TIC1, one constructor per row of spec/opcode_table.json
(30_encoding.md R78, R79). Fields stand in the order a, b, c, d, immediate. -/

namespace Sys2Proof

/-- A 4-bit index into the X file (30_encoding.md R76). -/
abbrev XReg := BitVec 4
/-- A 4-bit index into the M file (30_encoding.md R76). -/
abbrev MReg := BitVec 4
/-- A 4-bit index into the E file (30_encoding.md R76). -/
abbrev EReg := BitVec 4
/-- A 4-bit index into the F file (30_encoding.md R76). -/
abbrev FReg := BitVec 4

/-- The branch conditions 0 to 8 (30_encoding.md R83). -/
inductive Cond where
  | al | eq | ne | lt | ge | gt | le | pe | npe
  deriving DecidableEq, Repr

/-- The assigned control and status registers (10_state.md R32). -/
inductive Csr where
  | status | flags | faultCause | faultPc | faultInfo
  | cfgW | cfgA | cfgN | cfgKt | cfgDt | cfgMaxLen | cfgTmemSize | cfgImemWords | cfgId
  deriving DecidableEq, Repr

/-- A command of TIC1 (30_encoding.md R79). -/
inductive Instr where
  -- sequencer, control and data movement (47_control_move.md)
  | nop
  | halt
  | br (cond : Cond) (off : BitVec 16)
  | csrr (a : XReg) (csr : Csr)
  | li (a : XReg) (imm : BitVec 16)
  | lih (a : XReg) (imm : BitVec 16)
  | xaddi (a b : XReg) (imm : BitVec 16)
  | xcmp (b c : XReg)
  | mov (a b : MReg)
  | mfx (a : MReg) (b : XReg)
  | len (a : XReg) (b : MReg)
  | getd (a : XReg) (b : MReg) (c : XReg)
  | fmvx (a : FReg) (b : XReg)
  | ldb (a b : XReg) (imm : BitVec 16)
  | stb (a b : XReg) (imm : BitVec 16)
  -- digit primitives and accumulator (40_digit_accumulator.md)
  | digv (a b : XReg)
  | digvf (a : XReg) (b : FReg)
  | emov (a : EReg) (b c : XReg)
  | edl (a : XReg) (b : EReg)
  | edm (a : XReg) (b : EReg)
  | edh (a : XReg) (b : EReg)
  | esz (a : XReg) (b : EReg)
  | emb (a b : EReg)
  | emba (a b : EReg) (c : XReg)
  | emuld (a b : EReg) (c : XReg)
  | esub (a b c : EReg)
  | eshr (a b : EReg) (k : BitVec 8)
  | ecmp (b c : EReg)
  | vlo (a b : XReg)
  | vhi (a b : XReg)
  | vsz (a b : XReg)
  | sodd (a b : XReg)
  | sodb (a b : XReg)
  | clz (a b : XReg)
  -- comparison (41_compare.md)
  | cmp (b c : MReg)
  | cmpx (b : MReg) (c : XReg)
  | cmpf (b : MReg) (c : FReg)
  -- addition and subtraction (42_add_sub.md)
  | add (a b c : MReg)
  | addx (a b : MReg) (c : XReg)
  | addf (a b : MReg) (c : FReg)
  | sub (a b c : MReg)
  -- multiplication (43_multiply.md)
  | mul (a b c : MReg)
  | mull (a b c : MReg)
  -- division (44_divide.md): a the quotient, b the dividend, c the divisor, d the remainder
  | div (a b c d : MReg)
  | divl (a b c d : MReg)
  | quo (a b c : MReg)
  | rem (a b c : MReg)
  | divx (a b : MReg) (c d : XReg)
  -- barrel shifter (45_shift.md)
  | shl (a b : MReg) (c : XReg)
  | shr (a b : MReg) (c : XReg)
  | shli (a b : MReg) (imm : BitVec 16)
  | shri (a b : MReg) (imm : BitVec 16)
  -- radix conversion (46_radix.md)
  | parse (a : MReg) (b c d : XReg)
  | fmt (a : XReg) (b : MReg) (c d : XReg)
  | rinf (a b c : XReg)
  | rpfx (a b c d : XReg)
  | fcvt (a : MReg) (b : FReg)
  | fdcnt (a : XReg) (b : FReg)
  deriving DecidableEq, Repr

end Sys2Proof
end

