-- ==== Sys2Proof/WellFormed.lean ====
section
/-! DEFINITION. WellFormed.lean: which commands have an encoding (30_encoding.md R80). The types of Syntax.lean leave
one condition to check: the conditions (1) to (4) of R80 cannot be written as an Instr. -/

namespace Sys2Proof

/-- 30_encoding.md R80 (5): DIV and DIVL name two different destination registers. Every other command is well formed. -/
def Instr.wellFormed : Instr → Bool
  | .div a _ _ d => a != d
  | .divl a _ _ d => a != d
  | .nop | .halt | .br _ _ | .csrr _ _ | .li _ _ | .lih _ _ | .xaddi _ _ _ | .xcmp _ _ | .mov _ _ | .mfx _ _
  | .len _ _ | .getd _ _ _ | .fmvx _ _ | .ldb _ _ _ | .stb _ _ _ | .digv _ _ | .digvf _ _ | .emov _ _ _
  | .edl _ _ | .edm _ _ | .edh _ _ | .esz _ _ | .emb _ _ | .emba _ _ _ | .emuld _ _ _ | .esub _ _ _
  | .eshr _ _ _ | .ecmp _ _ | .vlo _ _ | .vhi _ _ | .vsz _ _ | .sodd _ _ | .sodb _ _ | .clz _ _
  | .cmp _ _ | .cmpx _ _ | .cmpf _ _ | .add _ _ _ | .addx _ _ _ | .addf _ _ _ | .sub _ _ _
  | .mul _ _ _ | .mull _ _ _ | .quo _ _ _ | .rem _ _ _ | .divx _ _ _ _
  | .shl _ _ _ | .shr _ _ _ | .shli _ _ _ | .shri _ _ _ | .parse _ _ _ _ | .fmt _ _ _ _ | .rinf _ _ _
  | .rpfx _ _ _ _ | .fcvt _ _ | .fdcnt _ _ => true

end Sys2Proof
end

