-- ==== Sys2Proof/Decode.lean ====
section
/-! DEFINITION. Decode.lean: the decoder and the encoder of the 32-bit command word (30_encoding.md R70 to R85).
The decoder is total and rejects by name; every rejection is an ILLEGAL word (R80). -/

namespace Sys2Proof

/-- Why a word is no legal command: the numbered cases of 30_encoding.md R80. -/
inductive DecodeError where
  /-- (1) the opcode is not in the opcode map. -/
  | unassignedOpcode
  /-- (2) a field the command does not use is not 0. -/
  | nonzeroField
  /-- (3) BR with cond 9 to 15. -/
  | reservedCond
  /-- (4) CSRR with an unassigned CSR number. -/
  | unassignedCsr
  /-- (5) DIV or DIVL with a = d. -/
  | sameDestination
  deriving DecidableEq, Repr

/-! ### Fields (30_encoding.md R71) -/

/-- `op`, bits [31:24]. -/
def fieldOp (w : Word) : BitVec 8 := w.extractLsb' 24 8
/-- `a` (and `cond`), bits [23:20]. -/
def fieldA (w : Word) : BitVec 4 := w.extractLsb' 20 4
/-- `b`, bits [19:16]. -/
def fieldB (w : Word) : BitVec 4 := w.extractLsb' 16 4
/-- `c`, bits [15:12]. -/
def fieldC (w : Word) : BitVec 4 := w.extractLsb' 12 4
/-- `d`, bits [11:8]. -/
def fieldD (w : Word) : BitVec 4 := w.extractLsb' 8 4
/-- `imm8`, bits [7:0]. -/
def fieldImm8 (w : Word) : BitVec 8 := w.extractLsb' 0 8
/-- `imm16`, bits [15:0]. -/
def fieldImm16 (w : Word) : BitVec 16 := w.extractLsb' 0 16

/-! ### Names of field values -/

/-- The condition a `cond` field names (30_encoding.md R83). -/
def condOf (n : BitVec 4) : Option Cond :=
  match n.toNat with
  | 0 => some .al
  | 1 => some .eq
  | 2 => some .ne
  | 3 => some .lt
  | 4 => some .ge
  | 5 => some .gt
  | 6 => some .le
  | 7 => some .pe
  | 8 => some .npe
  | _ => none

/-- The `cond` field of a condition (30_encoding.md R83). -/
def condCode : Cond → BitVec 4
  | .al => 0
  | .eq => 1
  | .ne => 2
  | .lt => 3
  | .ge => 4
  | .gt => 5
  | .le => 6
  | .pe => 7
  | .npe => 8

/-- The CSR a number names (10_state.md R32). -/
def csrOf (n : BitVec 16) : Option Csr :=
  match n.toNat with
  | 0x000 => some .status
  | 0x001 => some .flags
  | 0x002 => some .faultCause
  | 0x003 => some .faultPc
  | 0x004 => some .faultInfo
  | 0x010 => some .cfgW
  | 0x011 => some .cfgA
  | 0x012 => some .cfgN
  | 0x013 => some .cfgKt
  | 0x014 => some .cfgDt
  | 0x015 => some .cfgMaxLen
  | 0x016 => some .cfgTmemSize
  | 0x017 => some .cfgImemWords
  | 0x018 => some .cfgId
  | _ => none

/-- The number of a CSR (10_state.md R32). -/
def csrCode : Csr → BitVec 16
  | .status => 0x000
  | .flags => 0x001
  | .faultCause => 0x002
  | .faultPc => 0x003
  | .faultInfo => 0x004
  | .cfgW => 0x010
  | .cfgA => 0x011
  | .cfgN => 0x012
  | .cfgKt => 0x013
  | .cfgDt => 0x014
  | .cfgMaxLen => 0x015
  | .cfgTmemSize => 0x016
  | .cfgImemWords => 0x017
  | .cfgId => 0x018

/-! ### Operand shapes: each checks the fields its commands do not use (30_encoding.md R79, R80 (2)) -/

/-- Format N (R72). -/
def shapeN (w : Word) (i : Instr) : Except DecodeError Instr :=
  if w.extractLsb' 0 24 = 0 then .ok i else .error .nonzeroField

/-- Format B (R73), with R80 (3). -/
def shapeBranch (w : Word) (mk : Cond → BitVec 16 → Instr) : Except DecodeError Instr :=
  if fieldB w = 0 then
    match condOf (fieldA w) with
    | some c => .ok (mk c (fieldImm16 w))
    | none => .error .reservedCond
  else .error .nonzeroField

/-- Format I (R74) without `b`. -/
def shapeAImm (w : Word) (mk : BitVec 4 → BitVec 16 → Instr) : Except DecodeError Instr :=
  if fieldB w = 0 then .ok (mk (fieldA w) (fieldImm16 w)) else .error .nonzeroField

/-- Format I (R74) without `b`, the immediate a CSR number, with R80 (4). -/
def shapeCsr (w : Word) (mk : BitVec 4 → Csr → Instr) : Except DecodeError Instr :=
  if fieldB w = 0 then
    match csrOf (fieldImm16 w) with
    | some c => .ok (mk (fieldA w) c)
    | none => .error .unassignedCsr
  else .error .nonzeroField

/-- Format I (R74) with `b`. -/
def shapeABImm (w : Word) (mk : BitVec 4 → BitVec 4 → BitVec 16 → Instr) : Except DecodeError Instr :=
  .ok (mk (fieldA w) (fieldB w) (fieldImm16 w))

/-- Format R (R75) that uses a, b. -/
def shapeAB (w : Word) (mk : BitVec 4 → BitVec 4 → Instr) : Except DecodeError Instr :=
  if fieldC w = 0 ∧ fieldD w = 0 ∧ fieldImm8 w = 0 then .ok (mk (fieldA w) (fieldB w)) else .error .nonzeroField

/-- Format R (R75) that uses a, b, imm8. -/
def shapeABImm8 (w : Word) (mk : BitVec 4 → BitVec 4 → BitVec 8 → Instr) : Except DecodeError Instr :=
  if fieldC w = 0 ∧ fieldD w = 0 then .ok (mk (fieldA w) (fieldB w) (fieldImm8 w)) else .error .nonzeroField

/-- Format R (R75) that uses b, c. -/
def shapeBC (w : Word) (mk : BitVec 4 → BitVec 4 → Instr) : Except DecodeError Instr :=
  if fieldA w = 0 ∧ fieldD w = 0 ∧ fieldImm8 w = 0 then .ok (mk (fieldB w) (fieldC w)) else .error .nonzeroField

/-- Format R (R75) that uses a, b, c. -/
def shapeABC (w : Word) (mk : BitVec 4 → BitVec 4 → BitVec 4 → Instr) : Except DecodeError Instr :=
  if fieldD w = 0 ∧ fieldImm8 w = 0 then .ok (mk (fieldA w) (fieldB w) (fieldC w)) else .error .nonzeroField

/-- Format R (R75) that uses a, b, c, d. -/
def shapeABCD (w : Word) (mk : BitVec 4 → BitVec 4 → BitVec 4 → BitVec 4 → Instr) : Except DecodeError Instr :=
  if fieldImm8 w = 0 then .ok (mk (fieldA w) (fieldB w) (fieldC w) (fieldD w)) else .error .nonzeroField

/-- R80 (5): a decoded command that is not well formed is DIV or DIVL with a = d. -/
def checkWellFormed (r : Except DecodeError Instr) : Except DecodeError Instr :=
  match r with
  | .ok i => if i.wellFormed then .ok i else .error .sameDestination
  | .error e => .error e

/-- The command of an opcode, by the opcode map (30_encoding.md R78) and the operand usage (R79). -/
def decodeByOpcode (w : Word) : Except DecodeError Instr :=
  match (fieldOp w).toNat with
  | 0x01 => shapeN w .nop
  | 0x02 => shapeN w .halt
  | 0x04 => shapeBranch w .br
  | 0x05 => shapeCsr w .csrr
  | 0x10 => shapeAImm w .li
  | 0x11 => shapeAImm w .lih
  | 0x12 => shapeABImm w .xaddi
  | 0x13 => shapeBC w .xcmp
  | 0x14 => shapeAB w .mov
  | 0x15 => shapeAB w .mfx
  | 0x16 => shapeAB w .len
  | 0x17 => shapeABC w .getd
  | 0x18 => shapeAB w .fmvx
  | 0x19 => shapeABImm w .ldb
  | 0x1A => shapeABImm w .stb
  | 0x20 => shapeAB w .digv
  | 0x21 => shapeAB w .digvf
  | 0x22 => shapeABC w .emov
  | 0x23 => shapeAB w .edl
  | 0x24 => shapeAB w .edm
  | 0x25 => shapeAB w .edh
  | 0x26 => shapeAB w .esz
  | 0x27 => shapeAB w .emb
  | 0x28 => shapeABC w .emba
  | 0x29 => shapeABC w .emuld
  | 0x2A => shapeABC w .esub
  | 0x2B => shapeABImm8 w .eshr
  | 0x2C => shapeBC w .ecmp
  | 0x30 => shapeAB w .vlo
  | 0x31 => shapeAB w .vhi
  | 0x32 => shapeAB w .vsz
  | 0x34 => shapeAB w .sodd
  | 0x35 => shapeAB w .sodb
  | 0x36 => shapeAB w .clz
  | 0x40 => shapeBC w .cmp
  | 0x41 => shapeBC w .cmpx
  | 0x42 => shapeBC w .cmpf
  | 0x48 => shapeABC w .add
  | 0x49 => shapeABC w .addx
  | 0x4A => shapeABC w .addf
  | 0x4B => shapeABC w .sub
  | 0x50 => shapeABC w .mul
  | 0x51 => shapeABC w .mull
  | 0x58 => shapeABCD w .div
  | 0x59 => shapeABCD w .divl
  | 0x5A => shapeABC w .quo
  | 0x5B => shapeABC w .rem
  | 0x5C => shapeABCD w .divx
  | 0x60 => shapeABC w .shl
  | 0x61 => shapeABC w .shr
  | 0x62 => shapeABImm w .shli
  | 0x63 => shapeABImm w .shri
  | 0x68 => shapeABCD w .parse
  | 0x69 => shapeABCD w .fmt
  | 0x6A => shapeABC w .rinf
  | 0x6B => shapeABCD w .rpfx
  | 0x6C => shapeAB w .fcvt
  | 0x6D => shapeAB w .fdcnt
  | _ => .error .unassignedOpcode

/-- `decode(w)` of 30_encoding.md R84. -/
def decode (w : Word) : Except DecodeError Instr := checkWellFormed (decodeByOpcode w)

/-! ### The encoder -/

/-- Format R (30_encoding.md R75). -/
def packR (op : BitVec 8) (a b c d : BitVec 4) (imm8 : BitVec 8) : Word := op ++ a ++ b ++ c ++ d ++ imm8

/-- Formats B and I (30_encoding.md R73, R74). -/
def packI (op : BitVec 8) (a b : BitVec 4) (imm16 : BitVec 16) : Word := op ++ a ++ b ++ imm16

/-- The command word of an instruction (30_encoding.md R72 to R75, R78, R79); unused fields are 0. -/
def encode : Instr → Word
  | .nop => packR 0x01 0 0 0 0 0
  | .halt => packR 0x02 0 0 0 0 0
  | .br cond off => packI 0x04 (condCode cond) 0 off
  | .csrr a csr => packI 0x05 a 0 (csrCode csr)
  | .li a imm => packI 0x10 a 0 imm
  | .lih a imm => packI 0x11 a 0 imm
  | .xaddi a b imm => packI 0x12 a b imm
  | .xcmp b c => packR 0x13 0 b c 0 0
  | .mov a b => packR 0x14 a b 0 0 0
  | .mfx a b => packR 0x15 a b 0 0 0
  | .len a b => packR 0x16 a b 0 0 0
  | .getd a b c => packR 0x17 a b c 0 0
  | .fmvx a b => packR 0x18 a b 0 0 0
  | .ldb a b imm => packI 0x19 a b imm
  | .stb a b imm => packI 0x1A a b imm
  | .digv a b => packR 0x20 a b 0 0 0
  | .digvf a b => packR 0x21 a b 0 0 0
  | .emov a b c => packR 0x22 a b c 0 0
  | .edl a b => packR 0x23 a b 0 0 0
  | .edm a b => packR 0x24 a b 0 0 0
  | .edh a b => packR 0x25 a b 0 0 0
  | .esz a b => packR 0x26 a b 0 0 0
  | .emb a b => packR 0x27 a b 0 0 0
  | .emba a b c => packR 0x28 a b c 0 0
  | .emuld a b c => packR 0x29 a b c 0 0
  | .esub a b c => packR 0x2A a b c 0 0
  | .eshr a b k => packR 0x2B a b 0 0 k
  | .ecmp b c => packR 0x2C 0 b c 0 0
  | .vlo a b => packR 0x30 a b 0 0 0
  | .vhi a b => packR 0x31 a b 0 0 0
  | .vsz a b => packR 0x32 a b 0 0 0
  | .sodd a b => packR 0x34 a b 0 0 0
  | .sodb a b => packR 0x35 a b 0 0 0
  | .clz a b => packR 0x36 a b 0 0 0
  | .cmp b c => packR 0x40 0 b c 0 0
  | .cmpx b c => packR 0x41 0 b c 0 0
  | .cmpf b c => packR 0x42 0 b c 0 0
  | .add a b c => packR 0x48 a b c 0 0
  | .addx a b c => packR 0x49 a b c 0 0
  | .addf a b c => packR 0x4A a b c 0 0
  | .sub a b c => packR 0x4B a b c 0 0
  | .mul a b c => packR 0x50 a b c 0 0
  | .mull a b c => packR 0x51 a b c 0 0
  | .div a b c d => packR 0x58 a b c d 0
  | .divl a b c d => packR 0x59 a b c d 0
  | .quo a b c => packR 0x5A a b c 0 0
  | .rem a b c => packR 0x5B a b c 0 0
  | .divx a b c d => packR 0x5C a b c d 0
  | .shl a b c => packR 0x60 a b c 0 0
  | .shr a b c => packR 0x61 a b c 0 0
  | .shli a b imm => packI 0x62 a b imm
  | .shri a b imm => packI 0x63 a b imm
  | .parse a b c d => packR 0x68 a b c d 0
  | .fmt a b c d => packR 0x69 a b c d 0
  | .rinf a b c => packR 0x6A a b c 0 0
  | .rpfx a b c d => packR 0x6B a b c d 0
  | .fcvt a b => packR 0x6C a b 0 0 0
  | .fdcnt a b => packR 0x6D a b 0 0 0

/-- A command word as the four bytes it is presented as outside the core: byte k is bits [8k+7:8k]
(20_memory.md R53). -/
def wordBytes (w : Word) : List Byte := [w.extractLsb' 0 8, w.extractLsb' 8 8, w.extractLsb' 16 8, w.extractLsb' 24 8]

/-- The command word presented as these four bytes (20_memory.md R53). -/
def wordOfBytes (b0 b1 b2 b3 : Byte) : Word := b3 ++ b2 ++ b1 ++ b0

/-- The word of a row of spec/opcode_table.json given `nbits` bits of it, the bits above them 0. -/
def tableWord (nbits w : Nat) : Word := BitVec.ofNat 32 (w % 2 ^ nbits)

/-- The decoder on a word given as the opcode table numbers its bits. -/
def decodeTableWord (nbits w : Nat) : Option Instr :=
  match decode (tableWord nbits w) with
  | .ok i => some i
  | .error _ => none

end Sys2Proof
end

