-- ==== Sys2Proof/Machine/State.lean ====
section
/-! DEFINITION. Machine/State.lean: the architectural state of 10_state.md R44 as plain data, and the state after reset
(70_reset_and_hazards.md R310). The parameters of 00_scope.md R5, which R44 makes arguments of the step, are a field
that no step changes (log entry 1). -/

namespace Sys2Proof.Machine

/-- A sign, `NEGATIVE < ZERO < POSITIVE` (00_scope.md R12); the values of FLAGS.SGN (10_state.md R29). -/
inductive Sign where
  | negative | zero | positive
  deriving DecidableEq, Repr

/-- The values of FLAGS.PERR (10_state.md R30, 60_exceptions.md R281). -/
inductive ParseError where
  | none | badRadix | badChar | empty
  deriving DecidableEq, Repr

/-- STATUS.STATE (10_state.md R31). -/
inductive RunState where
  | idle | running | faulted
  deriving DecidableEq, Repr

/-- The machine state (10_state.md R44). A register is an optional value because that is the spec's own state:
"after reset every register of every file holds no value" (R25), and reading such a register is the fault UNINIT. -/
structure State where
  /-- The parameters this machine was built with (00_scope.md R5): the MODEL's own field, changed by nothing. -/
  params : Config.Params
  /-- X0 to X15 (10_state.md R21). -/
  x : Vector (Option Native) 16
  /-- M0 to M15 (10_state.md R22). -/
  m : Vector (Option Magnitude) 16
  /-- E0 to E15 (10_state.md R23). -/
  e : Vector (Option Nat) 16
  /-- F0 to F15 (10_state.md R24). -/
  f : Vector (Option Native) 16
  /-- The pc, a word index into IMEM (10_state.md R27). -/
  pc : BitVec 32
  /-- FLAGS.SGN (10_state.md R29). -/
  sgn : Sign
  /-- FLAGS.PERR (10_state.md R30). -/
  perr : ParseError
  /-- STATUS.STATE (10_state.md R31). -/
  runState : RunState
  /-- FAULT_CAUSE (10_state.md R35). -/
  faultCause : BitVec 8
  /-- FAULT_PC (10_state.md R36). -/
  faultPc : BitVec 32
  /-- FAULT_INFO (10_state.md R37). -/
  faultInfo : BitVec 64
  /-- The IMEM words written since reset, by index (10_state.md R41); every other word is unspecified (log entry 3). -/
  imem : List (Nat × Word)
  /-- The TMEM bytes written since reset, by address (10_state.md R42); every other byte is unspecified (log entry 3). -/
  tmem : List Host.Cell
  /-- How many resets there have been since the first: the MODEL's own field, which selects the unspecified memory
  contents of 70_reset_and_hazards.md R312 (log entry 4). -/
  memEpoch : Nat
  deriving DecidableEq, Repr

/-- A step that stops the machine for good. It has no constructor: every fault of this hardware is the entry of
60_exceptions.md R287, which is a next state, so nobody raises one. -/
inductive Fault where
  deriving DecidableEq, Repr

/-- No meaning for an instruction. -/
inductive Refusal where
  /-- Raised by an arm of exec whose instruction has no meaning yet: safe. No arm raises it. -/
  | notModelled (mnemonic : String)
  deriving DecidableEq, Repr

/-- The reset state of 70_reset_and_hazards.md R310 under the given parameters, after `epoch` earlier resets. -/
def State.resetWith (params : Config.Params) (epoch : Nat) : State where
  params := params
  x := Vector.replicate 16 none
  m := Vector.replicate 16 none
  e := Vector.replicate 16 none
  f := Vector.replicate 16 none
  pc := 0
  sgn := .zero
  perr := .none
  runState := .idle
  faultCause := 0
  faultPc := 0
  faultInfo := 0
  imem := []
  tmem := []
  memEpoch := epoch

/-- The machine right after reset (70_reset_and_hazards.md R310). DESIGN CHOICE: the default parameters (log entry 1)
and epoch 0 (log entry 4). -/
def State.reset : State := State.resetWith Config.Params.default 0

end Sys2Proof.Machine
end

