-- ==== Sys2Proof/Machine/Ops.lean ====
section
/-! DEFINITION. Machine/Ops.lean: the named operations on registers and memories, fetching a word, and taking a fault
(60_exceptions.md R287). Every meaning is written over these. -/

namespace Sys2Proof.Machine

/-! ### Sparse memory: a list of (index, value) pairs, indices strictly rising -/

/-- A memory as the list of its written locations. What an unlisted location reads as is said by `Memory.read?`:
no written value. -/
abbrev Memory (α : Type) := List (Nat × α)

/-- The value last written to a location, `none` if nothing has been written to it since reset
(20_memory.md R57). This is the one definition of what an unlisted location reads as. -/
def Memory.read? {α : Type} : Memory α → Nat → Option α
  | [], _ => none
  | (k, v) :: rest, a => if k = a then some v else Memory.read? rest a

/-- Write one location, keeping the indices strictly rising. -/
def Memory.write {α : Type} : Memory α → Nat → α → Memory α
  | [], a, v => [(a, v)]
  | (k, w) :: rest, a, v =>
    if a < k then (a, v) :: (k, w) :: rest
    else if a = k then (a, v) :: rest
    else (k, w) :: Memory.write rest a v

/-- The canonical form: indices strictly rising. An unlisted location reads as no value, which no entry equals. -/
abbrev Memory.wf {α : Type} (mem : Memory α) : Prop := (mem.map Prod.fst).Pairwise (· < ·)

/-- Write consecutive locations, the first value at the lowest address. -/
def Memory.writeAll {α : Type} (mem : Memory α) (addr : Nat) : List α → Memory α
  | [] => mem
  | v :: vs => Memory.writeAll (mem.write addr v) (addr + 1) vs

/-! ### Reading the state -/

/-- X[r], `none` when it holds no value (10_state.md R25). -/
def getX (s : State) (r : XReg) : Option Native := s.x[r.toNat]'(r.isLt)
/-- M[r], `none` when it holds no value. -/
def getM (s : State) (r : MReg) : Option Magnitude := s.m[r.toNat]'(r.isLt)
/-- E[r], `none` when it holds no value. -/
def getE (s : State) (r : EReg) : Option Nat := s.e[r.toNat]'(r.isLt)
/-- F[r], `none` when it holds no value. -/
def getF (s : State) (r : FReg) : Option Native := s.f[r.toNat]'(r.isLt)

/-- The TMEM byte at an address inside TMEM: the byte last written, or the unspecified reset content
(20_memory.md R57, R312; log entry 3). -/
def tmemByte (s : State) (addr : Nat) : Byte := (Memory.read? s.tmem addr).getD (Config.tmemReset s.memEpoch addr)

/-- The IMEM word at an index inside IMEM: the word last written, or the unspecified reset content (log entry 3). -/
def imemWord (s : State) (index : Nat) : Word := (Memory.read? s.imem index).getD (Config.imemReset s.memEpoch index)

/-- `MemRead(addr + i, 1)` for i from 0 to n − 1, the lowest address first (20_memory.md R52). -/
def tmemBytes (s : State) (addr n : Nat) : List Byte := (List.range n).map fun i => tmemByte s (addr + i)

/-! ### Updating the state -/

/-- `X[r] <- v`. -/
def setX (s : State) (r : XReg) (v : Native) : State := { s with x := s.x.set r.toNat (some v) r.isLt }
/-- `M[r] <- v`. -/
def setM (s : State) (r : MReg) (v : Magnitude) : State := { s with m := s.m.set r.toNat (some v) r.isLt }
/-- `E[r] <- v`. -/
def setE (s : State) (r : EReg) (v : Nat) : State := { s with e := s.e.set r.toNat (some v) r.isLt }
/-- `F[r] <- v`. -/
def setF (s : State) (r : FReg) (v : Native) : State := { s with f := s.f.set r.toNat (some v) r.isLt }
/-- `FLAGS.SGN <- v`. -/
def setSgn (s : State) (v : Sign) : State := { s with sgn := v }
/-- `FLAGS.PERR <- v`. -/
def setPerr (s : State) (v : ParseError) : State := { s with perr := v }
/-- `pc <- v`. -/
def setPc (s : State) (v : BitVec 32) : State := { s with pc := v }
/-- A transition of STATUS.STATE (10_state.md R31). -/
def setRunState (s : State) (v : RunState) : State := { s with runState := v }
/-- `MemWrite(addr + i, 1, vs[i])` for every i: the bytes of one command, written together (20_memory.md R52, R56). -/
def setBytes (s : State) (addr : Nat) (vs : List Byte) : State := { s with tmem := Memory.writeAll s.tmem addr vs }
/-- One IMEM word set by the host (60_exceptions.md R299). -/
def setImem (s : State) (index : Nat) (w : Word) : State := { s with imem := Memory.write s.imem index w }

/-- The pc of the next command (10_state.md R27). -/
def advancePc (s : State) : State := setPc s (s.pc + 1)

/-! ### Faults -/

/-- The register files, as UNINIT names them (60_exceptions.md R284). -/
inductive RegFile where
  | x | m | e | f
  deriving DecidableEq, Repr

/-- The file code in FAULT_INFO of UNINIT (60_exceptions.md R284). -/
def regFileCode : RegFile → BitVec 2
  | .x => 0
  | .m => 1
  | .e => 2
  | .f => 3

/-- The CONTRACT subcodes' names (60_exceptions.md R283). -/
inductive Contract where
  | digitRange | accRange | accNegative | shiftRange | clzZero | floatDomain
  deriving DecidableEq, Repr

/-- CONTRACT subcodes (60_exceptions.md R283). -/
def contractCode : Contract → BitVec 64
  | .digitRange => 1
  | .accRange => 2
  | .accNegative => 3
  | .shiftRange => 4
  | .clzZero => 5
  | .floatDomain => 6

/-- The checks that raise ASSERT (60_exceptions.md R284). -/
inductive AssertSite where
  | longDivision | divideAndConquer | postcondition
  deriving DecidableEq, Repr

/-- FAULT_INFO of ASSERT (60_exceptions.md R284). -/
def assertCode : AssertSite → BitVec 64
  | .longDivision => 1
  | .divideAndConquer => 2
  | .postcondition => 3

/-- A fault of the machine with what FAULT_INFO is computed from (60_exceptions.md R282, R284). -/
inductive Trap where
  | illegal (w : Word)
  | uninit (file : RegFile) (r : BitVec 4)
  | contract (c : Contract)
  | divZero
  | capacity (len : Nat)
  | memRange (addr : Int)
  | pcRange (pc : BitVec 32)
  | assertion (site : AssertSite)
  deriving DecidableEq, Repr

/-- FAULT_CAUSE of a fault (60_exceptions.md R282). -/
def trapCause : Trap → BitVec 8
  | .illegal _ => 1
  | .uninit _ _ => 2
  | .contract _ => 3
  | .divZero => 4
  | .capacity _ => 5
  | .memRange _ => 6
  | .pcRange _ => 7
  | .assertion _ => 8

/-- FAULT_INFO of a fault (60_exceptions.md R284). -/
def trapInfo : Trap → BitVec 64
  | .illegal w => w.setWidth 64
  | .uninit file r => (regFileCode file ++ r).setWidth 64
  | .contract c => contractCode c
  | .divZero => 0
  | .capacity len => BitVec.ofNat 64 len
  | .memRange addr => BitVec.ofInt 64 addr
  | .pcRange pc => pc.setWidth 64
  | .assertion site => assertCode site

/-- Fault entry (60_exceptions.md R287): the fault record and STATE are written and nothing else. The return is the
host's start operation (R288), `hostStart` of HostPort.lean: the core has no return command. -/
def takeFault (s : State) (t : Trap) : State :=
  { s with faultCause := trapCause t, faultPc := s.pc, faultInfo := trapInfo t, runState := .faulted }

/-- How a command that does not set the pc ends (47_control_move.md R250): on completion its writes take effect and
the pc advances; on a fault nothing it would write takes effect, and the fault is taken from the state `s` before it. -/
def finish (s : State) (r : Except Trap State) : Host.Outcome State Fault Refusal :=
  match r with
  | .ok t => .next (advancePc t)
  | .error e => .next (takeFault s e)

/-! ### Checked access -/

/-- A value that must be there, else the fault. -/
def orTrap {α : Type} (v : Option α) (t : Trap) : Except Trap α :=
  match v with
  | some a => .ok a
  | none => .error t

/-- A check: nothing happens when the condition holds, else the fault. -/
def require (cond : Bool) (t : Trap) : Except Trap Unit := if cond then .ok () else .error t

/-- Read an X operand, UNINIT if it holds no value (10_state.md R25). -/
def readX (s : State) (r : XReg) : Except Trap Native := orTrap (getX s r) (.uninit .x r)
/-- Read an M operand. -/
def readM (s : State) (r : MReg) : Except Trap Magnitude := orTrap (getM s r) (.uninit .m r)
/-- Read an E operand. -/
def readE (s : State) (r : EReg) : Except Trap Nat := orTrap (getE s r) (.uninit .e r)
/-- Read an F operand. -/
def readF (s : State) (r : FReg) : Except Trap Native := orTrap (getF s r) (.uninit .f r)

/-- The lowest address outside TMEM among `addr` and those above it (20_memory.md R52, 46_radix.md R230). -/
def lowestBad (s : State) (addr : Nat) : Nat := max addr s.params.tmemSize

/-- The range check of `n` bytes from `addr` (20_memory.md R52): no byte touched, no check. -/
def checkRange (s : State) (addr n : Nat) : Except Trap Unit :=
  require (n = 0 || addr + n ≤ s.params.tmemSize) (.memRange (lowestBad s addr))

/-- The capacity check of a result of `len` digits (60_exceptions.md R282). -/
def checkCapacity (s : State) (len : Nat) : Except Trap Unit := require (s.params.fits len) (.capacity len)

/-- Write a magnitude result that may be too long (60_exceptions.md R282, 92_eei_decisions.md D38). -/
def writeChecked (s : State) (a : MReg) (r : Magnitude) : Except Trap State := do
  checkCapacity s r.length
  return setM s a r

/-- Instruction fetch (20_memory.md R51). -/
def fetch (s : State) : Except Trap Word := do
  require (s.pc.toNat < s.params.imemWords) (.pcRange s.pc)
  return imemWord s s.pc.toNat

end Sys2Proof.Machine
end

