-- ==== Sys2Proof/Machine/Digits.lean ====
section
/-! DEFINITION. Machine/Digits.lean: digits and magnitudes as numbers (00_scope.md R8, R10, R11). The digit base is the
argument B. -/

namespace Sys2Proof.Machine

/-- `bitlen(v)` (00_scope.md R8). -/
def bitlen (v : Nat) : Nat := if v = 0 then 0 else Nat.log2 v + 1

/-- `val(m)` (00_scope.md R10). -/
def val (B : Nat) : Magnitude → Nat
  | [] => 0
  | d :: ds => d + B * val B ds

/-- The digits of v, at most `fuel` of them after the first. -/
def digitsAux (B : Nat) : Nat → Nat → Magnitude
  | 0, v => [v]
  | fuel + 1, v => if v < B then [v] else v % B :: digitsAux B fuel (v / B)

/-- `digits(v)`, the canonical magnitude of v (00_scope.md R10); `bitlen v` divisions always suffice. -/
def digits (B v : Nat) : Magnitude := digitsAux B (bitlen v) v

/-- `m[i]`, 0 past the top (00_scope.md R10). -/
def digitAt (m : Magnitude) (i : Nat) : Nat := m.getD i 0

/-- `trim(m)` (00_scope.md R10). -/
def trim : Magnitude → Magnitude
  | [] => []
  | [d] => [d]
  | d :: ds => if trim ds = [0] then [d] else d :: trim ds

/-- `pad(m, L)` (00_scope.md R10). -/
def pad (m : Magnitude) (len : Nat) : Magnitude := m ++ List.replicate (len - m.length) 0

/-- `~m` (00_scope.md R10). -/
def complement (B : Nat) (m : Magnitude) : Magnitude := m.map fun d => B - 1 - d

/-- A canonical magnitude (00_scope.md R11). -/
def canonical (B : Nat) (m : Magnitude) : Bool :=
  !m.isEmpty && m.all (fun d => d < B) && (m.length = 1 || digitAt m (m.length - 1) != 0)

/-- `k` zero digits followed by the digits of m. -/
def zerosThen (k : Nat) (m : Magnitude) : Magnitude := List.replicate k 0 ++ m

/-- `shift_digits(m, k)` (43_multiply.md R163). -/
def shiftDigits (m : Magnitude) (k : Nat) : Magnitude := if m = [0] then [0] else zerosThen k m

end Sys2Proof.Machine
end

