-- ==== Sys2Proof/Machine/Flags.lean ====
section
/-! DEFINITION. Machine/Flags.lean: every flag computation: the sign of a difference (00_scope.md R12), the order of
magnitudes (41_compare.md R130), the flag encodings (10_state.md R29, R30, R34) and the branch conditions
(30_encoding.md R83). -/

namespace Sys2Proof.Machine

/-- `sgn(v)` (00_scope.md R12). -/
def sgn (v : Int) : Sign := if v < 0 then .negative else if v = 0 then .zero else .positive

/-- The sign of p − q for natural numbers. -/
def sgnSub (p q : Nat) : Sign := sgn ((p : Int) - (q : Int))

/-- A sign as the integer −1, 0 or 1 (00_scope.md R12). -/
def signInt : Sign → Int
  | .negative => -1
  | .zero => 0
  | .positive => 1

/-- The opposite sign. -/
def signNeg : Sign → Sign
  | .negative => .positive
  | .zero => .zero
  | .positive => .negative

/-- Most-significant-digit-first comparison of two digit lists given top digit first. -/
def compareTopFirst : List Nat → List Nat → Sign
  | p :: ps, q :: qs => if p ≠ q then sgnSub p q else compareTopFirst ps qs
  | _, _ => .zero

/-- `compare(p, q)` (41_compare.md R130): by length, then by the most significant differing digit. -/
def compareMag (p q : Magnitude) : Sign :=
  if p.length ≠ q.length then sgnSub p.length q.length else compareTopFirst p.reverse q.reverse

/-- The SGN field's bits (10_state.md R29). -/
def sgnCode : Sign → BitVec 2
  | .zero => 0b00
  | .positive => 0b01
  | .negative => 0b11

/-- The PERR field's bits (10_state.md R30). -/
def perrCode : ParseError → BitVec 2
  | .none => 0
  | .badRadix => 1
  | .badChar => 2
  | .empty => 3

/-- The STATE field's bits (10_state.md R31). -/
def runStateCode : RunState → BitVec 2
  | .idle => 0
  | .running => 1
  | .faulted => 2

/-- FLAGS as CSR 0x001 (10_state.md R34). -/
def flagsWord (s : State) : BitVec 64 := (perrCode s.perr ++ sgnCode s.sgn).setWidth 64

/-- `taken(cond, FLAGS)` (30_encoding.md R83). -/
def taken (c : Cond) (s : State) : Bool :=
  match c with
  | .al => true
  | .eq => s.sgn = .zero
  | .ne => s.sgn ≠ .zero
  | .lt => s.sgn = .negative
  | .ge => s.sgn ≠ .negative
  | .gt => s.sgn = .positive
  | .le => s.sgn ≠ .positive
  | .pe => s.perr ≠ .none
  | .npe => s.perr = .none

/-- The value of a CSR (10_state.md R33 to R39, 47_control_move.md R254). -/
def csrValue (s : State) : Csr → BitVec 64
  | .status => (runStateCode s.runState).setWidth 64
  | .flags => flagsWord s
  | .faultCause => s.faultCause.setWidth 64
  | .faultPc => s.faultPc.setWidth 64
  | .faultInfo => s.faultInfo
  | .cfgW => BitVec.ofNat 64 s.params.w
  | .cfgA => BitVec.ofNat 64 s.params.a
  | .cfgN => 64
  | .cfgKt => BitVec.ofNat 64 s.params.karatsubaThreshold
  | .cfgDt => BitVec.ofNat 64 s.params.dcThreshold
  | .cfgMaxLen => BitVec.ofNat 64 (s.params.maxLen.getD 0)
  | .cfgTmemSize => BitVec.ofNat 64 s.params.tmemSize
  | .cfgImemWords => BitVec.ofNat 64 s.params.imemWords
  | .cfgId => 0x7A570001

end Sys2Proof.Machine
end

