-- ==== Sys2Proof/Machine/Operands.lean ====
section
/-! DEFINITION. Machine/Operands.lean: every operand form that is more than a register: immediates (30_encoding.md R77),
the digit view of a native value (40_digit_accumulator.md R107), digits (R91), shift counts (R111), byte addresses
(47_control_move.md R264), texts (46_radix.md R229) and float values (46_radix.md R239 to R245). -/

namespace Sys2Proof.Machine

/-- `zext_64(imm16)` (30_encoding.md R77). -/
def zextImm (imm : BitVec 16) : Native := imm.setWidth 64

/-- A branch offset added to the pc, modulo 2^32 (47_control_move.md R253). -/
def branchTarget (pc : BitVec 32) (off : BitVec 16) : BitVec 32 := pc + off.signExtend 32

/-- `X[b] + sext_16(imm16)` as an unbounded integer (47_control_move.md R264). -/
def byteAddress (base : Native) (imm : BitVec 16) : Int := (base.toNat : Int) + imm.toInt

/-- The address check of LDB and STB (47_control_move.md R264, R265). -/
def checkByte (s : State) (addr : Int) : Except Trap Unit :=
  require (0 ≤ addr && addr < s.params.tmemSize) (.memRange addr)

/-- `digit_from_value(x)` for an integer (40_digit_accumulator.md R91). -/
def digitFromValue (B x : Nat) : Nat := x % B

/-- `view(x)`, the digit view of a native value (40_digit_accumulator.md R107): one digit when x < B, else two. -/
def view (B : Nat) (x : Native) : Magnitude := if x.toNat < B then [x.toNat] else [x.toNat % B, x.toNat / B]

/-- A native operand that must be a digit (60_exceptions.md R283, DIGIT_RANGE). -/
def checkDigit (B x : Nat) : Except Trap Unit := require (x < B) (.contract .digitRange)

/-- `sod(k)`, the shift-offset descriptor (digits, bits) (40_digit_accumulator.md R111). -/
def sod (W k : Nat) : Nat × Nat := (k / W, k % W)

/-! ### Float operands (46_radix.md R239 to R245) -/

/-- A binary64 pattern as a value (46_radix.md R239): finite ones are (−1)^neg · mant · 2^exp. -/
inductive FloatValue where
  | nan
  | infinite (neg : Bool)
  | finite (neg : Bool) (mant : Nat) (exp : Int)
  deriving DecidableEq, Repr

/-- `f64(bits)` (46_radix.md R239). -/
def f64 (bits : Native) : FloatValue :=
  let neg := bits.getLsbD 63
  let e := (bits.extractLsb' 52 11).toNat
  let f := (bits.extractLsb' 0 52).toNat
  if e = 2047 then
    if f = 0 then .infinite neg else .nan
  else if e = 0 then .finite neg f (-1074)
  else .finite neg (2 ^ 52 + f) ((e : Int) - 1075)

/-- A non-negative dyadic rational mant · 2^exp, the exact value of an accepted float (46_radix.md R239). -/
structure Dyadic where
  mant : Nat
  exp : Int
  deriving DecidableEq, Repr

/-- `floor(x)` (46_radix.md R239). -/
def floorDyadic (x : Dyadic) : Nat :=
  if 0 ≤ x.exp then x.mant * 2 ^ x.exp.toNat else x.mant / 2 ^ (-x.exp).toNat

/-- `x / B` for B = 2^W, exact (46_radix.md R242). -/
def divBase (W : Nat) (x : Dyadic) : Dyadic := { x with exp := x.exp - W }

/-- `f64` with `check_float` (46_radix.md R240): NaN, infinities and negative values are refused; −0.0 is 0. -/
def checkFloat (v : FloatValue) : Except Trap Dyadic :=
  match v with
  | .nan => .error (.contract .floatDomain)
  | .infinite _ => .error (.contract .floatDomain)
  | .finite neg mant exp =>
    if neg && mant != 0 then .error (.contract .floatDomain) else .ok ⟨mant, exp⟩

/-- Read an F operand as a float value in the domain: UNINIT, then FLOAT_DOMAIN. -/
def readFloat (s : State) (r : FReg) : Except Trap Dyadic := do
  let bits ← readF s r
  checkFloat (f64 bits)

/-- `digit_from_float(x)` (46_radix.md R241). -/
def digitFromFloat (B : Nat) (x : Dyadic) : Nat := floorDyadic x % B

/-- The cursor's loop (46_radix.md R243): a digit, then divide, while the value is at least 1. -/
def floatDigitsAux (W : Nat) : Nat → Dyadic → Magnitude
  | 0, rem => [digitFromFloat (2 ^ W) rem]
  | fuel + 1, rem =>
    digitFromFloat (2 ^ W) rem ::
      (if 1 ≤ floorDyadic (divBase W rem) then floatDigitsAux W fuel (divBase W rem) else [])

/-- `float_digits(x)`, the float cursor (46_radix.md R243); `bitlen (floor x)` steps always suffice. -/
def floatDigits (W : Nat) (x : Dyadic) : Magnitude := floatDigitsAux W (bitlen (floorDyadic x)) x

/-- Is x = 2^e? -/
def isPowerOfTwo (x : Dyadic) (e : Nat) : Bool :=
  if 0 ≤ x.exp then x.mant * 2 ^ x.exp.toNat = 2 ^ e else x.mant = 2 ^ (e + (-x.exp).toNat)

/-- `fdcnt(x)` (46_radix.md R245): `ceil(log2(x)/W)` exactly, 0 below 1. -/
def fdcntValue (W : Nat) (x : Dyadic) : Nat :=
  if floorDyadic x < 1 then 0
  else
    let e := bitlen (floorDyadic x) - 1
    if isPowerOfTwo x e then (e + W - 1) / W else e / W + 1

end Sys2Proof.Machine
end

