-- ==== Sys2Proof/Machine/Accumulator.lean ====
section
/-! DEFINITION. Machine/Accumulator.lean: the digit primitives, the extended accumulator, the digit view, the
shift-offset descriptor and the leading-zero counter (40_digit_accumulator.md R91 to R114). -/

namespace Sys2Proof.Machine

/-! ### Accumulator read functions (40_digit_accumulator.md R93) -/

/-- `low_digit(V)`. -/
def lowDigit (B v : Nat) : Nat := v % B
/-- `middle_digit(V)`. -/
def middleDigit (B v : Nat) : Nat := v / B % B
/-- `high_digit(V)`. -/
def highDigit (B v : Nat) : Nat := v / B ^ 2
/-- `digits_size(V)`. -/
def digitsSize (B v : Nat) : Nat := if v < B then 1 else if v < B ^ 2 then 2 else 3

/-- The storage form of an accumulator value: its low and high A-bit words (10_state.md R23, 40_digit_accumulator.md
R92). No command reads them apart. -/
def accWords (A v : Nat) : Nat × Nat := (v % 2 ^ A, v / 2 ^ A)

/-- An accumulator result must be below B^3 (40_digit_accumulator.md R92). -/
def checkAcc (B v : Nat) : Except Trap Unit := require (v < B ^ 3) (.contract .accRange)

/-- The shift-and-test count of leading zero bits: bits are tested from `bit − 1` down (40_digit_accumulator.md R114). -/
def clzLoop (x : Nat) : Nat → Nat
  | 0 => 0
  | bit + 1 => if x.testBit bit then 0 else clzLoop x bit + 1

/-- The leading zero bits of a W-bit digit (40_digit_accumulator.md R114). -/
def clzDigit (W x : Nat) : Nat := clzLoop x W

/-! ### Shared shapes: one X or E operand, an X result -/

/-- `X[a] <- g(X[b])`. -/
def xFromX (a b : XReg) (g : Nat → Nat) (s : State) : Host.Outcome State Fault Refusal :=
  finish s do
    let x ← readX s b
    return setX s a (BitVec.ofNat 64 (g x.toNat))

/-- `X[a] <- g(E[b])`. -/
def xFromE (a : XReg) (b : EReg) (g : Nat → Nat) (s : State) : Host.Outcome State Fault Refusal :=
  finish s do
    let v ← readE s b
    return setX s a (BitVec.ofNat 64 (g v))

/-! ### Meanings -/

/-- DIGV (40_digit_accumulator.md R94). -/
def execDigv (a b : XReg) (s : State) : Host.Outcome State Fault Refusal :=
  xFromX a b (digitFromValue s.params.base) s

/-- DIGVF (40_digit_accumulator.md R95). -/
def execDigvf (a : XReg) (b : FReg) (s : State) : Host.Outcome State Fault Refusal :=
  finish s do
    let x ← readFloat s b
    return setX s a (BitVec.ofNat 64 (digitFromFloat s.params.base x))

/-- EMOV (40_digit_accumulator.md R96). -/
def execEmov (a : EReg) (b c : XReg) (s : State) : Host.Outcome State Fault Refusal :=
  finish s do
    let lo ← readX s b
    let mid ← readX s c
    require (lo.toNat < s.params.base && mid.toNat < s.params.base) (.contract .digitRange)
    return setE s a (mid.toNat * s.params.base + lo.toNat)

/-- EDL (40_digit_accumulator.md R97). -/
def execEdl (a : XReg) (b : EReg) (s : State) : Host.Outcome State Fault Refusal :=
  xFromE a b (lowDigit s.params.base) s

/-- EDM (40_digit_accumulator.md R98). -/
def execEdm (a : XReg) (b : EReg) (s : State) : Host.Outcome State Fault Refusal :=
  xFromE a b (middleDigit s.params.base) s

/-- EDH (40_digit_accumulator.md R99). -/
def execEdh (a : XReg) (b : EReg) (s : State) : Host.Outcome State Fault Refusal :=
  xFromE a b (highDigit s.params.base) s

/-- ESZ (40_digit_accumulator.md R100). -/
def execEsz (a : XReg) (b : EReg) (s : State) : Host.Outcome State Fault Refusal :=
  xFromE a b (digitsSize s.params.base) s

/-- EMB (40_digit_accumulator.md R101). -/
def execEmb (a b : EReg) (s : State) : Host.Outcome State Fault Refusal :=
  finish s do
    let v ← readE s b
    checkAcc s.params.base (v * s.params.base)
    return setE s a (v * s.params.base)

/-- EMBA (40_digit_accumulator.md R102). -/
def execEmba (a b : EReg) (c : XReg) (s : State) : Host.Outcome State Fault Refusal :=
  finish s do
    let v ← readE s b
    let dg ← readX s c
    checkDigit s.params.base dg.toNat
    checkAcc s.params.base (v * s.params.base + dg.toNat)
    return setE s a (v * s.params.base + dg.toNat)

/-- EMULD (40_digit_accumulator.md R103). -/
def execEmuld (a b : EReg) (c : XReg) (s : State) : Host.Outcome State Fault Refusal :=
  finish s do
    let v ← readE s b
    let dg ← readX s c
    checkDigit s.params.base dg.toNat
    checkAcc s.params.base (v * dg.toNat)
    return setE s a (v * dg.toNat)

/-- ESUB (40_digit_accumulator.md R104). -/
def execEsub (a b c : EReg) (s : State) : Host.Outcome State Fault Refusal :=
  finish s do
    let u ← readE s b
    let v ← readE s c
    require (v ≤ u) (.contract .accNegative)
    return setE s a (u - v)

/-- ESHR (40_digit_accumulator.md R105). -/
def execEshr (a b : EReg) (k : BitVec 8) (s : State) : Host.Outcome State Fault Refusal :=
  finish s do
    let v ← readE s b
    require (k.toNat < s.params.w) (.contract .shiftRange)
    return setE s a (v / 2 ^ k.toNat)

/-- ECMP (40_digit_accumulator.md R106). -/
def execEcmp (b c : EReg) (s : State) : Host.Outcome State Fault Refusal :=
  finish s do
    let u ← readE s b
    let v ← readE s c
    return setSgn s (sgnSub u v)

/-- VLO (40_digit_accumulator.md R108). -/
def execVlo (a b : XReg) (s : State) : Host.Outcome State Fault Refusal :=
  xFromX a b (fun x => x % s.params.base) s

/-- VHI (40_digit_accumulator.md R109). -/
def execVhi (a b : XReg) (s : State) : Host.Outcome State Fault Refusal :=
  xFromX a b (fun x => x / s.params.base) s

/-- VSZ (40_digit_accumulator.md R110). -/
def execVsz (a b : XReg) (s : State) : Host.Outcome State Fault Refusal :=
  xFromX a b (fun x => if x < s.params.base then 1 else 2) s

/-- SODD (40_digit_accumulator.md R112). -/
def execSodd (a b : XReg) (s : State) : Host.Outcome State Fault Refusal :=
  xFromX a b (fun k => (sod s.params.w k).1) s

/-- SODB (40_digit_accumulator.md R113). -/
def execSodb (a b : XReg) (s : State) : Host.Outcome State Fault Refusal :=
  xFromX a b (fun k => (sod s.params.w k).2) s

/-- CLZ (40_digit_accumulator.md R114). -/
def execClz (a b : XReg) (s : State) : Host.Outcome State Fault Refusal :=
  finish s do
    let x ← readX s b
    checkDigit s.params.base x.toNat
    require (x.toNat ≠ 0) (.contract .clzZero)
    return setX s a (BitVec.ofNat 64 (clzDigit s.params.w x.toNat))

end Sys2Proof.Machine
end

