-- ==== Sys2Proof/Machine/Compare.lean ====
section
/-! DEFINITION. Machine/Compare.lean: CMP, CMPX, CMPF (41_compare.md R131 to R133). -/

namespace Sys2Proof.Machine

/-- CMP (41_compare.md R131). -/
def execCmp (b c : MReg) (s : State) : Host.Outcome State Fault Refusal :=
  finish s do
    let p ← readM s b
    let q ← readM s c
    return setSgn s (compareMag p q)

/-- CMPX (41_compare.md R132). -/
def execCmpx (b : MReg) (c : XReg) (s : State) : Host.Outcome State Fault Refusal :=
  finish s do
    let p ← readM s b
    let x ← readX s c
    return setSgn s (compareMag p (view s.params.base x))

/-- CMPF (41_compare.md R133). -/
def execCmpf (b : MReg) (c : FReg) (s : State) : Host.Outcome State Fault Refusal :=
  finish s do
    let p ← readM s b
    let x ← readFloat s c
    return setSgn s (compareMag p (floatDigits s.params.w x))

end Sys2Proof.Machine
end

