-- ==== Sys2Proof/Machine/Control.lean ====
section
/-! DEFINITION. Machine/Control.lean: the sequencer, native registers, magnitude movement and text bytes
(47_control_move.md R251 to R265). -/

namespace Sys2Proof.Machine

/-- NOP (47_control_move.md R251). -/
def execNop (s : State) : Host.Outcome State Fault Refusal := .next (advancePc s)

/-- HALT (47_control_move.md R252). -/
def execHalt (s : State) : Host.Outcome State Fault Refusal := .next (setRunState (advancePc s) .idle)

/-- BR (47_control_move.md R253). -/
def execBr (cond : Cond) (off : BitVec 16) (s : State) : Host.Outcome State Fault Refusal :=
  .next (if taken cond s then setPc s (branchTarget s.pc off) else advancePc s)

/-- CSRR (47_control_move.md R254). -/
def execCsrr (a : XReg) (csr : Csr) (s : State) : Host.Outcome State Fault Refusal :=
  finish s (.ok (setX s a (csrValue s csr)))

/-- LI (47_control_move.md R255). -/
def execLi (a : XReg) (imm : BitVec 16) (s : State) : Host.Outcome State Fault Refusal :=
  finish s (.ok (setX s a (zextImm imm)))

/-- LIH (47_control_move.md R256). -/
def execLih (a : XReg) (imm : BitVec 16) (s : State) : Host.Outcome State Fault Refusal :=
  finish s do
    let x ← readX s a
    return setX s a (x * 2 ^ 16 + zextImm imm)

/-- XADDI (47_control_move.md R257). -/
def execXaddi (a b : XReg) (imm : BitVec 16) (s : State) : Host.Outcome State Fault Refusal :=
  finish s do
    let x ← readX s b
    return setX s a (x + imm.signExtend 64)

/-- XCMP (47_control_move.md R258). -/
def execXcmp (b c : XReg) (s : State) : Host.Outcome State Fault Refusal :=
  finish s do
    let x ← readX s b
    let y ← readX s c
    return setSgn s (sgnSub x.toNat y.toNat)

/-- MOV (47_control_move.md R259). -/
def execMov (a b : MReg) (s : State) : Host.Outcome State Fault Refusal :=
  finish s do
    let m ← readM s b
    return setM s a m

/-- MFX (47_control_move.md R260). -/
def execMfx (a : MReg) (b : XReg) (s : State) : Host.Outcome State Fault Refusal :=
  finish s do
    let x ← readX s b
    return setM s a (view s.params.base x)

/-- A length as an X value: exact below 2^64, a free value from there on (log entry 5). -/
def lengthValue (n : Nat) : Native := if n < 2 ^ 64 then BitVec.ofNat 64 n else Config.wideLength n

/-- LEN (47_control_move.md R261). -/
def execLen (a : XReg) (b : MReg) (s : State) : Host.Outcome State Fault Refusal :=
  finish s do
    let m ← readM s b
    return setX s a (lengthValue m.length)

/-- GETD (47_control_move.md R262). -/
def execGetd (a : XReg) (b : MReg) (c : XReg) (s : State) : Host.Outcome State Fault Refusal :=
  finish s do
    let m ← readM s b
    let i ← readX s c
    return setX s a (BitVec.ofNat 64 (digitAt m i.toNat))

/-- FMVX (47_control_move.md R263). -/
def execFmvx (a : FReg) (b : XReg) (s : State) : Host.Outcome State Fault Refusal :=
  finish s do
    let x ← readX s b
    return setF s a x

/-- LDB (47_control_move.md R264). -/
def execLdb (a b : XReg) (imm : BitVec 16) (s : State) : Host.Outcome State Fault Refusal :=
  finish s do
    let base ← readX s b
    checkByte s (byteAddress base imm)
    return setX s a ((tmemByte s (byteAddress base imm).toNat).setWidth 64)

/-- STB (47_control_move.md R265). -/
def execStb (a b : XReg) (imm : BitVec 16) (s : State) : Host.Outcome State Fault Refusal :=
  finish s do
    let base ← readX s b
    let v ← readX s a
    checkByte s (byteAddress base imm)
    return setBytes s (byteAddress base imm).toNat [v.setWidth 8]

end Sys2Proof.Machine
end

