-- ==== Sys2Proof/Machine/Divide.lean ====
section
/-! DEFINITION. Machine/Divide.lean: normalized long division (44_divide.md R182 to R186), the divide-and-conquer
division (R188 to R193), the flow with its two equal paths and its postcondition (R180, R183, R187, R194), and DIV, DIVL, QUO, REM, DIVX. The assertions
of R186, R193 and R194 are kept as the fault ASSERT. -/

namespace Sys2Proof.Machine

/-! ### Long division -/

/-- `estimate(rr, d, k)` (44_divide.md R185). -/
def estimate (B : Nat) (rr d : Magnitude) (k : Nat) : Nat :=
  min ((digitAt rr k * B + digitAt rr (k - 1)) / digitAt d (k - 1)) (B - 1)

/-- The correction loop of 44_divide.md R184: decrement while qhat · D > r, at most `budget` times. -/
def correctQuotient (D r : Nat) : Nat → Nat → Except Trap Nat
  | 0, qhat => if r < qhat * D then .error (.assertion .longDivision) else .ok qhat
  | budget + 1, qhat => if r < qhat * D then correctQuotient D r budget (qhat - 1) else .ok qhat

/-- One quotient digit for the running remainder r (44_divide.md R184): the digit and the new remainder. -/
def quotientDigit (B D r : Nat) : Except Trap (Nat × Nat) :=
  if r < D then .ok (0, r)
  else do
    let d := digits B D
    let k := d.length
    let qhat ← correctQuotient D r 2 (estimate B (pad (digits B r) (k + 1)) d k)
    return (qhat, r - qhat * D)

/-- The loop of 44_divide.md R184 over the dividend digits, most significant first. `qd` holds the quotient digits
found so far, least significant first: the order the spec's final reversal gives. -/
def longDivideLoop (B D : Nat) : List Nat → Nat → Magnitude → Except Trap (Magnitude × Nat)
  | [], r, qd => .ok (qd, r)
  | n :: ns, r, qd => do
    let qr ← quotientDigit B D (r * B + n)
    longDivideLoop B D ns qr.2 (qr.1 :: qd)

/-- `long_divide(N, D)` (44_divide.md R184); D is normalized. -/
def longDivide (B N D : Nat) : Except Trap (Nat × Nat) := do
  let res ← longDivideLoop B D (digits B N).reverse 0 []
  return (val B (trim res.1), res.2)

/-! ### Divide and conquer -/

/-- The correction loop of 44_divide.md R191: decrement and re-add the divisor while negative, at most `budget` times. -/
def correctRemainder (b : Nat) : Nat → Nat → Int → Except Trap (Nat × Nat)
  | 0, qhat, rhat => if rhat < 0 then .error (.assertion .divideAndConquer) else .ok (qhat, rhat.toNat)
  | budget + 1, qhat, rhat =>
    if rhat < 0 then correctRemainder b budget (qhat - 1) (rhat + b) else .ok (qhat, rhat.toNat)

/-- `d3n2n(a, b, n)` (44_divide.md R191) over the 2n-by-n step `d21` it recurses into. -/
def d3n2n (d21 : Nat → Nat → Nat → Except Trap (Nat × Nat)) (B a b n : Nat) : Except Trap (Nat × Nat) := do
  let a3 := a % B ^ n
  let a12 := a / B ^ n
  let a1 := a12 / B ^ n
  let b1 := b / B ^ n
  let b2 := b % B ^ n
  let qr ← if a1 < b1 then d21 a12 b1 n else .ok (B ^ n - 1, a12 - b1 * B ^ n + b1)
  correctRemainder b 2 qr.1 ((qr.2 * B ^ n + a3 : Nat) - (qr.1 * b2 : Nat))

/-- `d2n1n(a, b, n)` (44_divide.md R190) with cut-off dt (R192). The fuel bounds the recursion: each level halves n,
so n levels always suffice. -/
def d2n1n (B dt : Nat) : Nat → Nat → Nat → Nat → Except Trap (Nat × Nat)
  | 0, a, b, _ => longDivide B a b
  | fuel + 1, a, b, n =>
    if n % 2 = 1 ∨ n < dt then longDivide B a b
    else do
      let h := n / 2
      let qr1 ← d3n2n (d2n1n B dt fuel) B (a / B ^ h) b h
      let qr2 ← d3n2n (d2n1n B dt fuel) B (qr1.2 * B ^ h + a % B ^ h) b h
      return (qr1.1 * B ^ h + qr2.1, qr2.2)

/-- The chunks `A_i` for i from `count − 1` down to 0 (44_divide.md R189). -/
def chunks (B N n : Nat) : Nat → List Nat
  | 0 => []
  | count + 1 => N / B ^ (count * n) % B ^ n :: chunks B N n count

/-- The loop of 44_divide.md R189 over the chunks below the top one: the remainder so far takes in the next chunk. -/
def blockLoop (B dt D n : Nat) : List Nat → Nat → Nat → Except Trap (Nat × Nat)
  | [], q, r => .ok (q, r)
  | c :: cs, q, r => do
    let qr ← d2n1n B dt n (r * B ^ n + c) D n
    blockLoop B dt D n cs (q * B ^ n + qr.1) qr.2

/-- The least power of two m with m · dt > s (44_divide.md R188): 2^bitlen(s div dt). -/
def leastPower (dt s : Nat) : Nat := 2 ^ bitlen (s / dt)

/-- `ceil(x / y)`. -/
def ceilDiv (x y : Nat) : Nat := (x + y - 1) / y

/-- `block_loop(N', D', n, t)` (44_divide.md R189): the top chunk starts as the remainder. -/
def blockDivide (B dt N D n t : Nat) : Except Trap (Nat × Nat) :=
  match chunks B N n t with
  | [] => .ok (0, 0)
  | top :: rest => blockLoop B dt D n rest 0 top

/-- `dc_divide(N, D)` (44_divide.md R188). -/
def dcDivide (W dt N D : Nat) : Except Trap (Nat × Nat) := do
  let B := 2 ^ W
  let s := (digits B D).length
  let m := leastPower dt s
  let n := ceilDiv s m * m
  let sigma := n * W - bitlen D
  let N' := N * 2 ^ sigma
  let t := max 2 (ceilDiv (bitlen N' + 1) (n * W))
  let qr ← blockDivide B dt N' (D * 2 ^ sigma) n t
  return (qr.1, qr.2 / 2 ^ sigma)

/-! ### The flow -/

/-- The long-division path with its normalization (44_divide.md R180, R182, R194). -/
def normalizedLongDivide (W N D top : Nat) : Except Trap (Nat × Nat) := do
  let sh := W - bitlen top
  let qr ← longDivide (2 ^ W) (N * 2 ^ sh) (D * 2 ^ sh)
  return (qr.1, qr.2 / 2 ^ sh)

/-- `divide(n, dv, force_long)` (44_divide.md R180) for digit width W and threshold dt: divide and conquer from dt digits of
the divisor on unless long division is forced (R183). Both paths answer the same pair (R187), so neither dt nor
`forceLong` shows in the result. -/
def divide (W dt : Nat) (n dv : Magnitude) (forceLong : Bool) : Except Trap (Magnitude × Magnitude) :=
  let B := 2 ^ W
  let N := val B n
  let D := val B dv
  if dv = [0] then .error .divZero
  else if compareMag dv n = .positive then .ok ([0], n)
  else do
    let qr ←
      if !forceLong && decide (dt ≤ dv.length) then dcDivide W dt N D
      else normalizedLongDivide W N D (digitAt dv (dv.length - 1))
    require (qr.1 * D + qr.2 = N && qr.2 < D) (.assertion .postcondition)
    return (digits B qr.1, digits B qr.2)

/-- `divide` under the machine's parameters. -/
def divideM (s : State) (n dv : Magnitude) (forceLong : Bool) : Except Trap (Magnitude × Magnitude) :=
  divide s.params.w s.params.dcThreshold n dv forceLong

/-! ### Meanings -/

/-- Quotient and remainder of M[b] by M[c], checked for two different destinations: 30_encoding.md R80 (5) makes
a = d ILLEGAL, which the decoder already refuses. -/
def divTwo (w : Word) (a b c d : MReg) (forceLong : Bool) (s : State) : Host.Outcome State Fault Refusal :=
  finish s do
    require (a ≠ d) (.illegal w)
    let n ← readM s b
    let dv ← readM s c
    let qr ← divideM s n dv forceLong
    return setM (setM s a qr.1) d qr.2

/-- DIV (44_divide.md R195). -/
def execDiv (a b c d : MReg) (s : State) : Host.Outcome State Fault Refusal :=
  divTwo (encode (.div a b c d)) a b c d false s

/-- DIVL (44_divide.md R196): DIV with long division forced, and so the same results (R187). -/
def execDivl (a b c d : MReg) (s : State) : Host.Outcome State Fault Refusal :=
  divTwo (encode (.divl a b c d)) a b c d true s

/-- QUO (44_divide.md R197). -/
def execQuo (a b c : MReg) (s : State) : Host.Outcome State Fault Refusal :=
  finish s do
    let n ← readM s b
    let dv ← readM s c
    let qr ← divideM s n dv false
    return setM s a qr.1

/-- REM (44_divide.md R198). -/
def execRem (a b c : MReg) (s : State) : Host.Outcome State Fault Refusal :=
  finish s do
    let n ← readM s b
    let dv ← readM s c
    let qr ← divideM s n dv false
    return setM s a qr.2

/-- DIVX (44_divide.md R199). -/
def execDivx (a b : MReg) (c d : XReg) (s : State) : Host.Outcome State Fault Refusal :=
  finish s do
    let n ← readM s b
    let x ← readX s c
    let qr ← divideM s n (view s.params.base x) false
    return setX (setM s a qr.1) d (BitVec.ofNat 64 (val s.params.base qr.2))

end Sys2Proof.Machine
end

