-- ==== Sys2Proof/Machine/AddSub.lean ====
section
/-! DEFINITION. Machine/AddSub.lean: the carry-propagating adder (42_add_sub.md R140), the end-around-carry subtractor
(R145, with the carry polarity of R146 and 90_conflicts.md C1), and ADD, ADDX, ADDF, SUB. -/

namespace Sys2Proof.Machine

/-- A carry alone through the remaining digits, until it is 0 (42_add_sub.md R140, the `while` loop). -/
def propagate (B : Nat) : Magnitude → Nat → Magnitude
  | [], _ => []
  | r :: rs, carry => if carry = 0 then r :: rs else (r + carry) % B :: propagate B rs ((r + carry) / B)

/-- Add the digits of q into r, then let the residual carry propagate (42_add_sub.md R140). -/
def addInto (B : Nat) : Magnitude → Magnitude → Nat → Magnitude
  | rs, [], carry => propagate B rs carry
  | [], _ :: _, _ => []
  | r :: rs, q :: qs, carry => (r + q + carry) % B :: addInto B rs qs ((r + q + carry) / B)

/-- `add(p, q)` (42_add_sub.md R140). -/
def addMag (B : Nat) (p q : Magnitude) : Magnitude := trim (addInto B (pad p (max p.length q.length + 1)) q 0)

/-- An addition of fixed length: the digits of c plus those of q and the carry in, with the carry off the top
(42_add_sub.md R145, the first loop); digits of q past its top are 0. -/
def addFixed (B : Nat) : Magnitude → Magnitude → Nat → Magnitude × Nat
  | [], _, carry => ([], carry)
  | c :: cs, qs, carry =>
    let t := c + qs.headD 0 + carry
    let r := addFixed B cs qs.tail (t / B)
    (t % B :: r.1, r.2)

/-- The end-around increment (42_add_sub.md R145, the second loop). -/
def increment (B : Nat) : Magnitude → Nat → Magnitude
  | [], _ => []
  | t :: ts, e => (t + e) % B :: increment B ts ((t + e) / B)

/-- The sign of a trimmed difference: "a trimmed result of exactly [0] forces sign ZERO" (42_add_sub.md R145). -/
def signOrZero (sign : Sign) (mag : Magnitude) : Sign × Magnitude := if mag = [0] then (.zero, mag) else (sign, mag)

/-- `sub(p, q)` (42_add_sub.md R145): minuend p, subtrahend q. -/
def subMag (B : Nat) (p q : Magnitude) : Sign × Magnitude :=
  let len := max p.length q.length
  let r := addFixed B (complement B (pad p len)) q 0
  if r.2 = 1 then
    let u := complement B (increment B r.1 1)
    signOrZero .negative (trim (complement B u))
  else signOrZero .positive (trim (complement B r.1))

/-- ADD (42_add_sub.md R142). -/
def execAdd (a b c : MReg) (s : State) : Host.Outcome State Fault Refusal :=
  finish s do
    let p ← readM s b
    let q ← readM s c
    writeChecked s a (addMag s.params.base p q)

/-- ADDX (42_add_sub.md R143). -/
def execAddx (a b : MReg) (c : XReg) (s : State) : Host.Outcome State Fault Refusal :=
  finish s do
    let p ← readM s b
    let x ← readX s c
    writeChecked s a (addMag s.params.base p (view s.params.base x))

/-- ADDF (42_add_sub.md R144). -/
def execAddf (a b : MReg) (c : FReg) (s : State) : Host.Outcome State Fault Refusal :=
  finish s do
    let p ← readM s b
    let x ← readFloat s c
    writeChecked s a (addMag s.params.base p (floatDigits s.params.w x))

/-- SUB (42_add_sub.md R147). -/
def execSub (a b c : MReg) (s : State) : Host.Outcome State Fault Refusal :=
  finish s do
    let p ← readM s b
    let q ← readM s c
    let r := subMag s.params.base p q
    return setSgn (setM s a r.2) r.1

end Sys2Proof.Machine
end

