-- ==== Sys2Proof/Machine/Multiply.lean ====
section
/-! DEFINITION. Machine/Multiply.lean: the schoolbook (43_multiply.md R161) and Karatsuba (R163) multipliers and the
one-digit product (R162); MUL and MULL. Their results are not limited by MAXLEN until a command writes one (R164). -/

namespace Sys2Proof.Machine

/-- The shorter operand first, the first one if they are equally long (43_multiply.md R161, R163). -/
def shorterFirst (p q : Magnitude) : Magnitude × Magnitude := if p.length ≤ q.length then (p, q) else (q, p)

/-- One row of the schoolbook product: dg · l added into r with a running carry, which is stored above the row
(43_multiply.md R161, the inner loop). -/
def mulRow (B : Nat) (dg : Nat) : Magnitude → Magnitude → Nat → Magnitude
  | [], _ :: rs, carry => carry :: rs
  | [], [], _ => []
  | _ :: _, [], _ => []
  | l :: ls, r :: rs, carry => (r + dg * l + carry) % B :: mulRow B dg ls rs ((r + dg * l + carry) / B)

/-- The rows of the schoolbook product; r is the buffer from the current row's position up (43_multiply.md R161). -/
def mulRows (B : Nat) : Magnitude → Magnitude → Magnitude → Magnitude
  | [], _, r => r
  | d :: ds, l, r =>
    match mulRow B d l r 0 with
    | [] => []
    | r0 :: rest => r0 :: mulRows B ds l rest

/-- "trim one possible leading zero" (43_multiply.md R161). -/
def dropTopZero (r : Magnitude) : Magnitude := if digitAt r (r.length - 1) = 0 then r.dropLast else r

/-- `long_multiply(p, q)` (43_multiply.md R161). -/
def longMultiply (B : Nat) (p q : Magnitude) : Magnitude :=
  if p = [0] ∨ q = [0] then [0]
  else
    let sl := shorterFirst p q
    dropTopZero (mulRows B sl.1 sl.2 (List.replicate (p.length + q.length) 0))

/-- The digits of l · dg with the final carry (43_multiply.md R162). -/
def mulDigitLoop (B : Nat) (dg : Nat) : Magnitude → Nat → Magnitude
  | [], carry => if carry = 0 then [] else [carry]
  | l :: ls, carry => (l * dg + carry) % B :: mulDigitLoop B dg ls ((l * dg + carry) / B)

/-- `mul_digit(l, dg)` (43_multiply.md R162). -/
def mulDigit (B : Nat) (l : Magnitude) (dg : Nat) : Magnitude :=
  if dg = 0 ∨ l = [0] then [0] else mulDigitLoop B dg l 0

/-- `karatsuba(p, q)` (43_multiply.md R163) with recursion threshold kt. The fuel bounds the recursion; the total
value of the operands falls at every call (R164), so `val p + val q` always suffices. -/
def karatsubaAux (B kt : Nat) : Nat → Magnitude → Magnitude → Magnitude
  | 0, p, q => longMultiply B p q
  | fuel + 1, p, q =>
    let s := (shorterFirst p q).1
    let l := (shorterFirst p q).2
    if s.length < kt then longMultiply B p q
    else if s.length = 1 then mulDigit B l (digitAt s 0)
    else
      let half := s.length / 2
      let sLo := trim (s.take half)
      let sHi := s.drop half
      let lLo := trim (l.take half)
      let lHi := l.drop half
      let lo := karatsubaAux B kt fuel sLo lLo
      let hi := karatsubaAux B kt fuel sHi lHi
      let mid := karatsubaAux B kt fuel (addMag B sLo sHi) (addMag B lLo lHi)
      let mid := (subMag B mid lo).2
      let mid := (subMag B mid hi).2
      addMag B (addMag B (shiftDigits hi (2 * half)) (shiftDigits mid half)) lo

/-- `karatsuba(p, q)` (43_multiply.md R163). -/
def karatsuba (B kt : Nat) (p q : Magnitude) : Magnitude := karatsubaAux B kt (val B p + val B q) p q

/-- MUL (43_multiply.md R165). -/
def execMul (a b c : MReg) (s : State) : Host.Outcome State Fault Refusal :=
  finish s do
    let p ← readM s b
    let q ← readM s c
    writeChecked s a (karatsuba s.params.base s.params.karatsubaThreshold p q)

/-- MULL (43_multiply.md R167). -/
def execMull (a b c : MReg) (s : State) : Host.Outcome State Fault Refusal :=
  finish s do
    let p ← readM s b
    let q ← readM s c
    writeChecked s a (longMultiply s.params.base p q)

end Sys2Proof.Machine
end

