-- ==== Sys2Proof/Machine/Radix.lean ====
section
/-! DEFINITION. Machine/Radix.lean: radix conversion, prefix inference and the float commands (46_radix.md R225 to R246):
PARSE, FMT, RINF, RPFX, FCVT, FDCNT. -/

namespace Sys2Proof.Machine

/-! ### Radix and alphabets -/

/-- A legal text radix (46_radix.md R225). -/
def legalRadix (r : Nat) : Bool := 2 ≤ r && r ≤ 64

/-- The value of `ch` in the run of characters from `first` to `last`, whose first has value `base`. -/
def inRun (ch first last base : Nat) : Option Nat := if first ≤ ch ∧ ch ≤ last then some (ch - first + base) else none

/-- The alphabet for radix ≤ 36, case-insensitive (46_radix.md R226). -/
def alphabetLow (ch : Nat) : Option Nat :=
  inRun ch 0x30 0x39 0 <|> inRun ch 0x61 0x7A 10 <|> inRun ch 0x41 0x5A 10

/-- The alphabet for radix 37 to 64, case-sensitive (46_radix.md R227). -/
def alphabetHigh (ch : Nat) : Option Nat :=
  inRun ch 0x41 0x5A 0 <|> inRun ch 0x61 0x7A 26 <|> inRun ch 0x30 0x39 52 <|> inRun ch 0x2B 0x2B 62 <|>
    inRun ch 0x2F 0x2F 63

/-- `char_value(ch, r)` (46_radix.md R228). -/
def charValue (ch : Byte) (r : Nat) : Option Nat :=
  (if r ≤ 36 then alphabetLow ch.toNat else alphabetHigh ch.toNat).filter fun v => v < r

/-- Character v of the output alphabet of radix r (46_radix.md R231): lower case for r ≤ 36. DEDUCED (unsafe), log
entry 13: so value 0, and with it the magnitude [0], is written as 'A' in radix 37 to 64, as R231, the pseudocode of
R233 and R247 (1) give, although the prose of R233 and R234 says that [0] is written as "0" and names no radix. -/
def outputChar (r v : Nat) : Byte :=
  BitVec.ofNat 8
    (if r ≤ 36 then (if v < 10 then 0x30 + v else 0x61 + (v - 10))
     else if v < 26 then 0x41 + v
     else if v < 52 then 0x61 + (v - 26)
     else if v < 62 then 0x30 + (v - 52)
     else if v = 62 then 0x2B
     else 0x2F)

/-! ### Text to digits -/

/-- The values of a text, `none` at the first character outside the alphabet (46_radix.md R230). -/
def textValues (r : Nat) : List Byte → Option (List Nat)
  | [] => some []
  | ch :: rest =>
    match charValue ch r with
    | none => none
    | some v => (textValues r rest).map (v :: ·)

/-- The loop of `horner` (46_radix.md R229) from the accumulator acc. -/
def hornerFrom (B r : Nat) : Magnitude → List Nat → Magnitude
  | acc, [] => acc
  | acc, v :: vs => hornerFrom B r (addMag B (mulDigit B acc r) (digits B v)) vs

/-- `horner(t, r)` on the character values, most significant first (46_radix.md R229). -/
def horner (B r : Nat) (vs : List Nat) : Magnitude := hornerFrom B r [0] vs

/-! ### Digits to text -/

/-- Count of radix-r digits; `fuel` bounds the divisions. -/
def fmtLenAux (r : Nat) : Nat → Nat → Nat
  | 0, _ => 1
  | fuel + 1, v => if v < r then 1 else fmtLenAux r fuel (v / r) + 1

/-- `fmt_len(v, r)`, the number of radix-r digits of v (46_radix.md R232). -/
def fmtLen (r v : Nat) : Nat := fmtLenAux r (bitlen v) v

/-- The loop of `format` (46_radix.md R233): the remainders, least significant first. Each division by r ≥ 2 takes a
bit of the value away, so `bitlen` iterations suffice. -/
def formatLoop (W dt r : Nat) : Nat → Magnitude → Except Trap (List Nat)
  | 0, _ => .ok []
  | fuel + 1, cur => do
    let qr ← divide W dt cur (digits (2 ^ W) r) false
    let v := val (2 ^ W) qr.2
    if qr.1 = [0] then return [v]
    else do
      let rest ← formatLoop W dt r fuel qr.1
      return v :: rest

/-- `format(m, r)` (46_radix.md R233): the characters, most significant first. -/
def formatMag (W dt : Nat) (m : Magnitude) (r : Nat) : Except Trap (List Byte) := do
  let vs ← formatLoop W dt r (bitlen (val (2 ^ W) m) + 1) m
  return vs.reverse.map (outputChar r)

/-! ### Radix inference -/

/-- The character codes of inference (20_memory.md R66): `'0'`. -/
def isZeroChar (ch : Byte) : Bool := ch = 0x30
/-- `'x'` or `'X'` (20_memory.md R66). -/
def isHexMark (ch : Byte) : Bool := ch = 0x78 || ch = 0x58
/-- `'b'` or `'B'` (20_memory.md R66). -/
def isBinMark (ch : Byte) : Bool := ch = 0x62 || ch = 0x42

/-- `infer(t, L)` (46_radix.md R235) on the first min(L, 2) bytes. -/
def infer : List Byte → Nat
  | t0 :: t1 :: _ =>
    if isZeroChar t0 then (if isHexMark t1 then 16 else if isBinMark t1 then 2 else 8) else 10
  | _ => 10

/-- `prefix_len(t, L, r)` (46_radix.md R237). -/
def prefixLen (t : List Byte) (r : Nat) : Nat :=
  if r ≠ infer t then 0 else if infer t = 16 ∨ infer t = 2 then 2 else if infer t = 8 then 1 else 0

/-- The checked read of the first min(L, 2) bytes (46_radix.md R236, R238). -/
def readPrefix (s : State) (addr len : Nat) : Except Trap (List Byte) := do
  checkRange s addr (min len 2)
  return tmemBytes s addr (min len 2)

/-! ### Meanings -/

/-- The body of PARSE after its operands and its range check (46_radix.md R230). -/
def parseText (s : State) (a : MReg) (addr len r : Nat) : Except Trap State :=
  if !legalRadix r then .ok (setPerr s .badRadix)
  else if len = 0 then .ok (setPerr s .empty)
  else
    match textValues r (tmemBytes s addr len) with
    | none => .ok (setPerr s .badChar)
    | some vs => do
      let t ← writeChecked s a (horner s.params.base r vs)
      return setPerr t .none

/-- PARSE (46_radix.md R230). -/
def execParse (a : MReg) (b c d : XReg) (s : State) : Host.Outcome State Fault Refusal :=
  finish s do
    let addr ← readX s b
    let len ← readX s c
    let r ← readX s d
    checkRange s addr.toNat len.toNat
    parseText s a addr.toNat len.toNat r.toNat

/-- The body of FMT after its operands (46_radix.md R234). -/
def formatText (s : State) (a : XReg) (m : Magnitude) (addr r : Nat) : Except Trap State :=
  if !legalRadix r then .ok (setPerr s .badRadix)
  else do
    let len := fmtLen r (val s.params.base m)
    checkRange s addr len
    let text ← formatMag s.params.w s.params.dcThreshold m r
    return setPerr (setX (setBytes s addr text) a (BitVec.ofNat 64 len)) .none

/-- FMT (46_radix.md R234). -/
def execFmt (a : XReg) (b : MReg) (c d : XReg) (s : State) : Host.Outcome State Fault Refusal :=
  finish s do
    let m ← readM s b
    let addr ← readX s c
    let r ← readX s d
    formatText s a m addr.toNat r.toNat

/-- RINF (46_radix.md R236). -/
def execRinf (a b c : XReg) (s : State) : Host.Outcome State Fault Refusal :=
  finish s do
    let addr ← readX s b
    let len ← readX s c
    let t ← readPrefix s addr.toNat len.toNat
    return setX s a (BitVec.ofNat 64 (infer t))

/-- RPFX (46_radix.md R238). -/
def execRpfx (a b c d : XReg) (s : State) : Host.Outcome State Fault Refusal :=
  finish s do
    let addr ← readX s b
    let len ← readX s c
    let r ← readX s d
    let t ← readPrefix s addr.toNat len.toNat
    return setX s a (BitVec.ofNat 64 (prefixLen t r.toNat))

/-- FCVT (46_radix.md R244). -/
def execFcvt (a : MReg) (b : FReg) (s : State) : Host.Outcome State Fault Refusal :=
  finish s do
    let x ← readFloat s b
    writeChecked s a (floatDigits s.params.w x)

/-- FDCNT (46_radix.md R246). -/
def execFdcnt (a : XReg) (b : FReg) (s : State) : Host.Outcome State Fault Refusal :=
  finish s do
    let x ← readFloat s b
    return setX s a (BitVec.ofNat 64 (fdcntValue s.params.w x))

end Sys2Proof.Machine
end

