-- ==== Sys2Proof/Machine/Shift.lean ====
section
/-! DEFINITION. Machine/Shift.lean: the barrel shifter (45_shift.md R210 to R212) and SHL, SHR, SHLI, SHRI. -/

namespace Sys2Proof.Machine

/-- The sub-digit left shift by bt bits with the overflow carried into the next digit and a final overflow digit if
needed (45_shift.md R211). -/
def shlBits (W bt : Nat) : Magnitude → Nat → Magnitude
  | [], carry => if carry = 0 then [] else [carry]
  | t :: ts, carry => (t * 2 ^ bt + carry) % 2 ^ W :: shlBits W bt ts (t / 2 ^ (W - bt))

/-- `shl(m, k)` (45_shift.md R211). -/
def shlMag (W : Nat) (m : Magnitude) (k : Nat) : Magnitude :=
  if m = [0] then [0]
  else zerosThen (sod W k).1 (if (sod W k).2 > 0 then shlBits W (sod W k).2 m 0 else m)

/-- 1 if a left shift by bt bits appends an overflow digit, that is if the top digit has a bit at or above W − bt. -/
def shlOverflow (W : Nat) (m : Magnitude) (bt : Nat) : Nat :=
  if 0 < bt ∧ 2 ^ (W - bt) ≤ digitAt m (m.length - 1) then 1 else 0

/-- The exact length of `shl(m, k)` without building it (45_shift.md R213: "`len(r) = len(m) + dg + (1 if the carry
survives)`"). -/
def shlLength (W : Nat) (m : Magnitude) (k : Nat) : Nat :=
  if m = [0] then 1
  else m.length + (sod W k).1 + shlOverflow W m (sod W k).2

/-- The sub-digit right shift, from the low end (45_shift.md R212). -/
def shrBits (W bt : Nat) : Magnitude → Magnitude
  | [] => []
  | r :: rs => (r / 2 ^ bt + rs.headD 0 * 2 ^ (W - bt) % 2 ^ W) :: shrBits W bt rs

/-- `shr(m, k)` (45_shift.md R212). -/
def shrMag (W : Nat) (m : Magnitude) (k : Nat) : Magnitude :=
  if m = [0] then [0]
  else if m.length ≤ (sod W k).1 then [0]
  else
    let r := m.drop (sod W k).1
    trim (if (sod W k).2 > 0 then shrBits W (sod W k).2 r else r)

/-- Write a left shift; the capacity test is on the exact length (45_shift.md R213). -/
def writeShl (s : State) (a : MReg) (m : Magnitude) (k : Nat) : Except Trap State := do
  checkCapacity s (shlLength s.params.w m k)
  return setM s a (shlMag s.params.w m k)

/-- SHL (45_shift.md R213). -/
def execShl (a b : MReg) (c : XReg) (s : State) : Host.Outcome State Fault Refusal :=
  finish s do
    let m ← readM s b
    let k ← readX s c
    writeShl s a m k.toNat

/-- SHR (45_shift.md R214). -/
def execShr (a b : MReg) (c : XReg) (s : State) : Host.Outcome State Fault Refusal :=
  finish s do
    let m ← readM s b
    let k ← readX s c
    return setM s a (shrMag s.params.w m k.toNat)

/-- SHLI (45_shift.md R215). -/
def execShli (a b : MReg) (imm : BitVec 16) (s : State) : Host.Outcome State Fault Refusal :=
  finish s do
    let m ← readM s b
    writeShl s a m (zextImm imm).toNat

/-- SHRI (45_shift.md R216). -/
def execShri (a b : MReg) (imm : BitVec 16) (s : State) : Host.Outcome State Fault Refusal :=
  finish s do
    let m ← readM s b
    return setM s a (shrMag s.params.w m (zextImm imm).toNat)

end Sys2Proof.Machine
end

