-- ==== Sys2Proof/Machine/Dispatch.lean ====
section
/-! DEFINITION. Machine/Dispatch.lean: one arm per command (30_encoding.md R78), each one call of its meaning. -/

namespace Sys2Proof.Machine

def exec (i : Instr) (s : State) : Host.Outcome State Fault Refusal :=
  match i with
  | .nop => Sys2Proof.Machine.execNop s
  | .halt => Sys2Proof.Machine.execHalt s
  | .br cond off => Sys2Proof.Machine.execBr cond off s
  | .csrr a csr => Sys2Proof.Machine.execCsrr a csr s
  | .li a imm => Sys2Proof.Machine.execLi a imm s
  | .lih a imm => Sys2Proof.Machine.execLih a imm s
  | .xaddi a b imm => Sys2Proof.Machine.execXaddi a b imm s
  | .xcmp b c => Sys2Proof.Machine.execXcmp b c s
  | .mov a b => Sys2Proof.Machine.execMov a b s
  | .mfx a b => Sys2Proof.Machine.execMfx a b s
  | .len a b => Sys2Proof.Machine.execLen a b s
  | .getd a b c => Sys2Proof.Machine.execGetd a b c s
  | .fmvx a b => Sys2Proof.Machine.execFmvx a b s
  | .ldb a b imm => Sys2Proof.Machine.execLdb a b imm s
  | .stb a b imm => Sys2Proof.Machine.execStb a b imm s
  | .digv a b => Sys2Proof.Machine.execDigv a b s
  | .digvf a b => Sys2Proof.Machine.execDigvf a b s
  | .emov a b c => Sys2Proof.Machine.execEmov a b c s
  | .edl a b => Sys2Proof.Machine.execEdl a b s
  | .edm a b => Sys2Proof.Machine.execEdm a b s
  | .edh a b => Sys2Proof.Machine.execEdh a b s
  | .esz a b => Sys2Proof.Machine.execEsz a b s
  | .emb a b => Sys2Proof.Machine.execEmb a b s
  | .emba a b c => Sys2Proof.Machine.execEmba a b c s
  | .emuld a b c => Sys2Proof.Machine.execEmuld a b c s
  | .esub a b c => Sys2Proof.Machine.execEsub a b c s
  | .eshr a b k => Sys2Proof.Machine.execEshr a b k s
  | .ecmp b c => Sys2Proof.Machine.execEcmp b c s
  | .vlo a b => Sys2Proof.Machine.execVlo a b s
  | .vhi a b => Sys2Proof.Machine.execVhi a b s
  | .vsz a b => Sys2Proof.Machine.execVsz a b s
  | .sodd a b => Sys2Proof.Machine.execSodd a b s
  | .sodb a b => Sys2Proof.Machine.execSodb a b s
  | .clz a b => Sys2Proof.Machine.execClz a b s
  | .cmp b c => Sys2Proof.Machine.execCmp b c s
  | .cmpx b c => Sys2Proof.Machine.execCmpx b c s
  | .cmpf b c => Sys2Proof.Machine.execCmpf b c s
  | .add a b c => Sys2Proof.Machine.execAdd a b c s
  | .addx a b c => Sys2Proof.Machine.execAddx a b c s
  | .addf a b c => Sys2Proof.Machine.execAddf a b c s
  | .sub a b c => Sys2Proof.Machine.execSub a b c s
  | .mul a b c => Sys2Proof.Machine.execMul a b c s
  | .mull a b c => Sys2Proof.Machine.execMull a b c s
  | .div a b c d => Sys2Proof.Machine.execDiv a b c d s
  | .divl a b c d => Sys2Proof.Machine.execDivl a b c d s
  | .quo a b c => Sys2Proof.Machine.execQuo a b c s
  | .rem a b c => Sys2Proof.Machine.execRem a b c s
  | .divx a b c d => Sys2Proof.Machine.execDivx a b c d s
  | .shl a b c => Sys2Proof.Machine.execShl a b c s
  | .shr a b c => Sys2Proof.Machine.execShr a b c s
  | .shli a b imm => Sys2Proof.Machine.execShli a b imm s
  | .shri a b imm => Sys2Proof.Machine.execShri a b imm s
  | .parse a b c d => Sys2Proof.Machine.execParse a b c d s
  | .fmt a b c d => Sys2Proof.Machine.execFmt a b c d s
  | .rinf a b c => Sys2Proof.Machine.execRinf a b c s
  | .rpfx a b c d => Sys2Proof.Machine.execRpfx a b c d s
  | .fcvt a b => Sys2Proof.Machine.execFcvt a b s
  | .fdcnt a b => Sys2Proof.Machine.execFdcnt a b s

end Sys2Proof.Machine
end

