-- ==== Sys2Proof/Machine/Step.lean ====
section
/-! DEFINITION. Machine/Step.lean: one step of the core (47_control_move.md R250), and the host's placing of one word
where the core fetches next. -/

namespace Sys2Proof.Machine

/-- One step while RUNNING: fetch, decode, execute (47_control_move.md R250). -/
def runStep (s : State) : Host.Outcome State Fault Refusal :=
  match fetch s with
  | .error t => .next (takeFault s t)
  | .ok w =>
    match decode w with
    | .error _ => .next (takeFault s (.illegal w))
    | .ok i => exec i s

/-- `step(s)` (47_control_move.md R250). "The core fetches and executes only while STATE = RUNNING" (10_state.md R31):
otherwise it does nothing until the host starts it. DESIGN CHOICE (safe), log entry 6: doing nothing is a step. -/
def step (s : State) : Host.Outcome State Fault Refusal :=
  match s.runState with
  | .running => runStep s
  | .idle => .next s
  | .faulted => .next s

/-- A pc inside IMEM: the pc itself, or 0, the conventional entry point (20_memory.md R58). -/
def State.entryPc (s : State) : BitVec 32 := if s.pc.toNat < s.params.imemWords then s.pc else 0

/-- s with the instruction given by the opcode table's bits in IMEM at the pc, and the core started there: the host's
`write_imem` and `start` (60_exceptions.md R299, R301; log entry 7). -/
def State.withFetchWord (s : State) (nbits w : Nat) : State :=
  setRunState (setPc (setImem s s.entryPc.toNat (tableWord nbits w)) s.entryPc) .running

end Sys2Proof.Machine
end

