-- ==== Sys2Proof/Machine/OpcodeTable.lean ====
section
/-! DEFINITION. Machine/OpcodeTable.lean: the mask and match of every command, copied from spec/opcode_table.json
(30_encoding.md R79, R88). The decoder and the encoder are written from the operand usage of R79 and use nothing here:
claims hold the two against each other. -/

namespace Sys2Proof.Machine

/-- A row of the opcode table: a word has the row's form when `(w & mask) = pattern` (30_encoding.md R84). -/
structure OpcodeRow where
  mnemonic : String
  mask : Word
  pattern : Word
  deriving DecidableEq, Repr

/-- Rows: control and data movement (op 0x01 to 0x1A). -/
def opcodeRowsControl : List OpcodeRow := [
  ⟨"NOP", 0xFFFFFFFF, 0x01000000⟩,
  ⟨"HALT", 0xFFFFFFFF, 0x02000000⟩,
  ⟨"BR", 0xFF0F0000, 0x04000000⟩,
  ⟨"CSRR", 0xFF0F0000, 0x05000000⟩,
  ⟨"LI", 0xFF0F0000, 0x10000000⟩,
  ⟨"LIH", 0xFF0F0000, 0x11000000⟩,
  ⟨"XADDI", 0xFF000000, 0x12000000⟩,
  ⟨"XCMP", 0xFFF00FFF, 0x13000000⟩,
  ⟨"MOV", 0xFF00FFFF, 0x14000000⟩,
  ⟨"MFX", 0xFF00FFFF, 0x15000000⟩,
  ⟨"LEN", 0xFF00FFFF, 0x16000000⟩,
  ⟨"GETD", 0xFF000FFF, 0x17000000⟩,
  ⟨"FMVX", 0xFF00FFFF, 0x18000000⟩,
  ⟨"LDB", 0xFF000000, 0x19000000⟩,
  ⟨"STB", 0xFF000000, 0x1A000000⟩]

/-- Rows: digit primitives and accumulator (op 0x20 to 0x36). -/
def opcodeRowsDigit : List OpcodeRow := [
  ⟨"DIGV", 0xFF00FFFF, 0x20000000⟩,
  ⟨"DIGVF", 0xFF00FFFF, 0x21000000⟩,
  ⟨"EMOV", 0xFF000FFF, 0x22000000⟩,
  ⟨"EDL", 0xFF00FFFF, 0x23000000⟩,
  ⟨"EDM", 0xFF00FFFF, 0x24000000⟩,
  ⟨"EDH", 0xFF00FFFF, 0x25000000⟩,
  ⟨"ESZ", 0xFF00FFFF, 0x26000000⟩,
  ⟨"EMB", 0xFF00FFFF, 0x27000000⟩,
  ⟨"EMBA", 0xFF000FFF, 0x28000000⟩,
  ⟨"EMULD", 0xFF000FFF, 0x29000000⟩,
  ⟨"ESUB", 0xFF000FFF, 0x2A000000⟩,
  ⟨"ESHR", 0xFF00FF00, 0x2B000000⟩,
  ⟨"ECMP", 0xFFF00FFF, 0x2C000000⟩,
  ⟨"VLO", 0xFF00FFFF, 0x30000000⟩,
  ⟨"VHI", 0xFF00FFFF, 0x31000000⟩,
  ⟨"VSZ", 0xFF00FFFF, 0x32000000⟩,
  ⟨"SODD", 0xFF00FFFF, 0x34000000⟩,
  ⟨"SODB", 0xFF00FFFF, 0x35000000⟩,
  ⟨"CLZ", 0xFF00FFFF, 0x36000000⟩]

/-- Rows: comparison, addition, multiplication, division (op 0x40 to 0x5C). -/
def opcodeRowsArith : List OpcodeRow := [
  ⟨"CMP", 0xFFF00FFF, 0x40000000⟩,
  ⟨"CMPX", 0xFFF00FFF, 0x41000000⟩,
  ⟨"CMPF", 0xFFF00FFF, 0x42000000⟩,
  ⟨"ADD", 0xFF000FFF, 0x48000000⟩,
  ⟨"ADDX", 0xFF000FFF, 0x49000000⟩,
  ⟨"ADDF", 0xFF000FFF, 0x4A000000⟩,
  ⟨"SUB", 0xFF000FFF, 0x4B000000⟩,
  ⟨"MUL", 0xFF000FFF, 0x50000000⟩,
  ⟨"MULL", 0xFF000FFF, 0x51000000⟩,
  ⟨"DIV", 0xFF0000FF, 0x58000000⟩,
  ⟨"DIVL", 0xFF0000FF, 0x59000000⟩,
  ⟨"QUO", 0xFF000FFF, 0x5A000000⟩,
  ⟨"REM", 0xFF000FFF, 0x5B000000⟩,
  ⟨"DIVX", 0xFF0000FF, 0x5C000000⟩,
  ⟨"SHL", 0xFF000FFF, 0x60000000⟩]

/-- Rows: shifts and radix conversion (op 0x60 to 0x6D). -/
def opcodeRowsRadix : List OpcodeRow := [
  ⟨"SHR", 0xFF000FFF, 0x61000000⟩,
  ⟨"SHLI", 0xFF000000, 0x62000000⟩,
  ⟨"SHRI", 0xFF000000, 0x63000000⟩,
  ⟨"PARSE", 0xFF0000FF, 0x68000000⟩,
  ⟨"FMT", 0xFF0000FF, 0x69000000⟩,
  ⟨"RINF", 0xFF000FFF, 0x6A000000⟩,
  ⟨"RPFX", 0xFF0000FF, 0x6B000000⟩,
  ⟨"FCVT", 0xFF00FFFF, 0x6C000000⟩,
  ⟨"FDCNT", 0xFF00FFFF, 0x6D000000⟩]

/-- The opcode table. -/
def opcodeRows : List OpcodeRow := opcodeRowsControl ++ opcodeRowsDigit ++ opcodeRowsArith ++ opcodeRowsRadix

/-- Has the word the form of the row? -/
def OpcodeRow.matches (row : OpcodeRow) (w : Word) : Bool := w &&& row.mask = row.pattern

/-- The extra decode conditions of 30_encoding.md R80 (3), (4), (5), on the bits: BR with cond 0 to 8, CSRR of a CSR
number of 10_state.md R32, DIV and DIVL with a different from d. -/
def extraConditions (w : Word) : Bool :=
  let op := w.toNat / 2 ^ 24
  let fieldA := w.toNat / 2 ^ 20 % 2 ^ 4
  let fieldD := w.toNat / 2 ^ 8 % 2 ^ 4
  let imm16 := w.toNat % 2 ^ 16
  if op = 0x04 then fieldA ≤ 8
  else if op = 0x05 then imm16 ≤ 0x004 || (0x010 ≤ imm16 && imm16 ≤ 0x018)
  else if op = 0x58 || op = 0x59 then fieldA ≠ fieldD
  else true

/-- The mnemonic of a command's row. -/
def mnemonicOf : Instr → String
  | .nop => "NOP"
  | .halt => "HALT"
  | .br _ _ => "BR"
  | .csrr _ _ => "CSRR"
  | .li _ _ => "LI"
  | .lih _ _ => "LIH"
  | .xaddi _ _ _ => "XADDI"
  | .xcmp _ _ => "XCMP"
  | .mov _ _ => "MOV"
  | .mfx _ _ => "MFX"
  | .len _ _ => "LEN"
  | .getd _ _ _ => "GETD"
  | .fmvx _ _ => "FMVX"
  | .ldb _ _ _ => "LDB"
  | .stb _ _ _ => "STB"
  | .digv _ _ => "DIGV"
  | .digvf _ _ => "DIGVF"
  | .emov _ _ _ => "EMOV"
  | .edl _ _ => "EDL"
  | .edm _ _ => "EDM"
  | .edh _ _ => "EDH"
  | .esz _ _ => "ESZ"
  | .emb _ _ => "EMB"
  | .emba _ _ _ => "EMBA"
  | .emuld _ _ _ => "EMULD"
  | .esub _ _ _ => "ESUB"
  | .eshr _ _ _ => "ESHR"
  | .ecmp _ _ => "ECMP"
  | .vlo _ _ => "VLO"
  | .vhi _ _ => "VHI"
  | .vsz _ _ => "VSZ"
  | .sodd _ _ => "SODD"
  | .sodb _ _ => "SODB"
  | .clz _ _ => "CLZ"
  | .cmp _ _ => "CMP"
  | .cmpx _ _ => "CMPX"
  | .cmpf _ _ => "CMPF"
  | .add _ _ _ => "ADD"
  | .addx _ _ _ => "ADDX"
  | .addf _ _ _ => "ADDF"
  | .sub _ _ _ => "SUB"
  | .mul _ _ _ => "MUL"
  | .mull _ _ _ => "MULL"
  | .div _ _ _ _ => "DIV"
  | .divl _ _ _ _ => "DIVL"
  | .quo _ _ _ => "QUO"
  | .rem _ _ _ => "REM"
  | .divx _ _ _ _ => "DIVX"
  | .shl _ _ _ => "SHL"
  | .shr _ _ _ => "SHR"
  | .shli _ _ _ => "SHLI"
  | .shri _ _ _ => "SHRI"
  | .parse _ _ _ _ => "PARSE"
  | .fmt _ _ _ _ => "FMT"
  | .rinf _ _ _ => "RINF"
  | .rpfx _ _ _ _ => "RPFX"
  | .fcvt _ _ => "FCVT"
  | .fdcnt _ _ => "FDCNT"

end Sys2Proof.Machine
end

