-- ==== Sys2Proof/Machine/HostPort.lean ====
section
/-! DEFINITION. Machine/HostPort.lean: the host's operations (60_exceptions.md R296 to R302). They stand beside `step`,
which is the core's move: the host acts between two steps (70_reset_and_hazards.md R320, R321). -/

namespace Sys2Proof.Machine

/-- A register's value with its file (60_exceptions.md R298). -/
inductive RegValue where
  | x (v : Native)
  | m (v : Magnitude)
  | e (v : Nat)
  | f (v : Native)
  deriving DecidableEq, Repr

/-- The host operations of 60_exceptions.md R296. A CSR is read by its 16-bit number (10_state.md R32), any number; what
a number of no CSR gives is the model's choice, log entry 8. -/
inductive HostOp where
  | reset
  | writeReg (i : BitVec 4) (v : RegValue)
  | writeImem (i : Nat) (w : Word)
  | writeTmem (addr : Nat) (byte : Byte)
  | start (pc : Nat)
  | readReg (file : RegFile) (i : BitVec 4)
  | readCsr (n : BitVec 16)
  | readImem (i : Nat)
  | readTmem (addr : Nat)
  deriving DecidableEq, Repr

/-- What an operation returns; an operation that is not allowed returns nothing (60_exceptions.md R296, R302). -/
inductive HostReply where
  | refused
  | done
  | reg (v : Option RegValue)
  | csr (v : BitVec 64)
  | word (w : Word)
  | byte (b : Byte)
  deriving DecidableEq, Repr

/-- `reset` (60_exceptions.md R297, 70_reset_and_hazards.md R310, R311): the reset state with the same parameters,
memory contents unspecified anew (R312, log entry 4). -/
def hostReset (s : State) : State := State.resetWith s.params (s.memEpoch + 1)

/-- May the host write this value into a register (60_exceptions.md R298)? -/
def regValueAllowed (s : State) : RegValue → Bool
  | .x _ => true
  | .m v => canonical s.params.base v && s.params.fits v.length
  | .e v => v < s.params.base ^ 3
  | .f _ => true

/-- Write a register value into its file. -/
def setReg (s : State) (i : BitVec 4) : RegValue → State
  | .x v => setX s i v
  | .m v => setM s i v
  | .e v => setE s i v
  | .f v => setF s i v

/-- Read a register of a file, `none` if it holds no value (60_exceptions.md R300). -/
def getReg (s : State) (i : BitVec 4) : RegFile → Option RegValue
  | .x => (getX s i).map .x
  | .m => (getM s i).map .m
  | .e => (getE s i).map .e
  | .f => (getF s i).map .f

/-- An operation allowed under a condition, else refused with no effect (60_exceptions.md R302). -/
def allowedIf (cond : Bool) (s : State) (r : State × HostReply) : State × HostReply :=
  if cond then r else (s, .refused)

/-- `write_reg(file, i, v)` (60_exceptions.md R298). -/
def hostWriteReg (s : State) (i : BitVec 4) (v : RegValue) : State × HostReply :=
  allowedIf (regValueAllowed s v) s (setReg s i v, .done)

/-- `write_imem(i, w)` (60_exceptions.md R299). -/
def hostWriteImem (s : State) (i : Nat) (w : Word) : State × HostReply :=
  allowedIf (i < s.params.imemWords) s (setImem s i w, .done)

/-- `write_tmem(addr, byte)` (60_exceptions.md R299). -/
def hostWriteTmem (s : State) (addr : Nat) (byte : Byte) : State × HostReply :=
  allowedIf (addr < s.params.tmemSize) s (setBytes s addr [byte], .done)

/-- `read_csr(n)` (60_exceptions.md R300): STATUS reads the true STATE. DESIGN CHOICE (safe), log entry 8: the number of
no CSR is refused; 10_state.md R32 makes it ILLEGAL for CSRR only, and R296 and R300 do not speak of it. -/
def hostReadCsr (s : State) (n : BitVec 16) : State × HostReply :=
  match csrOf n with
  | some csr => (s, .csr (csrValue s csr))
  | none => (s, .refused)

/-- `read_imem(i)` (60_exceptions.md R300). DESIGN CHOICE (safe), log entry 8: an index out of range is refused. -/
def hostReadImem (s : State) (i : Nat) : State × HostReply :=
  allowedIf (i < s.params.imemWords) s (s, .word (imemWord s i))

/-- `read_tmem(addr)` (60_exceptions.md R300). DESIGN CHOICE (safe), log entry 8: an address out of range is refused. -/
def hostReadTmem (s : State) (addr : Nat) : State × HostReply :=
  allowedIf (addr < s.params.tmemSize) s (s, .byte (tmemByte s addr))

/-- `start(pc0)` (60_exceptions.md R301), which from FAULTED is the return from a fault (R288). -/
def hostStart (s : State) (pc0 : Nat) : State := setRunState (setPc s (BitVec.ofNat 32 pc0)) .running

/-- Is an operation allowed now: always for `reset` and the STATUS poll, else only while STATE is not RUNNING
(60_exceptions.md R296, 90_conflicts.md C7)? -/
def hostAllowed (s : State) : HostOp → Bool
  | .reset => true
  | .readCsr n => n = 0 || s.runState ≠ .running
  | _ => s.runState ≠ .running

/-- The effect of an operation that is allowed (60_exceptions.md R297 to R301). -/
def hostEffect (s : State) : HostOp → State × HostReply
  | .reset => (hostReset s, .done)
  | .writeReg i v => hostWriteReg s i v
  | .writeImem i w => hostWriteImem s i w
  | .writeTmem addr byte => hostWriteTmem s addr byte
  | .start pc0 => (hostStart s pc0, .done)
  | .readReg file i => (s, .reg (getReg s i file))
  | .readCsr n => hostReadCsr s n
  | .readImem i => hostReadImem s i
  | .readTmem addr => hostReadTmem s addr

/-- One host operation (60_exceptions.md R296): refused, with no effect, when it is not allowed. -/
def hostMove (op : HostOp) (s : State) : State × HostReply := allowedIf (hostAllowed s op) s (hostEffect s op)

/-- A move of either agent (00_scope.md R2). -/
inductive Agent where
  | core
  | host (op : HostOp)
  deriving DecidableEq, Repr

/-- One move of the whole machine: a step of the core or an operation of the host, between steps
(70_reset_and_hazards.md R320, R321). -/
def move (agent : Agent) (s : State) : Host.Outcome State Fault Refusal :=
  match agent with
  | .core => step s
  | .host op => .next (hostMove op s).1

end Sys2Proof.Machine
end

