-- ==== Sys2Proof/Machine/Pseudo.lean ====
section
/-! DEFINITION. Machine/Pseudo.lean: the pseudo-instructions of 30_encoding.md R87, as the commands they stand for. They
are spellings only: nothing decodes to them. -/

namespace Sys2Proof.Machine

/-- `J label`: BAL. -/
def pseudoJ (off : BitVec 16) : List Instr := [.br .al off]
/-- `LI64 xa, v`: the four 16-bit groups, highest first, with no leading LIH dropped. -/
def pseudoLi64 (a : XReg) (v : Native) : List Instr :=
  [.li a (v.extractLsb' 48 16), .lih a (v.extractLsb' 32 16), .lih a (v.extractLsb' 16 16), .lih a (v.extractLsb' 0 16)]
/-- `MOVX xa, xb`. -/
def pseudoMovx (a b : XReg) : List Instr := [.xaddi a b 0]
/-- `INC xa`. -/
def pseudoInc (a : XReg) : List Instr := [.xaddi a a 1]
/-- `DEC xa`. -/
def pseudoDec (a : XReg) : List Instr := [.xaddi a a (-1)]
/-- `ADD.I ma, mc`. -/
def pseudoAddI (a c : MReg) : List Instr := [.add a a c]
/-- `SUB.I ma, mc`. -/
def pseudoSubI (a c : MReg) : List Instr := [.sub a a c]

/-- Commands executed one after another, stopping at the first outcome that is no next state. -/
def execAll : List Instr → State → Host.Outcome State Fault Refusal
  | [], s => .next s
  | i :: is, s =>
    match exec i s with
    | .next t => execAll is t
    | .fault r => .fault r
    | .refused r => .refused r

end Sys2Proof.Machine
end

