-- ==== Sys2Proof/Safety.lean ====
section
/-! DEFINITION. Safety.lean: the terms claims are written in: the invariant of the machine, which registers a command
reads and writes (30_encoding.md R79), and what a completing command leaves as it was. -/

namespace Sys2Proof.Machine

/-! ### Invariants -/

/-- What holds of every state a run reaches: legal parameters (00_scope.md R5), canonical magnitudes of at most MAXLEN
digits (10_state.md R22), accumulators in [0, B^3) (R23), both memories in canonical form and inside their address
space (20_memory.md R50). -/
structure Inv (s : State) : Prop where
  params : s.params.Legal
  magnitudes : ∀ r m, getM s r = some m → canonical s.params.base m = true ∧ s.params.fits m.length = true
  accumulators : ∀ r v, getE s r = some v → v < s.params.base ^ 3
  tmem : Memory.wf s.tmem
  tmemRange : ∀ c ∈ s.tmem, c.1 < s.params.tmemSize
  imem : Memory.wf s.imem
  imemRange : ∀ c ∈ s.imem, c.1 < s.params.imemWords

/-- The fault record (10_state.md R35, R36): a code of 60_exceptions.md R282, all zero while there has been no fault,
and, while FAULTED, the record of the fault at the pc. -/
structure RecordOk (s : State) : Prop where
  code : s.faultCause.toNat ≤ 8
  clear : s.faultCause = 0 → s.faultPc = 0 ∧ s.faultInfo = 0
  faulted : s.runState = .faulted → s.faultCause ≠ 0 ∧ s.faultPc = s.pc

/-! ### Operand usage -/

/-- The registers a command reads, in the order UNINIT is raised: fields b, c, d, a (30_encoding.md R79,
60_exceptions.md R286). -/
def readsOf : Instr → List (RegFile × BitVec 4)
  | .nop => []
  | .halt => []
  | .br _ _ => []
  | .csrr _ _ => []
  | .li _ _ => []
  | .lih a _ => [(.x, a)]
  | .xaddi _ b _ => [(.x, b)]
  | .xcmp b c => [(.x, b), (.x, c)]
  | .mov _ b => [(.m, b)]
  | .mfx _ b => [(.x, b)]
  | .len _ b => [(.m, b)]
  | .getd _ b c => [(.m, b), (.x, c)]
  | .fmvx _ b => [(.x, b)]
  | .ldb _ b _ => [(.x, b)]
  | .stb a b _ => [(.x, b), (.x, a)]
  | .digv _ b => [(.x, b)]
  | .digvf _ b => [(.f, b)]
  | .emov _ b c => [(.x, b), (.x, c)]
  | .edl _ b => [(.e, b)]
  | .edm _ b => [(.e, b)]
  | .edh _ b => [(.e, b)]
  | .esz _ b => [(.e, b)]
  | .emb _ b => [(.e, b)]
  | .emba _ b c => [(.e, b), (.x, c)]
  | .emuld _ b c => [(.e, b), (.x, c)]
  | .esub _ b c => [(.e, b), (.e, c)]
  | .eshr _ b _ => [(.e, b)]
  | .ecmp b c => [(.e, b), (.e, c)]
  | .vlo _ b => [(.x, b)]
  | .vhi _ b => [(.x, b)]
  | .vsz _ b => [(.x, b)]
  | .sodd _ b => [(.x, b)]
  | .sodb _ b => [(.x, b)]
  | .clz _ b => [(.x, b)]
  | .cmp b c => [(.m, b), (.m, c)]
  | .cmpx b c => [(.m, b), (.x, c)]
  | .cmpf b c => [(.m, b), (.f, c)]
  | .add _ b c => [(.m, b), (.m, c)]
  | .addx _ b c => [(.m, b), (.x, c)]
  | .addf _ b c => [(.m, b), (.f, c)]
  | .sub _ b c => [(.m, b), (.m, c)]
  | .mul _ b c => [(.m, b), (.m, c)]
  | .mull _ b c => [(.m, b), (.m, c)]
  | .div _ b c _ => [(.m, b), (.m, c)]
  | .divl _ b c _ => [(.m, b), (.m, c)]
  | .quo _ b c => [(.m, b), (.m, c)]
  | .rem _ b c => [(.m, b), (.m, c)]
  | .divx _ b c _ => [(.m, b), (.x, c)]
  | .shl _ b c => [(.m, b), (.x, c)]
  | .shr _ b c => [(.m, b), (.x, c)]
  | .shli _ b _ => [(.m, b)]
  | .shri _ b _ => [(.m, b)]
  | .parse _ b c d => [(.x, b), (.x, c), (.x, d)]
  | .fmt _ b c d => [(.m, b), (.x, c), (.x, d)]
  | .rinf _ b c => [(.x, b), (.x, c)]
  | .rpfx _ b c d => [(.x, b), (.x, c), (.x, d)]
  | .fcvt _ b => [(.f, b)]
  | .fdcnt _ b => [(.f, b)]

/-- The registers a command may write (30_encoding.md R79, 10_state.md R26). -/
def writesOf : Instr → List (RegFile × BitVec 4)
  | .nop => []
  | .halt => []
  | .br _ _ => []
  | .csrr a _ => [(.x, a)]
  | .li a _ => [(.x, a)]
  | .lih a _ => [(.x, a)]
  | .xaddi a _ _ => [(.x, a)]
  | .xcmp _ _ => []
  | .mov a _ => [(.m, a)]
  | .mfx a _ => [(.m, a)]
  | .len a _ => [(.x, a)]
  | .getd a _ _ => [(.x, a)]
  | .fmvx a _ => [(.f, a)]
  | .ldb a _ _ => [(.x, a)]
  | .stb _ _ _ => []
  | .digv a _ => [(.x, a)]
  | .digvf a _ => [(.x, a)]
  | .emov a _ _ => [(.e, a)]
  | .edl a _ => [(.x, a)]
  | .edm a _ => [(.x, a)]
  | .edh a _ => [(.x, a)]
  | .esz a _ => [(.x, a)]
  | .emb a _ => [(.e, a)]
  | .emba a _ _ => [(.e, a)]
  | .emuld a _ _ => [(.e, a)]
  | .esub a _ _ => [(.e, a)]
  | .eshr a _ _ => [(.e, a)]
  | .ecmp _ _ => []
  | .vlo a _ => [(.x, a)]
  | .vhi a _ => [(.x, a)]
  | .vsz a _ => [(.x, a)]
  | .sodd a _ => [(.x, a)]
  | .sodb a _ => [(.x, a)]
  | .clz a _ => [(.x, a)]
  | .cmp _ _ => []
  | .cmpx _ _ => []
  | .cmpf _ _ => []
  | .add a _ _ => [(.m, a)]
  | .addx a _ _ => [(.m, a)]
  | .addf a _ _ => [(.m, a)]
  | .sub a _ _ => [(.m, a)]
  | .mul a _ _ => [(.m, a)]
  | .mull a _ _ => [(.m, a)]
  | .div a _ _ d => [(.m, a), (.m, d)]
  | .divl a _ _ d => [(.m, a), (.m, d)]
  | .quo a _ _ => [(.m, a)]
  | .rem a _ _ => [(.m, a)]
  | .divx a _ _ d => [(.m, a), (.x, d)]
  | .shl a _ _ => [(.m, a)]
  | .shr a _ _ => [(.m, a)]
  | .shli a _ _ => [(.m, a)]
  | .shri a _ _ => [(.m, a)]
  | .parse a _ _ _ => [(.m, a)]
  | .fmt a _ _ _ => [(.x, a)]
  | .rinf a _ _ => [(.x, a)]
  | .rpfx a _ _ _ => [(.x, a)]
  | .fcvt a _ => [(.m, a)]
  | .fdcnt a _ => [(.x, a)]

/-- Does the register hold no value (10_state.md R25)? -/
def unwritten (s : State) : RegFile × BitVec 4 → Bool
  | (.x, r) => getX s r = none
  | (.m, r) => getM s r = none
  | (.e, r) => getE s r = none
  | (.f, r) => getF s r = none

/-- The commands that write FLAGS.SGN (10_state.md R29). -/
def writesSgn : Instr → Bool
  | .sub _ _ _ | .cmp _ _ | .cmpx _ _ | .cmpf _ _ | .ecmp _ _ | .xcmp _ _ => true
  | _ => false

/-- The commands that write FLAGS.PERR (10_state.md R30). -/
def writesPerr : Instr → Bool
  | .parse _ _ _ _ | .fmt _ _ _ _ => true
  | _ => false

/-- The TMEM bytes a command may store to, as address and count (20_memory.md R55): STB one byte at
`X[b] + sext_16(imm16)`, FMT the output length from `X[c]`; every other command none. -/
def storeRange (i : Instr) (s : State) : Nat × Nat :=
  match i with
  | .stb _ b imm => ((byteAddress ((getX s b).getD 0) imm).toNat, 1)
  | .fmt _ b c d =>
    (((getX s c).getD 0).toNat, fmtLen ((getX s d).getD 0).toNat (val s.params.base ((getM s b).getD [0])))
  | _ => (0, 0)

/-! ### Words by their bits (30_encoding.md R71) -/

/-- The word of format N or R whose fields are these: op [31:24], a [23:20], b [19:16], c [15:12], d [11:8], imm8 [7:0]. -/
def wordR (op : Nat) (a b c d : BitVec 4) (imm8 : BitVec 8) : Word :=
  BitVec.ofNat 32 (op * 2 ^ 24 + a.toNat * 2 ^ 20 + b.toNat * 2 ^ 16 + c.toNat * 2 ^ 12 + d.toNat * 2 ^ 8 + imm8.toNat)

/-- The word of format B or I whose fields are these: op [31:24], a or cond [23:20], b [19:16], imm16 [15:0]. -/
def wordI (op : Nat) (a b : BitVec 4) (imm16 : BitVec 16) : Word :=
  BitVec.ofNat 32 (op * 2 ^ 24 + a.toNat * 2 ^ 20 + b.toNat * 2 ^ 16 + imm16.toNat)

/-- The word is the command: it decodes to it, and is its encoding. -/
structure Encoded (w : Word) (i : Instr) : Prop where
  decodes : decode w = .ok i
  encodes : encode i = w

/-! ### Frames -/

/-- Every register but the listed ones is unchanged. -/
structure Frame (xs : List XReg) (ms : List MReg) (es : List EReg) (fs : List FReg) (s t : State) : Prop where
  x : ∀ r, r ∉ xs → getX t r = getX s r
  m : ∀ r, r ∉ ms → getM t r = getM s r
  e : ∀ r, r ∉ es → getE t r = getE s r
  f : ∀ r, r ∉ fs → getF t r = getF s r

/-- Both flags are unchanged (10_state.md R28). -/
structure KeepsFlags (s t : State) : Prop where
  sgn : t.sgn = s.sgn
  perr : t.perr = s.perr

/-- Every TMEM byte is unchanged. -/
def KeepsTmem (s t : State) : Prop := ∀ addr, tmemByte t addr = tmemByte s addr

/-- Every TMEM byte outside the `n` bytes from `addr` is unchanged. -/
def KeepsTmemOutside (addr n : Nat) (s t : State) : Prop :=
  ∀ a, (a < addr ∨ addr + n ≤ a) → tmemByte t a = tmemByte s a

/-- The fault record is unchanged. -/
structure KeepsRecord (s t : State) : Prop where
  cause : t.faultCause = s.faultCause
  pc : t.faultPc = s.faultPc
  info : t.faultInfo = s.faultInfo

/-- What no command changes: the parameters and IMEM (20_memory.md R64). -/
structure KeepsCode (s t : State) : Prop where
  params : t.params = s.params
  epoch : t.memEpoch = s.memEpoch
  imem : ∀ i, imemWord t i = imemWord s i

/-- What no host write changes: the pc, the flags, STATE, the fault record and the parameters (60_exceptions.md R298). -/
structure HostKeeps (s t : State) : Prop where
  pc : t.pc = s.pc
  runState : t.runState = s.runState
  flags : KeepsFlags s t
  record : KeepsRecord s t
  params : t.params = s.params
  epoch : t.memEpoch = s.memEpoch

/-- Every IMEM word is unchanged. -/
def KeepsImem (s t : State) : Prop := ∀ j, imemWord t j = imemWord s j

/-- The pc advances; STATE, the fault record, the parameters and IMEM are unchanged. -/
structure Advances (s t : State) : Prop where
  pc : t.pc = s.pc + 1
  runState : t.runState = s.runState
  record : KeepsRecord s t
  code : KeepsCode s t

/-- X[r] holds the number n. -/
def HasX (t : State) (r : XReg) (n : Nat) : Prop := ∃ v, getX t r = some v ∧ v.toNat = n

/-- The command completes: it answers a next state, with the pc advanced, of which `post` holds. -/
def Completes (i : Instr) (s : State) (post : State → Prop) : Prop :=
  ∃ t, exec i s = .next t ∧ Advances s t ∧ post t

/-- The command writes the number n to X[a] and nothing else. -/
def CompletesX (i : Instr) (s : State) (a : XReg) (n : Nat) : Prop :=
  Completes i s fun t => HasX t a n ∧ Frame [a] [] [] [] s t ∧ KeepsFlags s t ∧ KeepsTmem s t

/-- The command writes the magnitude v to M[a] and nothing else. -/
def CompletesM (i : Instr) (s : State) (a : MReg) (v : Magnitude) : Prop :=
  Completes i s fun t => getM t a = some v ∧ Frame [] [a] [] [] s t ∧ KeepsFlags s t ∧ KeepsTmem s t

/-- The command writes the accumulator value v to E[a] and nothing else. -/
def CompletesE (i : Instr) (s : State) (a : EReg) (v : Nat) : Prop :=
  Completes i s fun t => getE t a = some v ∧ Frame [] [] [a] [] s t ∧ KeepsFlags s t ∧ KeepsTmem s t

/-- The command writes the sign v to FLAGS.SGN and nothing else. -/
def CompletesSgn (i : Instr) (s : State) (v : Sign) : Prop :=
  Completes i s fun t => t.sgn = v ∧ t.perr = s.perr ∧ Frame [] [] [] [] s t ∧ KeepsTmem s t

/-- The command raises the fault: fault entry from s, and nothing else (60_exceptions.md R285, R287). -/
def Raises (i : Instr) (s : State) (e : Trap) : Prop := exec i s = .next (takeFault s e)

/-- The command raises UNINIT for the first of the listed registers that holds no value (10_state.md R25,
60_exceptions.md R286). -/
def RaisesUninit (i : Instr) (s : State) (reads : List (RegFile × BitVec 4)) : Prop :=
  ∀ p, reads.find? (unwritten s) = some p → Raises i s (.uninit p.1 p.2)

/-- The command writes a checked magnitude result v to M[a]: it completes when v has at most MAXLEN digits, and raises
CAPACITY with the length of v otherwise (60_exceptions.md R282, R284). -/
structure WritesChecked (i : Instr) (s : State) (a : MReg) (v : Magnitude) : Prop where
  completes : s.params.fits v.length = true → CompletesM i s a v
  capacity : s.params.fits v.length = false → Raises i s (.capacity v.length)

/-- The value a command reads from a CSR as a number (10_state.md R33 to R39): STATUS is RUNNING, FLAGS is
`PERR·4 + (SGN mod 4)` (47_control_move.md R254). -/
def csrNumber (s : State) : Csr → Nat
  | .status => 1
  | .flags =>
    4 * (match s.perr with | .none => 0 | .badRadix => 1 | .badChar => 2 | .empty => 3) +
      (match s.sgn with | .zero => 0 | .positive => 1 | .negative => 3)
  | .faultCause => s.faultCause.toNat
  | .faultPc => s.faultPc.toNat
  | .faultInfo => s.faultInfo.toNat
  | .cfgW => s.params.w
  | .cfgA => s.params.a
  | .cfgN => 64
  | .cfgKt => s.params.karatsubaThreshold
  | .cfgDt => s.params.dcThreshold
  | .cfgMaxLen => s.params.maxLen.getD 0
  | .cfgTmemSize => s.params.tmemSize
  | .cfgImemWords => s.params.imemWords
  | .cfgId => 0x7A570001

/-- The value the host reads from a CSR while the core is not running: STATUS shows the true STATE, 0 for IDLE and 2 for
FAULTED (10_state.md R31, R33, 60_exceptions.md R300); the others are as the core reads them. -/
def stoppedCsrNumber (s : State) (csr : Csr) : Nat :=
  if csr = .status then (if s.runState = .faulted then 2 else 0) else csrNumber s csr

/-- The state under other thresholds (00_scope.md R7). -/
def withThresholds (kt dt : Nat) (s : State) : State :=
  { s with params := { s.params with karatsubaThreshold := kt, dcThreshold := dt } }

/-- An outcome with its next state changed. -/
def mapNext (g : State → State) : Host.Outcome State Fault Refusal → Host.Outcome State Fault Refusal
  | .next t => .next (g t)
  | .fault r => .fault r
  | .refused r => .refused r

/-! ### Float values as rationals -/

/-- The value of a binary64 pattern as a rational number, `none` for NaN and the infinities (46_radix.md R239). -/
def floatRat (bits : Native) : Option ℚ :=
  let sign : ℚ := if bits.toNat / 2 ^ 63 = 1 then -1 else 1
  let e : ℕ := bits.toNat / 2 ^ 52 % 2 ^ 11
  let f : ℕ := bits.toNat % 2 ^ 52
  if e = 2047 then none
  else if e = 0 then some (sign * f * (2 : ℚ) ^ (-1074 : ℤ))
  else some (sign * ((2 ^ 52 + f : ℕ) : ℚ) * (2 : ℚ) ^ ((e : ℤ) - 1075))

/-- n is the digit-count estimate of x (46_radix.md R245): 0 below 1; with e the integer such that 2^e ≤ x < 2^(e+1),
`ceil(e / W)` when x = 2^e and `e div W + 1` otherwise. -/
structure IsDigitEstimate (W : ℕ) (x : ℚ) (n : ℕ) : Prop where
  small : x < 1 → n = 0
  power : ∀ e : ℕ, x = 2 ^ e → n = ⌈(e : ℚ) / W⌉₊
  between : ∀ e : ℕ, 2 ^ e < x → x < 2 ^ (e + 1) → n = e / W + 1

/-! ### Texts -/

/-- The alphabet of radix ≤ 36 in lower and in upper case (46_radix.md R226, R231). -/
def lowerAlphabet : List Char := "0123456789abcdefghijklmnopqrstuvwxyz".toList
/-- See `lowerAlphabet`. -/
def upperAlphabet : List Char := "0123456789ABCDEFGHIJKLMNOPQRSTUVWXYZ".toList
/-- The alphabet of radix 37 to 64 (46_radix.md R227, R231). -/
def wideAlphabet : List Char := "ABCDEFGHIJKLMNOPQRSTUVWXYZabcdefghijklmnopqrstuvwxyz0123456789+/".toList

/-- The byte is the character at index v of the alphabet (20_memory.md R66: ASCII). -/
def IsCharAt (alphabet : List Char) (v : Nat) (ch : Byte) : Prop := (alphabet[v]?).map Char.toNat = some ch.toNat

/-- L is the number of radix-r digits of v (46_radix.md R232): 1 for 0, else the least L with r^L > v. -/
def IsTextLength (r v L : Nat) : Prop :=
  if v = 0 then L = 1 else v < r ^ L ∧ ∀ k, v < r ^ k → L ≤ k

/-- `infer(t, L)` on the first two bytes of the text (46_radix.md R235). -/
def inferred (t0 t1 : Byte) (L : Nat) : Nat :=
  if 2 ≤ L ∧ t0 = 0x30 ∧ (t1 = 0x78 ∨ t1 = 0x58) then 16
  else if 2 ≤ L ∧ t0 = 0x30 ∧ (t1 = 0x62 ∨ t1 = 0x42) then 2
  else if 2 ≤ L ∧ t0 = 0x30 then 8
  else 10

/-- `prefix_len(t, L, r)` for the inferred radix i (46_radix.md R237). -/
def matchedPrefix (i r : Nat) : Nat :=
  if r ≠ i then 0 else if i = 16 ∨ i = 2 then 2 else if i = 8 then 1 else 0

/-- The number a list of radix-r digit values writes, most significant first (46_radix.md R229: Σ v_i · r^(L−1−i)). -/
def textNumber (r : Nat) (vs : List Nat) : Nat := vs.foldl (fun acc v => acc * r + v) 0

end Sys2Proof.Machine
end

