-- ==== Sys2Proof/Certificates/Slice0/Obligations.lean ====
section
/-! DEFINITION. Certificates/Slice0/Obligations.lean: the statements about the machine, in the terms of Safety.lean.
A statement about an instruction that holds for every state carries no premise on it; where a form could fail only in
states no run reaches, the premise is the invariant Inv, which is a statement of its own (InvReset, InvStep, InvMove). -/

section
open Sys2Proof Sys2Proof.Machine

/-! ### Encoding (30_encoding.md) -/

/-- Decoding the encoding of any well-formed command gives it back, with every operand at every value (R79, R84). -/
def Obligations.DecodeOfEncode : Prop := ∀ i : Instr, i.wellFormed = true → decode (encode i) = .ok i

/-- A word that decodes is the encoding of the command it decodes to, and that command is well formed: no bit of a
legal word is dropped, and DIV and DIVL with a = d never decode (R75, R80, R84). -/
def Obligations.EncodeOfDecode : Prop := ∀ (w : Word) (i : Instr), decode w = .ok i → encode i = w ∧ i.wellFormed = true

/-- A word is a legal command exactly when a row of spec/opcode_table.json matches it and the row's extra conditions
hold, and then it is the command with that row's mnemonic; no word matches two rows (R80, R84, R88). -/
def Obligations.LegalWordsAreTheTable : Prop :=
  (∀ (w : Word) (i : Instr), decode w = .ok i →
    ∃ row ∈ opcodeRows, row.matches w = true ∧ row.mnemonic = mnemonicOf i ∧ extraConditions w = true) ∧
  (∀ (w : Word), ∀ row ∈ opcodeRows, row.matches w = true → extraConditions w = true →
    ∃ i, decode w = .ok i ∧ mnemonicOf i = row.mnemonic) ∧
  ∀ p ∈ opcodeRows, ∀ q ∈ opcodeRows, ∀ w : Word, p.matches w = true → q.matches w = true → p = q

/-- One word of each family, written out bit by bit from R71 to R79, decodes to its command; and three words that R80
makes illegal are refused, each by its case: the all-zero word (1), BR with cond 9 (3), and DIV with a = d (5). -/
def Obligations.SampleWords : Prop :=
  decode 0b00000001000000000000000000000000#32 = .ok .nop ∧
  decode 0b00000100001100001111111111111100#32 = .ok (.br .lt (-4)) ∧
  decode 0b00000101000100000000000000011000#32 = .ok (.csrr 1 .cfgId) ∧
  decode 0b00010010000100101111111111111111#32 = .ok (.xaddi 1 2 (-1)) ∧
  decode 0b00011010000100100000000000000001#32 = .ok (.stb 1 2 1) ∧
  decode 0b00101011000100100000000000000100#32 = .ok (.eshr 1 2 4) ∧
  decode 0b01000000000000010010000000000000#32 = .ok (.cmp 1 2) ∧
  decode 0b01001011000100100011000000000000#32 = .ok (.sub 1 2 3) ∧
  decode 0b01010000000100100011000000000000#32 = .ok (.mul 1 2 3) ∧
  decode 0b01011000000100110100001000000000#32 = .ok (.div 1 3 4 2) ∧
  decode 0b01100010000100100000000000100001#32 = .ok (.shli 1 2 33) ∧
  decode 0b01101000000100100011010000000000#32 = .ok (.parse 1 2 3 4) ∧
  decode 0#32 = .error .unassignedOpcode ∧
  decode 0b00000100100100000000000000000000#32 = .error .reservedCond ∧
  decode 0b01011000000100110100000100000000#32 = .error .sameDestination

/-! ### The step (47_control_move.md R250) and fault entry (60_exceptions.md) -/

/-- A step of the running core at a word that decodes to a command is that command, executed (R250). -/
def Obligations.StepRunsTheCommand : Prop :=
  ∀ (s : State) (i : Instr), s.runState = .running → s.pc.toNat < s.params.imemWords →
    decode (imemWord s s.pc.toNat) = .ok i → step s = exec i s

/-- A step of the running core outside IMEM raises PCRANGE with the pc, and at a word that does not decode ILLEGAL with
the word (20_memory.md R51, R250, 30_encoding.md R80). -/
def Obligations.StepFetchFaults : Prop :=
  ∀ s : State, s.runState = .running →
    (s.params.imemWords ≤ s.pc.toNat → step s = .next (takeFault s (.pcRange s.pc))) ∧
    (∀ e, s.pc.toNat < s.params.imemWords → decode (imemWord s s.pc.toNat) = .error e →
      step s = .next (takeFault s (.illegal (imemWord s s.pc.toNat))))

/-- Fault entry writes FAULT_CAUSE, FAULT_PC, FAULT_INFO and STATE, and nothing else (60_exceptions.md R287). -/
def Obligations.FaultEntry : Prop :=
  ∀ (s : State) (e : Trap),
    (takeFault s e).faultCause = trapCause e ∧ (takeFault s e).faultPc = s.pc ∧
    (takeFault s e).faultInfo = trapInfo e ∧ (takeFault s e).runState = .faulted ∧
    (takeFault s e).pc = s.pc ∧ Frame [] [] [] [] s (takeFault s e) ∧ KeepsFlags s (takeFault s e) ∧
    KeepsTmem s (takeFault s e) ∧ KeepsCode s (takeFault s e)

/-- The cause codes, the CONTRACT subcodes and FAULT_INFO of every fault, ASSERT among them, as numbers
(60_exceptions.md R282 to R284). -/
def Obligations.FaultCodes : Prop :=
  (∀ w, (trapCause (.illegal w)).toNat = 1 ∧ (trapInfo (.illegal w)).toNat = w.toNat) ∧
  (∀ file r, (trapCause (.uninit file r)).toNat = 2) ∧
  (∀ r, (trapInfo (.uninit .x r)).toNat = r.toNat ∧
    (trapInfo (.uninit .m r)).toNat = 16 + r.toNat ∧ (trapInfo (.uninit .e r)).toNat = 32 + r.toNat ∧
    (trapInfo (.uninit .f r)).toNat = 48 + r.toNat) ∧
  (∀ c, (trapCause (.contract c)).toNat = 3) ∧
  ((trapInfo (.contract .digitRange)).toNat = 1 ∧ (trapInfo (.contract .accRange)).toNat = 2 ∧
    (trapInfo (.contract .accNegative)).toNat = 3 ∧ (trapInfo (.contract .shiftRange)).toNat = 4 ∧
    (trapInfo (.contract .clzZero)).toNat = 5 ∧ (trapInfo (.contract .floatDomain)).toNat = 6) ∧
  ((trapCause .divZero).toNat = 4 ∧ (trapInfo .divZero).toNat = 0) ∧
  (∀ n, (trapCause (.capacity n)).toNat = 5 ∧ (trapInfo (.capacity n)).toNat = n % 2 ^ 64) ∧
  (∀ a : Int, (trapCause (.memRange a)).toNat = 6 ∧ ((trapInfo (.memRange a)).toNat : Int) = a % 2 ^ 64) ∧
  (∀ pc, (trapCause (.pcRange pc)).toNat = 7 ∧ (trapInfo (.pcRange pc)).toNat = pc.toNat) ∧
  (∀ site, (trapCause (.assertion site)).toNat = 8) ∧
  ((trapInfo (.assertion .longDivision)).toNat = 1 ∧ (trapInfo (.assertion .divideAndConquer)).toNat = 2 ∧
    (trapInfo (.assertion .postcondition)).toNat = 3)

/-- A fault is precise: a step of the running core that ends FAULTED is fault entry from the state before it, so no
register, flag or memory byte changes and the pc stays (60_exceptions.md R285). -/
def Obligations.FaultsArePrecise : Prop :=
  ∀ s t : State, s.runState = .running → step s = .next t → t.runState = .faulted → ∃ e, t = takeFault s e

/-- A command that reads a register holding no value raises UNINIT for the first such register in the field order
b, c, d, a, whatever else is wrong with its operands, and for no other reason (10_state.md R25, 60_exceptions.md
R286). -/
def Obligations.UninitComesFirst : Prop :=
  ∀ (i : Instr) (s : State), i.wellFormed = true →
    RaisesUninit i s (readsOf i) ∧
    ∀ file r, s.runState = .running → Raises i s (.uninit file r) → (readsOf i).find? (unwritten s) = some (file, r)

/-- Every command completes or takes a fault, and either is a next state: no command and no step of the core stops the
model. The rules say that a command completes or faults (60_exceptions.md R280, R287); the form is the model's choice:
that a fault is a next state (log entry 9), that a step of a core that is not RUNNING answers a next state, the same one
(log entry 6), and that executing a DIV or DIVL with a = d, which no word decodes to, takes ILLEGAL (log entry 12). -/
def Obligations.NothingStops : Prop :=
  (∀ (i : Instr) (s : State), ∃ t, exec i s = .next t) ∧ ∀ s : State, ∃ t, step s = .next t

/-! ### Frames over the whole command set -/

/-- A command changes no register but those its row of the operand table writes (30_encoding.md R79, 10_state.md R26). -/
def Obligations.RegisterFrame : Prop :=
  ∀ (i : Instr) (s t : State), exec i s = .next t →
    (∀ r, (RegFile.x, r) ∉ writesOf i → getX t r = getX s r) ∧ (∀ r, (RegFile.m, r) ∉ writesOf i → getM t r = getM s r) ∧
    (∀ r, (RegFile.e, r) ∉ writesOf i → getE t r = getE s r) ∧ (∀ r, (RegFile.f, r) ∉ writesOf i → getF t r = getF s r)

/-- FLAGS.SGN is written by SUB and the compare commands only, FLAGS.PERR by PARSE and FMT only
(10_state.md R28 to R30). -/
def Obligations.FlagFrame : Prop :=
  ∀ (i : Instr) (s t : State), exec i s = .next t →
    (writesSgn i = false → t.sgn = s.sgn) ∧ (writesPerr i = false → t.perr = s.perr)

/-- A command changes no TMEM byte outside its store range: STB's byte at X[b] + sext(imm16), FMT's output from X[c];
every other command stores nothing (20_memory.md R55). -/
def Obligations.MemoryFrame : Prop :=
  ∀ (i : Instr) (s t : State), Inv s → exec i s = .next t →
    KeepsTmemOutside (storeRange i s).1 (storeRange i s).2 s t

/-- No command changes IMEM or a parameter; one that does not fault leaves the fault record alone and, unless it is BR,
advances the pc; only HALT leaves RUNNING otherwise (20_memory.md R64, 10_state.md R27, R31, R35). The parameters are
constants (10_state.md R38); that they are a state field nothing changes, and the reset counter kept with them, are the
model's choice (log entries 1 and 4). -/
def Obligations.ControlFrame : Prop :=
  ∀ (i : Instr) (s t : State), s.runState = .running → exec i s = .next t →
    KeepsCode s t ∧
    (t.runState ≠ .faulted → KeepsRecord s t ∧ ((∀ c off, i ≠ .br c off) → t.pc = s.pc + 1) ∧
      (i ≠ .halt → t.runState = .running))

/-! ### Invariants -/

/-- The invariant holds of the reset state (70_reset_and_hazards.md R310), under the default parameters, which are the
model's choice (log entry 1). -/
def Obligations.InvReset : Prop := Inv State.reset ∧ RecordOk State.reset

/-- Every step keeps the invariant: magnitudes stay canonical and no longer than MAXLEN, accumulators below B^3, both
memories in canonical form and inside their address spaces (00_scope.md R11, 10_state.md R22, R23, 20_memory.md R50).
That a step of a stopped core answers the same state is the model's choice (log entry 6). -/
def Obligations.InvStep : Prop := ∀ s t : State, Inv s → step s = .next t → Inv t

/-- So does every move of either agent, the host's operations among them (60_exceptions.md R296 to R302). That a step of a
stopped core answers the same state is the model's choice (log entry 6). -/
def Obligations.InvMove : Prop := ∀ (agent : Agent) (s t : State), Inv s → move agent s = .next t → Inv t

/-- The fault record stays a record: a code of 60_exceptions.md R282, all zero before the first fault, and that of the
pc while FAULTED (10_state.md R35, R36). That a step of a stopped core answers the same state is the model's choice
(log entry 6). -/
def Obligations.FaultRecordMove : Prop :=
  ∀ (agent : Agent) (s t : State), RecordOk s → move agent s = .next t → RecordOk t

/-- ASSERT is unreachable: no step of the running core raises it (60_exceptions.md R290, 44_divide.md R186, R193,
R194). -/
def Obligations.AssertNeverRaised : Prop :=
  ∀ s t : State, Inv s → s.runState = .running → step s = .next t → t.runState = .faulted → t.faultCause.toNat ≠ 8

/-- KARATSUBA_THRESHOLD and DC_THRESHOLD change no result: under other thresholds every command but a read of the two
CSRs that show them does the same (00_scope.md R7, 43_multiply.md R166, 44_divide.md R187). -/
def Obligations.ThresholdsAreInvisible : Prop :=
  ∀ (i : Instr) (s : State) (kt dt : Nat), Inv s → 1 ≤ kt → 1 ≤ dt →
    (∀ a, i ≠ .csrr a .cfgKt ∧ i ≠ .csrr a .cfgDt) →
    exec i (withThresholds kt dt s) = mapNext (withThresholds kt dt) (exec i s)

/-! ### Reset and the host port -/

/-- Reset, at power-on and by the host: every register without a value, pc 0, flags 0, IDLE, fault record 0; the
parameters kept by a host reset (70_reset_and_hazards.md R310, 60_exceptions.md R297). The memories are unspecified there
(R312): that every byte and word then reads as a free value, chosen by a counter of resets, is the model's form of it
(log entries 3 and 4). -/
def Obligations.ResetState : Prop :=
  ∀ s t : State, (t = State.reset ∨ t = (hostMove .reset s).1) →
    (∀ r, getX t r = none) ∧ (∀ r, getM t r = none) ∧ (∀ r, getE t r = none) ∧ (∀ r, getF t r = none) ∧
    t.pc = 0 ∧ t.sgn = .zero ∧ t.perr = .none ∧ t.runState = .idle ∧
    t.faultCause = 0 ∧ t.faultPc = 0 ∧ t.faultInfo = 0 ∧ (hostMove .reset s).1.params = s.params ∧
    (∀ a, tmemByte t a = Config.tmemReset t.memEpoch a) ∧ ∀ i, imemWord t i = Config.imemReset t.memEpoch i

/-- `start(pc0)`: while STATE is IDLE or FAULTED it sets the pc to pc0 mod 2^32 and STATE to RUNNING and changes nothing
else, the fault record among it; while RUNNING it is refused (60_exceptions.md R301, R288, R302). -/
def Obligations.HostStart : Prop :=
  ∀ (s : State) (pc0 : Nat),
    (s.runState ≠ .running →
      hostMove (.start pc0) s = ({ s with pc := BitVec.ofNat 32 (pc0 % 2 ^ 32), runState := .running }, .done)) ∧
    (s.runState = .running → hostMove (.start pc0) s = (s, .refused))

/-- While STATE is RUNNING every host operation but reset and the STATUS poll is refused and changes nothing, and the
poll reads RUNNING. While it is not, `read_csr` of every assigned number returns the CSR's value, STATUS the true STATE
(0 IDLE, 2 FAULTED); `read_reg` returns the register's value, or none when it holds none; `read_imem` and `read_tmem`
return the word or byte inside the memory. A read changes nothing in any state (10_state.md R31 to R39, 60_exceptions.md
R296, R300, R302). -/
def Obligations.HostReadsAndRefusals : Prop :=
  (∀ (op : HostOp) (s : State), s.runState = .running →
    (op ≠ .reset → op ≠ .readCsr 0 → hostMove op s = (s, .refused)) ∧
    hostMove (.readCsr 0) s = (s, .csr 1)) ∧
  (∀ s : State, s.params.Legal → s.runState ≠ .running →
    (∀ csr, ∃ v, hostMove (.readCsr (csrCode csr)) s = (s, .csr v) ∧ v.toNat = stoppedCsrNumber s csr) ∧
    (∀ i, hostMove (.readReg .x i) s = (s, .reg ((getX s i).map .x)) ∧
      hostMove (.readReg .m i) s = (s, .reg ((getM s i).map .m)) ∧
      hostMove (.readReg .e i) s = (s, .reg ((getE s i).map .e)) ∧
      hostMove (.readReg .f i) s = (s, .reg ((getF s i).map .f))) ∧
    (∀ i, i < s.params.imemWords → hostMove (.readImem i) s = (s, .word (imemWord s i))) ∧
    ∀ a, a < s.params.tmemSize → hostMove (.readTmem a) s = (s, .byte (tmemByte s a))) ∧
  ∀ (s : State) (file : RegFile) (i : BitVec 4) (n : BitVec 16) (k : Nat),
    (hostMove (.readReg file i) s).1 = s ∧ (hostMove (.readCsr n) s).1 = s ∧
    (hostMove (.readImem k) s).1 = s ∧ (hostMove (.readTmem k) s).1 = s

/-- `write_reg`: while not RUNNING it writes the one register and nothing else: no other register, no memory, and not the
pc, the flags, STATE or the fault record; a magnitude that is not canonical or longer than MAXLEN, or an accumulator
value of B^3 or more, is refused with no effect (60_exceptions.md R298). -/
def Obligations.HostWriteReg : Prop :=
  ∀ (s : State) (i : BitVec 4), s.runState ≠ .running →
    let keeps := fun t : State => HostKeeps s t ∧ KeepsTmem s t ∧ KeepsImem s t
    (∀ v, ∃ t, hostMove (.writeReg i (.x v)) s = (t, .done) ∧ getX t i = some v ∧ Frame [i] [] [] [] s t ∧ keeps t) ∧
    (∀ v, ∃ t, hostMove (.writeReg i (.f v)) s = (t, .done) ∧ getF t i = some v ∧ Frame [] [] [] [i] s t ∧ keeps t) ∧
    (∀ m, if canonical s.params.base m = true ∧ s.params.fits m.length = true then
        ∃ t, hostMove (.writeReg i (.m m)) s = (t, .done) ∧ getM t i = some m ∧ Frame [] [i] [] [] s t ∧ keeps t
      else hostMove (.writeReg i (.m m)) s = (s, .refused)) ∧
    ∀ v, if v < s.params.base ^ 3 then
        ∃ t, hostMove (.writeReg i (.e v)) s = (t, .done) ∧ getE t i = some v ∧ Frame [] [] [i] [] s t ∧ keeps t
      else hostMove (.writeReg i (.e v)) s = (s, .refused)

/-- `write_imem` and `write_tmem`: while not RUNNING they set the one word or byte, which a read then returns, and leave
every other word and byte, every register, the pc, the flags, STATE and the fault record; an index out of range is
refused with no effect (60_exceptions.md R298 to R300). -/
def Obligations.HostWriteMemory : Prop :=
  ∀ s : State, Inv s → s.runState ≠ .running →
    (∀ i w, if i < s.params.imemWords then
        ∃ t, hostMove (.writeImem i w) s = (t, .done) ∧ hostMove (.readImem i) t = (t, .word w) ∧
          (∀ j, j ≠ i → imemWord t j = imemWord s j) ∧ Frame [] [] [] [] s t ∧ KeepsTmem s t ∧ HostKeeps s t
      else hostMove (.writeImem i w) s = (s, .refused)) ∧
    ∀ a b, if a < s.params.tmemSize then
        ∃ t, hostMove (.writeTmem a b) s = (t, .done) ∧ hostMove (.readTmem a) t = (t, .byte b) ∧
          KeepsTmemOutside a 1 s t ∧ Frame [] [] [] [] s t ∧ KeepsImem s t ∧ HostKeeps s t
      else hostMove (.writeTmem a b) s = (s, .refused)

/-! ### Sequencer, native registers and moves (47_control_move.md) -/

/-- NOP advances the pc and HALT advances it and stops the core, IDLE; neither changes anything else (R251, R252). -/
def Obligations.NopHalt : Prop :=
  Encoded (wordR 0x01 0 0 0 0 0) .nop ∧ Encoded (wordR 0x02 0 0 0 0 0) .halt ∧
  ∀ s : State, exec .nop s = .next { s with pc := BitVec.ofNat 32 (s.pc.toNat + 1) } ∧
    exec .halt s = .next { s with pc := BitVec.ofNat 32 (s.pc.toNat + 1), runState := .idle }

/-- BR: taken, the pc becomes (pc + sext(imm16)) mod 2^32, else it advances; nothing else changes. The condition codes
0 to 8 are AL, EQ, NE, LT, GE, GT, LE, PE, NPE; 9 to 15 do not decode (R253, 30_encoding.md R83). -/
def Obligations.Branch : Prop :=
  ∀ (s : State) (off : BitVec 16),
    let go : Host.Outcome State Fault Refusal := .next { s with pc := BitVec.ofInt 32 ((s.pc.toNat : Int) + off.toInt) }
    let stay : Host.Outcome State Fault Refusal := .next { s with pc := BitVec.ofNat 32 (s.pc.toNat + 1) }
    (Encoded (wordI 0x04 0 0 off) (.br .al off) ∧ exec (.br .al off) s = go) ∧
    (Encoded (wordI 0x04 1 0 off) (.br .eq off) ∧ exec (.br .eq off) s = if s.sgn = .zero then go else stay) ∧
    (Encoded (wordI 0x04 2 0 off) (.br .ne off) ∧ exec (.br .ne off) s = if s.sgn = .zero then stay else go) ∧
    (Encoded (wordI 0x04 3 0 off) (.br .lt off) ∧ exec (.br .lt off) s = if s.sgn = .negative then go else stay) ∧
    (Encoded (wordI 0x04 4 0 off) (.br .ge off) ∧ exec (.br .ge off) s = if s.sgn = .negative then stay else go) ∧
    (Encoded (wordI 0x04 5 0 off) (.br .gt off) ∧ exec (.br .gt off) s = if s.sgn = .positive then go else stay) ∧
    (Encoded (wordI 0x04 6 0 off) (.br .le off) ∧ exec (.br .le off) s = if s.sgn = .positive then stay else go) ∧
    (Encoded (wordI 0x04 7 0 off) (.br .pe off) ∧ exec (.br .pe off) s = if s.perr = .none then stay else go) ∧
    (Encoded (wordI 0x04 8 0 off) (.br .npe off) ∧ exec (.br .npe off) s = if s.perr = .none then go else stay) ∧
    ∀ n : BitVec 4, 9 ≤ n.toNat → decode (wordI 0x04 n 0 off) = .error .reservedCond

/-- CSRR writes the value of every CSR, as a number, to X[a]; the CSRs are numbered 0 to 4 and 0x10 to 0x18, and no
other number decodes (R254, 10_state.md R32 to R39). -/
def Obligations.ReadCsr : Prop :=
  (∀ (s : State) (a : XReg) (csr : Csr), s.params.Legal → s.runState = .running →
    Encoded (wordI 0x05 a 0 (csrCode csr)) (.csrr a csr) ∧ CompletesX (.csrr a csr) s a (csrNumber s csr)) ∧
  ([Csr.status, .flags, .faultCause, .faultPc, .faultInfo].map csrCode = [0, 1, 2, 3, 4] ∧
    [Csr.cfgW, .cfgA, .cfgN, .cfgKt, .cfgDt, .cfgMaxLen, .cfgTmemSize, .cfgImemWords, .cfgId].map csrCode =
      [0x10, 0x11, 0x12, 0x13, 0x14, 0x15, 0x16, 0x17, 0x18]) ∧
  ∀ (a : XReg) (n : BitVec 16), (4 < n.toNat ∧ n.toNat < 0x10 ∨ 0x18 < n.toNat) →
    decode (wordI 0x05 a 0 n) = .error .unassignedCsr

/-- LI, LIH and XADDI: the immediate zero-extended; shifted in below; added sign-extended, modulo 2^64. XCMP: SGN of the
difference of two native values read as unsigned (R255 to R258). -/
def Obligations.NativeRegisters : Prop :=
  ∀ (s : State) (a b c : XReg) (imm : BitVec 16),
    (Encoded (wordI 0x10 a 0 imm) (.li a imm) ∧ CompletesX (.li a imm) s a imm.toNat) ∧
    (Encoded (wordI 0x11 a 0 imm) (.lih a imm) ∧ RaisesUninit (.lih a imm) s [(.x, a)] ∧
      ∀ x, getX s a = some x → CompletesX (.lih a imm) s a ((x.toNat * 2 ^ 16 + imm.toNat) % 2 ^ 64)) ∧
    (Encoded (wordI 0x12 a b imm) (.xaddi a b imm) ∧ RaisesUninit (.xaddi a b imm) s [(.x, b)] ∧
      ∀ x, getX s b = some x → CompletesX (.xaddi a b imm) s a (((x.toNat : Int) + imm.toInt) % 2 ^ 64).toNat) ∧
    (Encoded (wordR 0x13 0 b c 0 0) (.xcmp b c) ∧ RaisesUninit (.xcmp b c) s [(.x, b), (.x, c)] ∧
      ∀ x y, getX s b = some x → getX s c = some y →
        CompletesSgn (.xcmp b c) s (sgn ((x.toNat : Int) - (y.toNat : Int))))

/-- MOV copies a magnitude, MFX writes the digits of a native value, FMVX the 64 bits unchanged (R259, R260, R263). -/
def Obligations.Moves : Prop :=
  ∀ (s : State) (a b : BitVec 4), s.params.Legal →
    (Encoded (wordR 0x14 a b 0 0 0) (.mov a b) ∧ RaisesUninit (.mov a b) s [(.m, b)] ∧
      ∀ m, getM s b = some m → CompletesM (.mov a b) s a m) ∧
    (Encoded (wordR 0x15 a b 0 0 0) (.mfx a b) ∧ RaisesUninit (.mfx a b) s [(.x, b)] ∧
      ∀ x, getX s b = some x → CompletesM (.mfx a b) s a (digits s.params.base x.toNat)) ∧
    (Encoded (wordR 0x18 a b 0 0 0) (.fmvx a b) ∧ RaisesUninit (.fmvx a b) s [(.x, b)] ∧
      ∀ x, getX s b = some x →
        Completes (.fmvx a b) s fun t => getF t a = some x ∧ Frame [] [] [] [a] s t ∧ KeepsFlags s t ∧ KeepsTmem s t)

/-- LEN writes the number of digits, and GETD the digit at an index or 0 past the top (R261, R262). A length of 2^64
or more, possible only where MAXLEN is unbounded, completes with some value (the model's log entry 5). -/
def Obligations.LengthAndDigit : Prop :=
  ∀ (s : State) (a c : XReg) (b : MReg), Inv s →
    (Encoded (wordR 0x16 a b 0 0 0) (.len a b) ∧ RaisesUninit (.len a b) s [(.m, b)] ∧
      ∀ m, getM s b = some m →
        (m.length < 2 ^ 64 → CompletesX (.len a b) s a m.length) ∧ ∃ n, CompletesX (.len a b) s a n) ∧
    (Encoded (wordR 0x17 a b c 0 0) (.getd a b c) ∧ RaisesUninit (.getd a b c) s [(.m, b), (.x, c)] ∧
      ∀ m x, getM s b = some m → getX s c = some x →
        CompletesX (.getd a b c) s a (if h : x.toNat < m.length then m[x.toNat] else 0))

/-- LDB reads and STB writes the TMEM byte at X[b] + sext(imm16), an unbounded integer; outside TMEM both raise MEMRANGE
with the address, which does not wrap (R264, R265, 20_memory.md R52). -/
def Obligations.TextBytes : Prop :=
  ∀ (s : State) (a b : XReg) (imm : BitVec 16), Inv s →
    (Encoded (wordI 0x19 a b imm) (.ldb a b imm) ∧ RaisesUninit (.ldb a b imm) s [(.x, b)] ∧
      ∀ x, getX s b = some x →
        (∀ n : Nat, (n : Int) = (x.toNat : Int) + imm.toInt → n < s.params.tmemSize →
          CompletesX (.ldb a b imm) s a (tmemByte s n).toNat) ∧
        (((x.toNat : Int) + imm.toInt < 0 ∨ (s.params.tmemSize : Int) ≤ (x.toNat : Int) + imm.toInt) →
          Raises (.ldb a b imm) s (.memRange ((x.toNat : Int) + imm.toInt)))) ∧
    (Encoded (wordI 0x1A a b imm) (.stb a b imm) ∧ RaisesUninit (.stb a b imm) s [(.x, b), (.x, a)] ∧
      ∀ x v, getX s b = some x → getX s a = some v →
        (∀ n : Nat, (n : Int) = (x.toNat : Int) + imm.toInt → n < s.params.tmemSize →
          Completes (.stb a b imm) s fun t => (tmemByte t n).toNat = v.toNat % 2 ^ 8 ∧
            KeepsTmemOutside n 1 s t ∧ Frame [] [] [] [] s t ∧ KeepsFlags s t) ∧
        (((x.toNat : Int) + imm.toInt < 0 ∨ (s.params.tmemSize : Int) ≤ (x.toNat : Int) + imm.toInt) →
          Raises (.stb a b imm) s (.memRange ((x.toNat : Int) + imm.toInt))))

/-! ### Digit primitives and the accumulator (40_digit_accumulator.md) -/

/-- DIGV, VLO, VHI, VSZ: low digit, low digit, high digit and digit count of a native value; SODD, SODB: the whole digits
and the remaining bits of a shift count (R94, R108 to R113). -/
def Obligations.DigitView : Prop :=
  ∀ (s : State) (a b : XReg),
    (Encoded (wordR 0x20 a b 0 0 0) (.digv a b) ∧ RaisesUninit (.digv a b) s [(.x, b)] ∧
      ∀ x, getX s b = some x → CompletesX (.digv a b) s a (x.toNat % s.params.base)) ∧
    (Encoded (wordR 0x30 a b 0 0 0) (.vlo a b) ∧ RaisesUninit (.vlo a b) s [(.x, b)] ∧
      ∀ x, getX s b = some x → CompletesX (.vlo a b) s a (x.toNat % s.params.base)) ∧
    (Encoded (wordR 0x31 a b 0 0 0) (.vhi a b) ∧ RaisesUninit (.vhi a b) s [(.x, b)] ∧
      ∀ x, getX s b = some x → CompletesX (.vhi a b) s a (x.toNat / s.params.base)) ∧
    (Encoded (wordR 0x32 a b 0 0 0) (.vsz a b) ∧ RaisesUninit (.vsz a b) s [(.x, b)] ∧
      ∀ x, getX s b = some x → CompletesX (.vsz a b) s a (if x.toNat < s.params.base then 1 else 2)) ∧
    (Encoded (wordR 0x34 a b 0 0 0) (.sodd a b) ∧ RaisesUninit (.sodd a b) s [(.x, b)] ∧
      ∀ k, getX s b = some k → CompletesX (.sodd a b) s a (k.toNat / s.params.w)) ∧
    (Encoded (wordR 0x35 a b 0 0 0) (.sodb a b) ∧ RaisesUninit (.sodb a b) s [(.x, b)] ∧
      ∀ k, getX s b = some k → CompletesX (.sodb a b) s a (k.toNat % s.params.w))

/-- EDL, EDM, EDH, ESZ: the three digits of an accumulator value, and their number (R97 to R100). -/
def Obligations.AccumulatorReads : Prop :=
  ∀ (s : State) (a : XReg) (b : EReg), Inv s →
    (Encoded (wordR 0x23 a b 0 0 0) (.edl a b) ∧ RaisesUninit (.edl a b) s [(.e, b)] ∧
      ∀ v, getE s b = some v → CompletesX (.edl a b) s a (v % s.params.base)) ∧
    (Encoded (wordR 0x24 a b 0 0 0) (.edm a b) ∧ RaisesUninit (.edm a b) s [(.e, b)] ∧
      ∀ v, getE s b = some v → CompletesX (.edm a b) s a (v / s.params.base % s.params.base)) ∧
    (Encoded (wordR 0x25 a b 0 0 0) (.edh a b) ∧ RaisesUninit (.edh a b) s [(.e, b)] ∧
      ∀ v, getE s b = some v → CompletesX (.edh a b) s a (v / s.params.base ^ 2)) ∧
    (Encoded (wordR 0x26 a b 0 0 0) (.esz a b) ∧ RaisesUninit (.esz a b) s [(.e, b)] ∧
      ∀ v, getE s b = some v → CompletesX (.esz a b) s a
        (if v < s.params.base then 1 else if v < s.params.base ^ 2 then 2 else 3))

/-- EMOV: mid · B + lo; EMB, EMBA, EMULD: the exact result when it is below B^3, else ACC_RANGE; DIGIT_RANGE comes first
when a digit operand is no digit (R96, R101, R102, R103). -/
def Obligations.AccumulatorWrites : Prop :=
  ∀ (s : State) (a b : EReg) (c d : XReg),
    (Encoded (wordR 0x22 a c d 0 0) (.emov a c d) ∧ RaisesUninit (.emov a c d) s [(.x, c), (.x, d)] ∧
      ∀ lo mid, getX s c = some lo → getX s d = some mid →
        (lo.toNat < s.params.base → mid.toNat < s.params.base →
          CompletesE (.emov a c d) s a (mid.toNat * s.params.base + lo.toNat)) ∧
        ((s.params.base ≤ lo.toNat ∨ s.params.base ≤ mid.toNat) → Raises (.emov a c d) s (.contract .digitRange))) ∧
    (Encoded (wordR 0x27 a b 0 0 0) (.emb a b) ∧ RaisesUninit (.emb a b) s [(.e, b)] ∧
      ∀ v, getE s b = some v →
        (v * s.params.base < s.params.base ^ 3 → CompletesE (.emb a b) s a (v * s.params.base)) ∧
        (s.params.base ^ 3 ≤ v * s.params.base → Raises (.emb a b) s (.contract .accRange))) ∧
    (Encoded (wordR 0x28 a b c 0 0) (.emba a b c) ∧ RaisesUninit (.emba a b c) s [(.e, b), (.x, c)] ∧
      ∀ v dg, getE s b = some v → getX s c = some dg →
        (s.params.base ≤ dg.toNat → Raises (.emba a b c) s (.contract .digitRange)) ∧
        (dg.toNat < s.params.base → v * s.params.base + dg.toNat < s.params.base ^ 3 →
          CompletesE (.emba a b c) s a (v * s.params.base + dg.toNat)) ∧
        (dg.toNat < s.params.base → s.params.base ^ 3 ≤ v * s.params.base + dg.toNat →
          Raises (.emba a b c) s (.contract .accRange))) ∧
    (Encoded (wordR 0x29 a b c 0 0) (.emuld a b c) ∧ RaisesUninit (.emuld a b c) s [(.e, b), (.x, c)] ∧
      ∀ v dg, getE s b = some v → getX s c = some dg →
        (s.params.base ≤ dg.toNat → Raises (.emuld a b c) s (.contract .digitRange)) ∧
        (dg.toNat < s.params.base → v * dg.toNat < s.params.base ^ 3 → CompletesE (.emuld a b c) s a (v * dg.toNat)) ∧
        (dg.toNat < s.params.base → s.params.base ^ 3 ≤ v * dg.toNat → Raises (.emuld a b c) s (.contract .accRange)))

/-- ESUB: the difference, or ACC_NEGATIVE; ESHR: the value shifted right by k < W bits, or SHIFT_RANGE; ECMP: SGN of the
difference (R104, R105, R106). -/
def Obligations.AccumulatorArithmetic : Prop :=
  ∀ (s : State) (a b c : EReg) (k : BitVec 8),
    (Encoded (wordR 0x2A a b c 0 0) (.esub a b c) ∧ RaisesUninit (.esub a b c) s [(.e, b), (.e, c)] ∧
      ∀ u v, getE s b = some u → getE s c = some v →
        (v ≤ u → CompletesE (.esub a b c) s a (u - v)) ∧ (u < v → Raises (.esub a b c) s (.contract .accNegative))) ∧
    (Encoded (wordR 0x2B a b 0 0 k) (.eshr a b k) ∧ RaisesUninit (.eshr a b k) s [(.e, b)] ∧
      ∀ v, getE s b = some v →
        (k.toNat < s.params.w → CompletesE (.eshr a b k) s a (v / 2 ^ k.toNat)) ∧
        (s.params.w ≤ k.toNat → Raises (.eshr a b k) s (.contract .shiftRange))) ∧
    (Encoded (wordR 0x2C 0 b c 0 0) (.ecmp b c) ∧ RaisesUninit (.ecmp b c) s [(.e, b), (.e, c)] ∧
      ∀ u v, getE s b = some u → getE s c = some v → CompletesSgn (.ecmp b c) s (sgn ((u : Int) - (v : Int))))

/-- CLZ counts the leading zero bits of a nonzero digit: the n with 2^(W−1) ≤ x · 2^n < 2^W. A value that is no digit is
DIGIT_RANGE, zero CLZ_ZERO (R114). -/
def Obligations.LeadingZeros : Prop :=
  ∀ (s : State) (a b : XReg), s.params.Legal →
    Encoded (wordR 0x36 a b 0 0 0) (.clz a b) ∧ RaisesUninit (.clz a b) s [(.x, b)] ∧
    ∀ x, getX s b = some x →
      (s.params.base ≤ x.toNat → Raises (.clz a b) s (.contract .digitRange)) ∧
      (x.toNat = 0 → Raises (.clz a b) s (.contract .clzZero)) ∧
      (x.toNat ≠ 0 → x.toNat < s.params.base → ∃ n, CompletesX (.clz a b) s a n ∧
        2 ^ (s.params.w - 1) ≤ x.toNat * 2 ^ n ∧ x.toNat * 2 ^ n < 2 ^ s.params.w)

/-! ### Comparison, addition, subtraction (41_compare.md, 42_add_sub.md) -/

/-- CMP and CMPX set SGN to the sign of the numeric difference (41_compare.md R130, R131, R132). -/
def Obligations.Compare : Prop :=
  ∀ (s : State) (b c : BitVec 4), Inv s →
    (Encoded (wordR 0x40 0 b c 0 0) (.cmp b c) ∧ RaisesUninit (.cmp b c) s [(.m, b), (.m, c)] ∧
      ∀ p q, getM s b = some p → getM s c = some q →
        CompletesSgn (.cmp b c) s (sgn ((val s.params.base p : Int) - (val s.params.base q : Int)))) ∧
    (Encoded (wordR 0x41 0 b c 0 0) (.cmpx b c) ∧ RaisesUninit (.cmpx b c) s [(.m, b), (.x, c)] ∧
      ∀ p x, getM s b = some p → getX s c = some x →
        CompletesSgn (.cmpx b c) s (sgn ((val s.params.base p : Int) - (x.toNat : Int))))

/-- ADD and ADDX write the canonical magnitude of the sum, or raise CAPACITY with its length
(42_add_sub.md R142, R143). -/
def Obligations.AddExact : Prop :=
  ∀ (s : State) (a b c : BitVec 4), Inv s →
    (Encoded (wordR 0x48 a b c 0 0) (.add a b c) ∧ RaisesUninit (.add a b c) s [(.m, b), (.m, c)] ∧
      ∀ p q, getM s b = some p → getM s c = some q →
        WritesChecked (.add a b c) s a (digits s.params.base (val s.params.base p + val s.params.base q))) ∧
    (Encoded (wordR 0x49 a b c 0 0) (.addx a b c) ∧ RaisesUninit (.addx a b c) s [(.m, b), (.x, c)] ∧
      ∀ p x, getM s b = some p → getX s c = some x →
        WritesChecked (.addx a b c) s a (digits s.params.base (val s.params.base p + x.toNat)))

/-- CMPF compares with, and ADDF adds, the floor of a float value that is finite and not negative; any other raises
FLOAT_DOMAIN (41_compare.md R133, 42_add_sub.md R144, 46_radix.md R240). -/
def Obligations.FloatOperands : Prop :=
  ∀ (s : State) (a b : MReg) (c : FReg), Inv s →
    (Encoded (wordR 0x42 0 b c 0 0) (.cmpf b c) ∧ RaisesUninit (.cmpf b c) s [(.m, b), (.f, c)]) ∧
    (Encoded (wordR 0x4A a b c 0 0) (.addf a b c) ∧ RaisesUninit (.addf a b c) s [(.m, b), (.f, c)]) ∧
    ∀ p f, getM s b = some p → getF s c = some f →
      (∀ x, floatRat f = some x → 0 ≤ x →
        CompletesSgn (.cmpf b c) s (sgn ((val s.params.base p : Int) - ⌊x⌋)) ∧
        WritesChecked (.addf a b c) s a (digits s.params.base (val s.params.base p + ⌊x⌋₊))) ∧
      ((∀ x, floatRat f = some x → x < 0) →
        Raises (.cmpf b c) s (.contract .floatDomain) ∧ Raises (.addf a b c) s (.contract .floatDomain))

/-- SUB writes the canonical magnitude of the absolute difference and its sign, ZERO exactly for [0]
(42_add_sub.md R145, R147). -/
def Obligations.Subtract : Prop :=
  ∀ (s : State) (a b c : MReg), Inv s →
    Encoded (wordR 0x4B a b c 0 0) (.sub a b c) ∧ RaisesUninit (.sub a b c) s [(.m, b), (.m, c)] ∧
    ∀ p q, getM s b = some p → getM s c = some q →
      Completes (.sub a b c) s fun t =>
        getM t a = some (digits s.params.base ((val s.params.base p : Int) - (val s.params.base q : Int)).natAbs) ∧
        t.sgn = sgn ((val s.params.base p : Int) - (val s.params.base q : Int)) ∧ t.perr = s.perr ∧
        Frame [] [a] [] [] s t ∧ KeepsTmem s t

/-- After `ADD c, a, b` and then `SUB d, c, b`, M[d] is M[a] and SGN is POSITIVE, or ZERO for [0]
(42_add_sub.md R148). -/
def Obligations.AddThenSubtract : Prop :=
  ∀ (s : State) (a b c d : MReg) (p q : Magnitude), Inv s → getM s a = some p → getM s b = some q → c ≠ b →
    s.params.fits (digits s.params.base (val s.params.base p + val s.params.base q)).length = true →
    ∃ u v, exec (.add c a b) s = .next u ∧ exec (.sub d c b) u = .next v ∧
      getM v d = some p ∧ v.sgn = if p = [0] then .zero else .positive

/-! ### Multiplication and division (43_multiply.md, 44_divide.md) -/

/-- MUL and MULL write the canonical magnitude of the product, or raise CAPACITY with its length
(43_multiply.md R160, R165, R167). -/
def Obligations.Multiply : Prop :=
  ∀ (s : State) (a b c : MReg), Inv s →
    (Encoded (wordR 0x50 a b c 0 0) (.mul a b c) ∧ RaisesUninit (.mul a b c) s [(.m, b), (.m, c)]) ∧
    (Encoded (wordR 0x51 a b c 0 0) (.mull a b c) ∧ RaisesUninit (.mull a b c) s [(.m, b), (.m, c)]) ∧
    ∀ p q, getM s b = some p → getM s c = some q →
      WritesChecked (.mul a b c) s a (digits s.params.base (val s.params.base p * val s.params.base q)) ∧
      WritesChecked (.mull a b c) s a (digits s.params.base (val s.params.base p * val s.params.base q))

/-- The Karatsuba and the schoolbook datapaths agree: MUL and MULL do the same in every state that meets Inv
(43_multiply.md R166). -/
def Obligations.MulIsMull : Prop :=
  ∀ (s : State) (a b c : MReg), Inv s → exec (.mul a b c) s = exec (.mull a b c) s

/-- DIV and DIVL write quotient and remainder, or raise DIVZERO; with one destination for both they are ILLEGAL
(44_divide.md R180, R195, R196). -/
def Obligations.Divide : Prop :=
  ∀ (s : State) (a b c d : MReg), Inv s →
    (a ≠ d → Encoded (wordR 0x58 a b c d 0) (.div a b c d) ∧ RaisesUninit (.div a b c d) s [(.m, b), (.m, c)]) ∧
    (a ≠ d → Encoded (wordR 0x59 a b c d 0) (.divl a b c d) ∧ RaisesUninit (.divl a b c d) s [(.m, b), (.m, c)]) ∧
    (decode (wordR 0x58 a b c a 0) = .error .sameDestination ∧ decode (wordR 0x59 a b c a 0) = .error .sameDestination) ∧
    ∀ n dv, a ≠ d → getM s b = some n → getM s c = some dv →
      (val s.params.base dv = 0 →
        Raises (.div a b c d) s .divZero ∧ Raises (.divl a b c d) s .divZero) ∧
      (val s.params.base dv ≠ 0 →
        let post := fun t : State =>
          getM t a = some (digits s.params.base (val s.params.base n / val s.params.base dv)) ∧
          getM t d = some (digits s.params.base (val s.params.base n % val s.params.base dv)) ∧
          Frame [] [a, d] [] [] s t ∧ KeepsFlags s t ∧ KeepsTmem s t
        Completes (.div a b c d) s post ∧ Completes (.divl a b c d) s post)

/-- The divide-and-conquer and the long-division datapaths agree: DIV and DIVL with a different from d do the same in
every state that meets Inv (44_divide.md R187). -/
def Obligations.DivIsDivl : Prop :=
  ∀ (s : State) (a b c d : MReg), Inv s → a ≠ d → exec (.div a b c d) s = exec (.divl a b c d) s

/-- QUO writes the quotient and REM the remainder, or both raise DIVZERO (44_divide.md R197, R198). -/
def Obligations.QuotientRemainder : Prop :=
  ∀ (s : State) (a b c : MReg), Inv s →
    (Encoded (wordR 0x5A a b c 0 0) (.quo a b c) ∧ RaisesUninit (.quo a b c) s [(.m, b), (.m, c)]) ∧
    (Encoded (wordR 0x5B a b c 0 0) (.rem a b c) ∧ RaisesUninit (.rem a b c) s [(.m, b), (.m, c)]) ∧
    ∀ n dv, getM s b = some n → getM s c = some dv →
      (val s.params.base dv = 0 → Raises (.quo a b c) s .divZero ∧ Raises (.rem a b c) s .divZero) ∧
      (val s.params.base dv ≠ 0 →
        CompletesM (.quo a b c) s a (digits s.params.base (val s.params.base n / val s.params.base dv)) ∧
        CompletesM (.rem a b c) s a (digits s.params.base (val s.params.base n % val s.params.base dv)))

/-- DIVX divides by a native value, the remainder into an X register; DIVZERO for 0 (44_divide.md R199). -/
def Obligations.DivideByNative : Prop :=
  ∀ (s : State) (a b : MReg) (c d : XReg), Inv s →
    Encoded (wordR 0x5C a b c d 0) (.divx a b c d) ∧ RaisesUninit (.divx a b c d) s [(.m, b), (.x, c)] ∧
    ∀ n x, getM s b = some n → getX s c = some x →
      (x.toNat = 0 → Raises (.divx a b c d) s .divZero) ∧
      (x.toNat ≠ 0 → Completes (.divx a b c d) s fun t =>
        getM t a = some (digits s.params.base (val s.params.base n / x.toNat)) ∧
        HasX t d (val s.params.base n % x.toNat) ∧ Frame [d] [a] [] [] s t ∧ KeepsFlags s t ∧ KeepsTmem s t)

/-! ### Shifts (45_shift.md) -/

/-- SHL and SHLI multiply by 2^k, or raise CAPACITY with the exact length of the result (R211, R213, R215). -/
def Obligations.ShiftLeft : Prop :=
  ∀ (s : State) (a b : MReg) (c : XReg) (imm : BitVec 16), Inv s →
    (Encoded (wordR 0x60 a b c 0 0) (.shl a b c) ∧ RaisesUninit (.shl a b c) s [(.m, b), (.x, c)] ∧
      ∀ m k, getM s b = some m → getX s c = some k →
        WritesChecked (.shl a b c) s a (digits s.params.base (val s.params.base m * 2 ^ k.toNat))) ∧
    (Encoded (wordI 0x62 a b imm) (.shli a b imm) ∧ RaisesUninit (.shli a b imm) s [(.m, b)] ∧
      ∀ m, getM s b = some m →
        WritesChecked (.shli a b imm) s a (digits s.params.base (val s.params.base m * 2 ^ imm.toNat)))

/-- SHR and SHRI divide by 2^k, rounding down (R212, R214, R216). -/
def Obligations.ShiftRight : Prop :=
  ∀ (s : State) (a b : MReg) (c : XReg) (imm : BitVec 16), Inv s →
    (Encoded (wordR 0x61 a b c 0 0) (.shr a b c) ∧ RaisesUninit (.shr a b c) s [(.m, b), (.x, c)] ∧
      ∀ m k, getM s b = some m → getX s c = some k →
        CompletesM (.shr a b c) s a (digits s.params.base (val s.params.base m / 2 ^ k.toNat))) ∧
    (Encoded (wordI 0x63 a b imm) (.shri a b imm) ∧ RaisesUninit (.shri a b imm) s [(.m, b)] ∧
      ∀ m, getM s b = some m →
        CompletesM (.shri a b imm) s a (digits s.params.base (val s.params.base m / 2 ^ imm.toNat)))

/-! ### Radix conversion and floats (46_radix.md) -/

/-- The alphabets: a byte has value v in radix r exactly when v < r and it is character v of the radix's alphabet, in
either case up to radix 36; FMT writes lower case up to radix 36 (R226 to R228, R231). -/
def Obligations.Alphabets : Prop :=
  ∀ (r v : Nat), 2 ≤ r → r ≤ 64 →
    (∀ ch : Byte, charValue ch r = some v ↔
      v < r ∧ (if r ≤ 36 then IsCharAt lowerAlphabet v ch ∨ IsCharAt upperAlphabet v ch
        else IsCharAt wideAlphabet v ch)) ∧
    (v < r → IsCharAt (if r ≤ 36 then lowerAlphabet else wideAlphabet) v (outputChar r v))

/-- PARSE of a text of L ≥ 1 characters in TMEM, each with value v_i in radix r, writes the canonical magnitude of
Σ v_i · r^(L−1−i) and PERR 0, or raises CAPACITY with its length (R229, R230). -/
def Obligations.ParseNumber : Prop :=
  ∀ (s : State) (a : MReg) (b c d : XReg) (addr len r : Native) (vs : List Nat), Inv s →
    getX s b = some addr → getX s c = some len → getX s d = some r →
    addr.toNat + len.toNat ≤ s.params.tmemSize → 2 ≤ r.toNat → r.toNat ≤ 64 → 1 ≤ len.toNat →
    vs.length = len.toNat →
    (∀ i, i < len.toNat → charValue (tmemByte s (addr.toNat + i)) r.toNat = some (vs.getD i 0)) →
    let m := digits s.params.base (textNumber r.toNat vs)
    (s.params.fits m.length = true → Completes (.parse a b c d) s fun t =>
      getM t a = some m ∧ t.perr = .none ∧ t.sgn = s.sgn ∧ Frame [] [a] [] [] s t ∧ KeepsTmem s t) ∧
    (s.params.fits m.length = false → Raises (.parse a b c d) s (.capacity m.length))

/-- PARSE otherwise, in the order of its checks: UNINIT, then MEMRANGE, then the recoverable errors BAD_RADIX, EMPTY and
BAD_CHAR, which complete and write only PERR (R225, R230, 60_exceptions.md R281, R286). -/
def Obligations.ParseErrors : Prop :=
  ∀ (s : State) (a : MReg) (b c d : XReg),
    Encoded (wordR 0x68 a b c d 0) (.parse a b c d) ∧
    RaisesUninit (.parse a b c d) s [(.x, b), (.x, c), (.x, d)] ∧
    ∀ addr len r, getX s b = some addr → getX s c = some len → getX s d = some r →
      let sets := fun e : ParseError => Completes (.parse a b c d) s fun t =>
        t.perr = e ∧ t.sgn = s.sgn ∧ Frame [] [] [] [] s t ∧ KeepsTmem s t
      if 0 < len.toNat ∧ s.params.tmemSize < addr.toNat + len.toNat then
        Raises (.parse a b c d) s
          (.memRange (if s.params.tmemSize ≤ addr.toNat then addr.toNat else s.params.tmemSize))
      else if r.toNat < 2 ∨ 64 < r.toNat then sets .badRadix
      else if len.toNat = 0 then sets .empty
      else (∃ i, i < len.toNat ∧ charValue (tmemByte s (addr.toNat + i)) r.toNat = none) → sets .badChar

/-- FMT writes the L radix-r digits of the value as characters, most significant first, from address X[c], the length to
X[a] and PERR 0; no other byte changes (R231 to R234). That [0] in radix 37 to 64 is written as 'A', character 0 of the
alphabet, is the model's choice between two texts of the spec (log entry 13). -/
def Obligations.FormatNumber : Prop :=
  ∀ (s : State) (a c d : XReg) (b : MReg) (m : Magnitude) (addr r : Native) (L : Nat), Inv s →
    getM s b = some m → getX s c = some addr → getX s d = some r → 2 ≤ r.toNat → r.toNat ≤ 64 →
    IsTextLength r.toNat (val s.params.base m) L → addr.toNat + L ≤ s.params.tmemSize →
    Completes (.fmt a b c d) s fun t =>
      HasX t a L ∧ t.perr = .none ∧ t.sgn = s.sgn ∧ Frame [a] [] [] [] s t ∧ KeepsTmemOutside addr.toNat L s t ∧
      ∀ i, i < L → tmemByte t (addr.toNat + i) =
        outputChar r.toNat (val s.params.base m / r.toNat ^ (L - 1 - i) % r.toNat)

/-- FMT otherwise: UNINIT; BAD_RADIX, which completes and writes only PERR; MEMRANGE with the lowest bad address when the
text does not fit in TMEM (R225, R234, 60_exceptions.md R281). -/
def Obligations.FormatErrors : Prop :=
  ∀ (s : State) (a c d : XReg) (b : MReg), Inv s →
    Encoded (wordR 0x69 a b c d 0) (.fmt a b c d) ∧
    RaisesUninit (.fmt a b c d) s [(.m, b), (.x, c), (.x, d)] ∧
    ∀ m addr r, getM s b = some m → getX s c = some addr → getX s d = some r →
      (r.toNat < 2 ∨ 64 < r.toNat → Completes (.fmt a b c d) s fun t =>
        t.perr = .badRadix ∧ t.sgn = s.sgn ∧ Frame [] [] [] [] s t ∧ KeepsTmem s t) ∧
      ∀ L, 2 ≤ r.toNat → r.toNat ≤ 64 → IsTextLength r.toNat (val s.params.base m) L →
        s.params.tmemSize < addr.toNat + L →
        Raises (.fmt a b c d) s
          (.memRange (if s.params.tmemSize ≤ addr.toNat then addr.toNat else s.params.tmemSize))

/-- Round trip: FMT of a magnitude in any legal radix, then PARSE of the text it wrote in the same radix, gives the
magnitude and PERR 0, where FMT's length register is neither its address nor its radix register (R247 (1)). -/
def Obligations.FormatThenParse : Prop :=
  ∀ (s : State) (a c d : XReg) (b e : MReg) (m : Magnitude) (addr r : Native) (L : Nat), Inv s →
    getM s b = some m → getX s c = some addr → getX s d = some r → 2 ≤ r.toNat → r.toNat ≤ 64 →
    IsTextLength r.toNat (val s.params.base m) L → addr.toNat + L ≤ s.params.tmemSize → a ≠ c → a ≠ d →
    ∃ u v, exec (.fmt a b c d) s = .next u ∧ exec (.parse e c a d) u = .next v ∧ getM v e = some m ∧ v.perr = .none

/-- RINF infers a radix from the first min(L, 2) bytes of the text, RPFX gives the length of the prefix when the radix
agrees; both check only those bytes (R235 to R238). -/
def Obligations.RadixPrefix : Prop :=
  ∀ (s : State) (a b c d : XReg),
    (Encoded (wordR 0x6A a b c 0 0) (.rinf a b c) ∧ RaisesUninit (.rinf a b c) s [(.x, b), (.x, c)]) ∧
    (Encoded (wordR 0x6B a b c d 0) (.rpfx a b c d) ∧ RaisesUninit (.rpfx a b c d) s [(.x, b), (.x, c), (.x, d)]) ∧
    ∀ addr len r, getX s b = some addr → getX s c = some len → getX s d = some r →
      let n := min len.toNat 2
      let i := inferred (tmemByte s addr.toNat) (tmemByte s (addr.toNat + 1)) len.toNat
      if 0 < n ∧ s.params.tmemSize < addr.toNat + n then
        let bad : Int := if s.params.tmemSize ≤ addr.toNat then addr.toNat else s.params.tmemSize
        Raises (.rinf a b c) s (.memRange bad) ∧ Raises (.rpfx a b c d) s (.memRange bad)
      else CompletesX (.rinf a b c) s a i ∧ CompletesX (.rpfx a b c d) s a (matchedPrefix i r.toNat)

/-- DIGVF gives the low digit of the floor of a float value, FCVT its magnitude or CAPACITY, FDCNT the digit-count
estimate; all raise FLOAT_DOMAIN for NaN, the infinities and negative values, −0.0 being zero
(40_digit_accumulator.md R95, 46_radix.md R240, R244, R245, R246). -/
def Obligations.FloatCommands : Prop :=
  ∀ (s : State) (a : BitVec 4) (b : FReg), s.params.Legal →
    (Encoded (wordR 0x21 a b 0 0 0) (.digvf a b) ∧ RaisesUninit (.digvf a b) s [(.f, b)]) ∧
    (Encoded (wordR 0x6C a b 0 0 0) (.fcvt a b) ∧ RaisesUninit (.fcvt a b) s [(.f, b)]) ∧
    (Encoded (wordR 0x6D a b 0 0 0) (.fdcnt a b) ∧ RaisesUninit (.fdcnt a b) s [(.f, b)]) ∧
    ∀ f, getF s b = some f →
      (∀ x, floatRat f = some x → 0 ≤ x →
        CompletesX (.digvf a b) s a (⌊x⌋₊ % s.params.base) ∧
        WritesChecked (.fcvt a b) s a (digits s.params.base ⌊x⌋₊) ∧
        ∃ n, IsDigitEstimate s.params.w x n ∧ CompletesX (.fdcnt a b) s a n) ∧
      ((∀ x, floatRat f = some x → x < 0) →
        Raises (.digvf a b) s (.contract .floatDomain) ∧ Raises (.fcvt a b) s (.contract .floatDomain) ∧
        Raises (.fdcnt a b) s (.contract .floatDomain))

/-! ### Pseudo-instructions (30_encoding.md R87) -/

/-- LI64 loads any 64-bit value in four commands, whatever X[a] held; MOVX copies a native register; INC and DEC add and
subtract 1 modulo 2^64 (R87, 47_control_move.md R255 to R257). -/
def Obligations.PseudoInstructions : Prop :=
  ∀ (s : State) (a b : XReg),
    (∀ v : Native, ∃ t, execAll (pseudoLi64 a v) s = .next t ∧ getX t a = some v ∧ Frame [a] [] [] [] s t ∧
      KeepsFlags s t ∧ KeepsTmem s t ∧ t.pc = s.pc + 4) ∧
    ∀ x, getX s b = some x →
      (∃ t, execAll (pseudoMovx a b) s = .next t ∧ getX t a = some x ∧ Frame [a] [] [] [] s t ∧ t.pc = s.pc + 1) ∧
      (∃ t, execAll (pseudoInc b) s = .next t ∧ getX t b = some (x + 1) ∧ Frame [b] [] [] [] s t ∧ t.pc = s.pc + 1) ∧
      ∃ t, execAll (pseudoDec b) s = .next t ∧ getX t b = some (x - 1) ∧ Frame [b] [] [] [] s t ∧ t.pc = s.pc + 1

end
end

