-- ==== Sys2Proof/Laws/Digits.lean ====
section
/-! SUPPORT. Laws/Digits.lean: magnitudes as numbers: the value of every list operation, and that a canonical magnitude
is the digit list of its value (00_scope.md R10, R11). -/

namespace Sys2Proof.Machine

variable {B : Nat}

/-! ### Values -/

@[simp] theorem val_nil : val B [] = 0 := rfl
@[simp] theorem val_cons (d : Nat) (ds : Magnitude) : val B (d :: ds) = d + B * val B ds := rfl

theorem val_append (m n : Magnitude) : val B (m ++ n) = val B m + B ^ m.length * val B n := by
  induction m with
  | nil => simp
  | cons d ds ih => simp only [List.cons_append, val_cons, ih, List.length_cons, pow_succ]; ring

@[simp] theorem val_zeros (k : Nat) : val B (List.replicate k 0) = 0 := by
  induction k with
  | zero => rfl
  | succ k ih => simp [List.replicate_succ, ih]

@[simp] theorem val_pad (m : Magnitude) (len : Nat) : val B (pad m len) = val B m := by
  simp [pad, val_append]

theorem length_pad (m : Magnitude) (len : Nat) : (pad m len).length = max m.length len := by
  simp only [pad, List.length_append, List.length_replicate]; omega

@[simp] theorem val_zerosThen (k : Nat) (m : Magnitude) : val B (zerosThen k m) = B ^ k * val B m := by
  simp [zerosThen, val_append]

@[simp] theorem val_shiftDigits (m : Magnitude) (k : Nat) : val B (shiftDigits m k) = B ^ k * val B m := by
  unfold shiftDigits
  split
  · next h => simp [h]
  · simp

@[simp] theorem val_trim (m : Magnitude) : val B (trim m) = val B m := by
  induction m using trim.induct with
  | case1 => rfl
  | case2 d => rfl
  | case3 d ds hne h ih => simp only [trim, val_cons, val_nil, ← ih, h]; simp
  | case4 d ds hne h ih => simp only [trim, if_neg h, val_cons, ih]

/-- The value of a take and a drop (43_multiply.md R163: the split of an operand). -/
theorem val_take_drop (m : Magnitude) (k : Nat) (h : k ≤ m.length) :
    val B (m.take k) + B ^ k * val B (m.drop k) = val B m := by
  conv_rhs => rw [← List.take_append_drop k m, val_append]
  simp [h]

/-- Every digit is below the base (00_scope.md R11). -/
def AllBelow (B : Nat) (m : Magnitude) : Prop := ∀ d ∈ m, d < B

theorem AllBelow.cons {d : Nat} {ds : Magnitude} (h : AllBelow B (d :: ds)) : d < B ∧ AllBelow B ds :=
  ⟨h d List.mem_cons_self, fun x hx => h x (List.mem_cons_of_mem _ hx)⟩

theorem allBelow_cons {d : Nat} {ds : Magnitude} (h : d < B) (hs : AllBelow B ds) : AllBelow B (d :: ds) := by
  intro x hx
  rcases List.mem_cons.1 hx with rfl | hx
  · exact h
  · exact hs x hx

theorem allBelow_append {m n : Magnitude} (hm : AllBelow B m) (hn : AllBelow B n) : AllBelow B (m ++ n) := by
  intro x hx
  rcases List.mem_append.1 hx with hx | hx
  · exact hm x hx
  · exact hn x hx

theorem allBelow_zeros (hB : 0 < B) (k : Nat) : AllBelow B (List.replicate k 0) := by
  intro x hx
  rw [(List.mem_replicate.1 hx).2]; exact hB

theorem allBelow_pad (hB : 0 < B) {m : Magnitude} (h : AllBelow B m) (len : Nat) : AllBelow B (pad m len) :=
  allBelow_append h (allBelow_zeros hB _)

theorem allBelow_trim {m : Magnitude} (h : AllBelow B m) : AllBelow B (trim m) := by
  induction m using trim.induct with
  | case1 => exact h
  | case2 d => exact h
  | case3 d ds hne ht ih => simp only [trim, if_pos ht]; exact fun x hx => h x (by simp at hx; simp [hx])
  | case4 d ds hne ht ih =>
    simp only [trim, if_neg ht]
    exact allBelow_cons h.cons.1 (ih h.cons.2)

theorem val_lt_pow {m : Magnitude} (h : AllBelow B m) : val B m < B ^ m.length := by
  induction m with
  | nil => simp
  | cons d ds ih =>
    have h1 := h.cons.1
    have h2 := ih h.cons.2
    simp only [val_cons, List.length_cons, pow_succ]
    calc d + B * val B ds < B + B * val B ds := by omega
      _ = B * (val B ds + 1) := by ring
      _ ≤ B * B ^ ds.length := Nat.mul_le_mul_left _ h2
      _ = B ^ ds.length * B := by ring

/-! ### Canonical magnitudes (00_scope.md R11) -/

/-- The conditions of 00_scope.md R11 as propositions. -/
theorem canonical_iff (m : Magnitude) :
    canonical B m = true ↔ m ≠ [] ∧ AllBelow B m ∧ (m.length = 1 ∨ digitAt m (m.length - 1) ≠ 0) := by
  simp only [canonical, Bool.and_eq_true, Bool.not_eq_true', List.isEmpty_eq_false_iff, List.all_eq_true,
    decide_eq_true_eq, Bool.or_eq_true, bne_iff_ne, ne_eq, and_assoc]
  rfl

theorem canonical_singleton {d : Nat} (h : d < B) : canonical B [d] = true :=
  (canonical_iff _).2 ⟨by simp, fun x hx => by rw [List.mem_singleton.1 hx]; exact h, .inl rfl⟩

theorem digitAt_cons_succ (d : Nat) (ds : Magnitude) (i : Nat) : digitAt (d :: ds) (i + 1) = digitAt ds i := by
  simp [digitAt]

/-- A longer canonical magnitude is a digit below the base before a canonical one that is not [0]. -/
theorem canonical_cons {d : Nat} {ds : Magnitude} (hds : ds ≠ []) :
    canonical B (d :: ds) = true ↔ d < B ∧ canonical B ds = true ∧ ds ≠ [0] := by
  obtain ⟨e, es, rfl⟩ := List.exists_cons_of_ne_nil hds
  have hlen : (d :: e :: es).length - 1 = es.length + 1 := by simp
  rw [canonical_iff, canonical_iff, hlen, digitAt_cons_succ]
  have hlen' : (e :: es).length - 1 = es.length := by simp
  rw [hlen']
  constructor
  · rintro ⟨-, h1, h2⟩
    have h2 : digitAt (e :: es) es.length ≠ 0 := by
      rcases h2 with h2 | h2
      · simp at h2
      · exact h2
    refine ⟨h1.cons.1, ⟨by simp, h1.cons.2, .inr h2⟩, ?_⟩
    rintro h
    simp only [List.cons.injEq] at h
    obtain ⟨rfl, rfl⟩ := h
    exact h2 rfl
  · rintro ⟨h1, ⟨-, h2, h3⟩, h4⟩
    refine ⟨by simp, allBelow_cons h1 h2, .inr ?_⟩
    rcases h3 with h3 | h3
    · have : es = [] := by simpa using h3
      subst this
      intro h0
      exact h4 (by simpa [digitAt] using h0)
    · exact h3

theorem canonical_ne_nil {m : Magnitude} (h : canonical B m = true) : m ≠ [] := ((canonical_iff m).1 h).1

theorem canonical_allBelow {m : Magnitude} (h : canonical B m = true) : AllBelow B m := ((canonical_iff m).1 h).2.1

theorem length_pos_of_canonical {m : Magnitude} (h : canonical B m = true) : 0 < m.length :=
  List.length_pos_iff.2 (canonical_ne_nil h)

/-- A trimmed list of digits is canonical. -/
theorem canonical_trim {m : Magnitude} (hne : m ≠ []) (h : AllBelow B m) : canonical B (trim m) = true := by
  induction m using trim.induct with
  | case1 => exact absurd rfl hne
  | case2 d => exact canonical_singleton (h d (by simp))
  | case3 d ds hds ht ih => simp only [trim, if_pos ht]; exact canonical_singleton h.cons.1
  | case4 d ds hds ht ih =>
    simp only [trim, if_neg ht]
    have hne' : ds ≠ [] := fun e => hds (by simp [e])
    have hc := ih hne' h.cons.2
    exact (canonical_cons (canonical_ne_nil hc)).2 ⟨h.cons.1, hc, ht⟩

/-! ### The digits of a number -/

theorem bitlen_div_lt {B v : Nat} (hB : 2 ≤ B) (hv : v ≠ 0) : bitlen (v / B) < bitlen v := by
  unfold bitlen
  rw [if_neg hv]
  split
  · exact Nat.succ_pos _
  · next h =>
    have h1 : v / B ≤ v / 2 := Nat.div_le_div_left hB (by norm_num)
    have hvB : B ≤ v := by
      by_contra hlt
      exact h (Nat.div_eq_of_lt (by omega))
    have h2 : v / 2 ≠ 0 := by omega
    have h3 : Nat.log2 (v / B) ≤ Nat.log2 (v / 2) := by
      rw [Nat.log2_eq_log_two, Nat.log2_eq_log_two]; exact Nat.log_mono_right h1
    have h4 : Nat.log2 v = Nat.log2 (v / 2) + 1 := by
      rw [Nat.log2_eq_log_two, Nat.log2_eq_log_two]
      exact Nat.log_of_one_lt_of_le (by norm_num) (by omega)
    omega

theorem bitlen_pos {v : Nat} (hv : v ≠ 0) : 0 < bitlen v := by simp [bitlen, hv]

/-- `bitlen` counts the bits: 2^(bitlen v − 1) ≤ v < 2^bitlen v (00_scope.md R8). -/
theorem lt_two_pow_bitlen (v : Nat) : v < 2 ^ bitlen v := by
  unfold bitlen
  split
  · next h => simp [h]
  · exact Nat.lt_log2_self

theorem two_pow_bitlen_le {v : Nat} (hv : v ≠ 0) : 2 ^ (bitlen v - 1) ≤ v := by
  unfold bitlen
  rw [if_neg hv]
  exact Nat.log2_self_le hv

theorem digitsAux_spec (hB : 2 ≤ B) : ∀ fuel v, bitlen v ≤ fuel →
    val B (digitsAux B fuel v) = v ∧ canonical B (digitsAux B fuel v) = true ∧
      (v ≠ 0 → digitsAux B fuel v ≠ [0]) := by
  intro fuel
  induction fuel with
  | zero =>
    intro v h
    have hv : v = 0 := by
      by_contra hv
      have := bitlen_pos hv
      omega
    subst hv
    refine ⟨by simp [digitsAux], canonical_singleton (by omega), fun h => absurd rfl h⟩
  | succ fuel ih =>
    intro v h
    unfold digitsAux
    split
    · next hlt => exact ⟨by simp, canonical_singleton hlt, fun hv => by simpa using hv⟩
    · next hge =>
      have hv : v ≠ 0 := by omega
      obtain ⟨h1, h2, h3⟩ := ih (v / B) (by have := bitlen_div_lt hB hv; omega)
      have hq : v / B ≠ 0 := by
        have := Nat.div_pos (Nat.le_of_not_lt hge) (by omega : 0 < B)
        omega
      refine ⟨by rw [val_cons, h1]; exact Nat.mod_add_div v B, ?_, fun _ hc => ?_⟩
      · exact (canonical_cons (canonical_ne_nil h2)).2 ⟨Nat.mod_lt _ (by omega), h2, h3 hq⟩
      · exact canonical_ne_nil h2 (by simpa using (List.cons.inj hc).2)

/-- `digits(v)` is the magnitude of v (00_scope.md R10). -/
@[simp] theorem val_digits (hB : 2 ≤ B) (v : Nat) : val B (digits B v) = v := (digitsAux_spec hB _ v le_rfl).1

/-- `digits(v)` is canonical (00_scope.md R10). -/
theorem canonical_digits (hB : 2 ≤ B) (v : Nat) : canonical B (digits B v) = true := (digitsAux_spec hB _ v le_rfl).2.1

/-- Canonical magnitudes of equal value are equal (00_scope.md R11). -/
theorem canonical_ext (hB : 2 ≤ B) : ∀ {m n : Magnitude}, canonical B m = true → canonical B n = true →
    val B m = val B n → m = n := by
  have key : ∀ {d e : Nat} {a b : Nat}, d < B → e < B → d + B * a = e + B * b → d = e ∧ a = b := by
    intro d e a b hd he h
    have h1 : d = e := by
      have := congrArg (· % B) h
      simpa [Nat.add_mul_mod_self_left, Nat.mod_eq_of_lt hd, Nat.mod_eq_of_lt he] using this
    subst h1
    exact ⟨rfl, Nat.eq_of_mul_eq_mul_left (by omega : 0 < B) (Nat.add_left_cancel h)⟩
  have zero_of : ∀ {m : Magnitude}, canonical B m = true → val B m = 0 → m = [0] := by
    intro m
    induction m with
    | nil => intro h; exact absurd rfl (canonical_ne_nil h)
    | cons d ds ih =>
      intro h hv
      simp only [val_cons] at hv
      have hd : d = 0 := by omega
      have hds : val B ds = 0 := by
        rcases Nat.mul_eq_zero.1 (show B * val B ds = 0 by omega) with h | h
        · omega
        · exact h
      by_cases hnil : ds = []
      · simp [hd, hnil]
      · obtain ⟨-, h2, h3⟩ := (canonical_cons hnil).1 h
        exact absurd (ih h2 hds) h3
  intro m
  induction m with
  | nil => intro n h; exact absurd rfl (canonical_ne_nil h)
  | cons d ds ih =>
    intro n hm hn hv
    cases n with
    | nil => exact absurd rfl (canonical_ne_nil hn)
    | cons e es =>
      obtain ⟨rfl, hval⟩ := key (canonical_allBelow hm).cons.1 (canonical_allBelow hn).cons.1 hv
      by_cases h1 : ds = [] <;> by_cases h2 : es = []
      · simp [h1, h2]
      · obtain ⟨-, h4, h5⟩ := (canonical_cons h2).1 hn
        exact absurd (zero_of h4 (by simp [← hval, h1])) h5
      · obtain ⟨-, h4, h5⟩ := (canonical_cons h1).1 hm
        exact absurd (zero_of h4 (by simp [hval, h2])) h5
      · rw [ih ((canonical_cons h1).1 hm).2.1 ((canonical_cons h2).1 hn).2.1 hval]

/-- A canonical magnitude is the digit list of its value. -/
theorem digits_val (hB : 2 ≤ B) {m : Magnitude} (h : canonical B m = true) : digits B (val B m) = m :=
  canonical_ext hB (canonical_digits hB _) h (val_digits hB _)

/-- A canonical list of value v is `digits(v)`: how a datapath result is read as a number. -/
theorem eq_digits (hB : 2 ≤ B) {m : Magnitude} {v : Nat} (h : canonical B m = true) (hv : val B m = v) :
    m = digits B v := hv ▸ (digits_val hB h).symm

theorem digits_zero : digits B 0 = [0] := rfl

theorem digits_of_lt {v : Nat} (h : v < B) : digits B v = [v] := by
  unfold digits
  cases bitlen v <;> simp [digitsAux, h]

/-- A canonical magnitude of value 0 is [0]. -/
theorem eq_zero_iff (hB : 2 ≤ B) {m : Magnitude} (h : canonical B m = true) : m = [0] ↔ val B m = 0 :=
  ⟨fun e => by simp [e], fun e => (eq_digits hB h e).trans digits_zero⟩

/-- The top digit of a canonical magnitude that is not [0]. -/
theorem digitAt_top_ne_zero {m : Magnitude} (h : canonical B m = true) (h0 : m ≠ [0]) :
    digitAt m (m.length - 1) ≠ 0 := by
  rcases ((canonical_iff m).1 h).2.2 with h1 | h1
  · obtain ⟨d, rfl⟩ := List.length_eq_one_iff.1 h1
    intro h2
    exact h0 (by simpa [digitAt] using h2)
  · exact h1

/-- The value by the top digit. -/
theorem val_eq_top (m : Magnitude) (h : m ≠ []) :
    val B m = val B (m.take (m.length - 1)) + B ^ (m.length - 1) * digitAt m (m.length - 1) := by
  have hl : 0 < m.length := List.length_pos_iff.2 h
  have h1 := val_take_drop (B := B) m (m.length - 1) (by omega)
  have h2 : m.drop (m.length - 1) = [digitAt m (m.length - 1)] := by
    rw [List.drop_eq_getElem_cons (by omega)]
    have h3 : m.drop (m.length - 1 + 1) = [] := List.drop_eq_nil_of_le (by omega)
    rw [h3]
    simp [digitAt, List.getElem?_eq_getElem (show m.length - 1 < m.length by omega)]
  rw [h2] at h1
  simpa using h1.symm

/-- The length of a nonzero canonical magnitude locates its value: B^(len − 1) ≤ v < B^len. -/
theorem pow_le_val {m : Magnitude} (h : canonical B m = true) (h0 : m ≠ [0]) :
    B ^ (m.length - 1) ≤ val B m := by
  rw [val_eq_top m (canonical_ne_nil h)]
  have := Nat.pos_of_ne_zero (digitAt_top_ne_zero h h0)
  calc B ^ (m.length - 1) = B ^ (m.length - 1) * 1 := (mul_one _).symm
    _ ≤ B ^ (m.length - 1) * digitAt m (m.length - 1) := Nat.mul_le_mul_left _ this
    _ ≤ _ := Nat.le_add_left _ _

/-- Magnitudes below B^k have at most k digits. -/
theorem length_le_of_val_lt (hB : 2 ≤ B) {m : Magnitude} (h : canonical B m = true) {k : Nat} (hk : 1 ≤ k)
    (hv : val B m < B ^ k) : m.length ≤ k := by
  by_cases h0 : m = [0]
  · simp [h0, hk]
  · have h1 := pow_le_val h h0
    have h2 := (Nat.pow_lt_pow_iff_right (by omega : 1 < B)).1 (lt_of_le_of_lt h1 hv)
    omega

/-- A canonical magnitude of greater length has the greater value (41_compare.md R130). -/
theorem val_lt_of_length_lt (hB : 2 ≤ B) {m n : Magnitude} (hm : m ≠ []) (hm' : AllBelow B m)
    (hn : canonical B n = true) (h : m.length < n.length) : val B m < val B n := by
  have hl := List.length_pos_iff.2 hm
  have h0 : n ≠ [0] := by
    rintro rfl
    simp at h
    exact hm h
  have h3 : B ^ m.length ≤ B ^ (n.length - 1) := Nat.pow_le_pow_right (by omega) (by omega)
  exact lt_of_lt_of_le (val_lt_pow hm') (h3.trans (pow_le_val hn h0))

end Sys2Proof.Machine
end

