-- ==== Sys2Proof/Laws/Arith.lean ====
section
/-! SUPPORT. Laws/Arith.lean: the order of magnitudes is the order of values (41_compare.md R130), the adder adds
(42_add_sub.md R140) and the subtractor subtracts (R145, R146). -/

namespace Sys2Proof.Machine

variable {B : Nat}

/-! ### Signs -/

theorem sgnSub_of_lt {p q : Nat} (h : p < q) : sgnSub p q = .negative := by
  simp [sgnSub, sgn]; omega

theorem sgnSub_of_gt {p q : Nat} (h : q < p) : sgnSub p q = .positive := by
  simp only [sgnSub, sgn]
  rw [if_neg (by omega), if_neg (by omega)]

@[simp] theorem sgnSub_self (p : Nat) : sgnSub p p = .zero := by simp [sgnSub, sgn]

theorem sgnSub_eq_positive {p q : Nat} : sgnSub p q = .positive ↔ q < p := by
  rcases lt_trichotomy p q with h | rfl | h
  · simp [sgnSub_of_lt h, h.le]
  · simp
  · simp [sgnSub_of_gt h, h]

theorem sgnSub_eq_negative {p q : Nat} : sgnSub p q = .negative ↔ p < q := by
  rcases lt_trichotomy p q with h | rfl | h
  · simp [sgnSub_of_lt h, h]
  · simp
  · simp [sgnSub_of_gt h, h.le]

theorem sgnSub_eq_zero {p q : Nat} : sgnSub p q = .zero ↔ p = q := by
  rcases lt_trichotomy p q with h | rfl | h
  · simp [sgnSub_of_lt h, h.ne]
  · simp
  · simp [sgnSub_of_gt h, h.ne']

/-! ### Comparison -/

theorem val_reverse_cons (d : Nat) (ds : List Nat) :
    val B (d :: ds).reverse = val B ds.reverse + B ^ ds.length * d := by
  simp [val_append]

theorem allBelow_reverse {m : Magnitude} (h : AllBelow B m) : AllBelow B m.reverse :=
  fun x hx => h x (List.mem_reverse.1 hx)

theorem compareTopFirst_eq : ∀ (ps qs : List Nat), ps.length = qs.length → AllBelow B ps → AllBelow B qs →
    compareTopFirst ps qs = sgnSub (val B ps.reverse) (val B qs.reverse) := by
  intro ps
  induction ps with
  | nil => intro qs h _ _; rw [List.length_eq_zero_iff.1 h.symm]; simp [compareTopFirst]
  | cons p ps ih =>
    intro qs h hp hq
    cases qs with
    | nil => simp at h
    | cons q qs =>
      have hl : ps.length = qs.length := by simpa using h
      have h1 := val_lt_pow (allBelow_reverse hp.cons.2)
      have h2 := val_lt_pow (allBelow_reverse hq.cons.2)
      rw [List.length_reverse] at h1 h2
      rw [val_reverse_cons, val_reverse_cons, ← hl]
      rw [← hl] at h2
      have step : ∀ {a b x y : Nat}, a < B ^ ps.length → x < y → a + B ^ ps.length * x < b + B ^ ps.length * y := by
        intro a b x y ha hxy
        have : B ^ ps.length * (x + 1) ≤ B ^ ps.length * y := Nat.mul_le_mul_left _ hxy
        rw [Nat.mul_add, Nat.mul_one] at this
        omega
      unfold compareTopFirst
      by_cases hpq : p = q
      · subst hpq
        rw [if_neg (by simp), ih qs hl hp.cons.2 hq.cons.2]
        rcases lt_trichotomy (val B ps.reverse) (val B qs.reverse) with h | h | h
        · rw [sgnSub_of_lt h, sgnSub_of_lt (by omega)]
        · rw [h, sgnSub_self, sgnSub_self]
        · rw [sgnSub_of_gt h, sgnSub_of_gt (by omega)]
      · rw [if_pos hpq]
        rcases Nat.lt_or_gt_of_ne hpq with h | h
        · rw [sgnSub_of_lt h, sgnSub_of_lt (step h1 h)]
        · rw [sgnSub_of_gt h, sgnSub_of_gt (step h2 h)]

/-- `compare(p, q) = sgn(val(p) − val(q))` on canonical magnitudes (41_compare.md R130). -/
theorem compareMag_eq (hB : 2 ≤ B) {p q : Magnitude} (hp : canonical B p = true) (hq : canonical B q = true) :
    compareMag p q = sgnSub (val B p) (val B q) := by
  unfold compareMag
  by_cases h : p.length = q.length
  · rw [if_neg (by simpa using h), compareTopFirst_eq (B := B) _ _ (by simpa using h)
      (allBelow_reverse (canonical_allBelow hp)) (allBelow_reverse (canonical_allBelow hq))]
    simp
  · rw [if_pos h]
    rcases Nat.lt_or_gt_of_ne h with h | h
    · rw [sgnSub_of_lt h, sgnSub_of_lt (val_lt_of_length_lt hB (canonical_ne_nil hp) (canonical_allBelow hp) hq h)]
    · rw [sgnSub_of_gt h, sgnSub_of_gt (val_lt_of_length_lt hB (canonical_ne_nil hq) (canonical_allBelow hq) hp h)]

/-! ### Addition -/

/-- One digit position of an addition modulo a power of the base. -/
theorem mod_step (hB : 0 < B) (s x M : Nat) : s % B + B * ((x + s / B) % M) = (s + B * x) % (B * M) := by
  rw [Nat.mod_mul, Nat.add_mul_mod_self_left, Nat.add_mul_div_left _ _ hB, Nat.add_comm x]

theorem val_propagate (hB : 0 < B) : ∀ (r : Magnitude) (c : Nat), AllBelow B r →
    val B (propagate B r c) = (val B r + c) % B ^ r.length := by
  intro r
  induction r with
  | nil => intro c _; simp [propagate, Nat.mod_one]
  | cons d ds ih =>
    intro c h
    unfold propagate
    split
    · next hc => subst hc; rw [Nat.add_zero, Nat.mod_eq_of_lt (val_lt_pow h)]
    · rw [val_cons, ih _ h.cons.2, mod_step hB, val_cons, List.length_cons, pow_succ, Nat.mul_comm B (B ^ _)]
      congr 1; ring

theorem propagate_spec (hB : 0 < B) : ∀ (r : Magnitude) (c : Nat), AllBelow B r →
    AllBelow B (propagate B r c) ∧ (propagate B r c).length = r.length := by
  intro r
  induction r with
  | nil => intro c h; exact ⟨h, rfl⟩
  | cons d ds ih =>
    intro c h
    unfold propagate
    split
    · exact ⟨h, rfl⟩
    · exact ⟨allBelow_cons (Nat.mod_lt _ hB) (ih _ h.cons.2).1, by simp [(ih ((d + c) / B) h.cons.2).2]⟩

theorem addInto_spec (hB : 0 < B) : ∀ (r q : Magnitude) (c : Nat), AllBelow B r → q.length ≤ r.length →
    val B (addInto B r q c) = (val B r + val B q + c) % B ^ r.length ∧ AllBelow B (addInto B r q c) ∧
      (addInto B r q c).length = r.length := by
  intro r
  induction r with
  | nil =>
    intro q c h hl
    have : q = [] := by simpa using hl
    subst this
    simpa [addInto, propagate, Nat.mod_one] using h
  | cons d ds ih =>
    intro q c h hl
    cases q with
    | nil =>
      have := propagate_spec hB (d :: ds) c h
      exact ⟨by simp only [addInto, val_propagate hB _ c h, val_nil, Nat.add_zero], by simpa [addInto] using this⟩
    | cons e es =>
      have hl' : es.length ≤ ds.length := by simpa using hl
      obtain ⟨h1, h2, h3⟩ := ih es ((d + e + c) / B) h.cons.2 hl'
      refine ⟨?_, allBelow_cons (Nat.mod_lt _ hB) h2, by simp [addInto, h3]⟩
      simp only [addInto, val_cons, h1, mod_step hB, List.length_cons, pow_succ, Nat.mul_comm (B ^ _) B]
      congr 1; ring

theorem pad_ne_nil {m : Magnitude} {len : Nat} (h : 0 < len) : pad m len ≠ [] := by
  intro e
  have := length_pad m len
  rw [e] at this
  simp at this
  omega

/-- The adder: the sum's canonical magnitude (42_add_sub.md R140). -/
theorem addMag_spec (hB : 2 ≤ B) {p q : Magnitude} (hp : AllBelow B p) (hq : AllBelow B q) :
    val B (addMag B p q) = val B p + val B q ∧ canonical B (addMag B p q) = true := by
  have h0 : 0 < B := by omega
  have hl := length_pad p (max p.length q.length + 1)
  obtain ⟨h1, h2, h3⟩ := addInto_spec h0 (pad p (max p.length q.length + 1)) q 0 (allBelow_pad h0 hp _)
    (by rw [hl]; omega)
  have hpow : ∀ {k}, k ≤ max p.length q.length → B ^ k ≤ B ^ max p.length q.length :=
    fun h => Nat.pow_le_pow_right h0 h
  have hsum : val B p + val B q < B ^ (pad p (max p.length q.length + 1)).length := by
    have hv1 := lt_of_lt_of_le (val_lt_pow hp) (hpow (le_max_left _ _))
    have hv2 := lt_of_lt_of_le (val_lt_pow hq) (hpow (le_max_right _ _))
    have : B ^ (max p.length q.length + 1) ≤ B ^ (pad p (max p.length q.length + 1)).length :=
      Nat.pow_le_pow_right h0 (by rw [hl]; omega)
    have h2B : 2 * B ^ max p.length q.length ≤ B ^ (max p.length q.length + 1) := by
      rw [pow_succ, Nat.mul_comm]; exact Nat.mul_le_mul_left _ hB
    omega
  refine ⟨?_, canonical_trim ?_ h2⟩
  · rw [addMag, val_trim, h1, val_pad, Nat.add_zero, Nat.mod_eq_of_lt hsum]
  · intro e
    have := h3
    rw [e, hl] at this
    simp at this
    omega

/-- `add(p, q) = digits(val(p) + val(q))` (42_add_sub.md R140). -/
theorem addMag_eq_digits (hB : 2 ≤ B) {p q : Magnitude} (hp : AllBelow B p) (hq : AllBelow B q) :
    addMag B p q = digits B (val B p + val B q) :=
  eq_digits hB (addMag_spec hB hp hq).2 (addMag_spec hB hp hq).1

/-! ### Subtraction -/

theorem allBelow_complement (hB : 0 < B) (m : Magnitude) : AllBelow B (complement B m) := by
  intro x hx
  obtain ⟨d, -, rfl⟩ := List.mem_map.1 hx
  omega

@[simp] theorem length_complement (m : Magnitude) : (complement B m).length = m.length := by simp [complement]

/-- `val(~m) = (B^L − 1) − val(m)` (42_add_sub.md R145). -/
theorem val_complement {m : Magnitude} (h : AllBelow B m) : val B (complement B m) + val B m + 1 = B ^ m.length := by
  induction m with
  | nil => simp [complement]
  | cons d ds ih =>
    have h1 := h.cons.1
    have h2 := ih h.cons.2
    simp only [complement, List.map_cons, val_cons, List.length_cons, pow_succ] at h2 ⊢
    rw [← h2]
    have : B - 1 - d + d + 1 = B := by omega
    generalize val B (List.map (fun d => B - 1 - d) ds) = x
    generalize val B ds = y
    calc B - 1 - d + B * x + (d + B * y) + 1 = (B - 1 - d + d + 1) + B * (x + y) := by ring
      _ = (x + y + 1) * B := by rw [this]; ring

theorem complement_complement {m : Magnitude} (h : AllBelow B m) : complement B (complement B m) = m := by
  simp only [complement, List.map_map]
  conv_rhs => rw [← List.map_id m]
  refine List.map_congr_left fun d hd => ?_
  have := h d hd
  simp; omega

theorem addFixed_spec (hB : 0 < B) : ∀ (c q : Magnitude) (carry : Nat), q.length ≤ c.length →
    val B (addFixed B c q carry).1 + B ^ c.length * (addFixed B c q carry).2 = val B c + val B q + carry ∧
      AllBelow B (addFixed B c q carry).1 ∧ (addFixed B c q carry).1.length = c.length := by
  intro c
  induction c with
  | nil =>
    intro q carry h
    have : q = [] := by simpa using h
    subst this
    simp [addFixed, AllBelow]
  | cons d ds ih =>
    intro q carry h
    have hl : q.tail.length ≤ ds.length := by simp at h ⊢; omega
    obtain ⟨h1, h2, h3⟩ := ih q.tail ((d + q.headD 0 + carry) / B) hl
    have hq : val B q = q.headD 0 + B * val B q.tail := by cases q <;> simp
    refine ⟨?_, allBelow_cons (Nat.mod_lt _ hB) h2, by simp only [addFixed, List.length_cons, h3]⟩
    simp only [addFixed, val_cons, List.length_cons, pow_succ]
    have hdm := Nat.mod_add_div (d + q.headD 0 + carry) B
    generalize (addFixed B ds q.tail ((d + q.headD 0 + carry) / B)).2 = o at *
    generalize val B (addFixed B ds q.tail ((d + q.headD 0 + carry) / B)).1 = y at *
    generalize (d + q.headD 0 + carry) / B = k at *
    generalize (d + q.headD 0 + carry) % B = t at *
    rw [hq]
    calc t + B * y + B ^ ds.length * B * o = t + B * (y + B ^ ds.length * o) := by ring
      _ = t + B * (val B ds + val B q.tail + k) := by rw [h1]
      _ = (t + B * k) + B * (val B ds + val B q.tail) := by ring
      _ = d + q.headD 0 + carry + B * (val B ds + val B q.tail) := by rw [hdm]
      _ = _ := by ring

theorem increment_spec (hB : 0 < B) : ∀ (t : Magnitude) (e : Nat),
    val B (increment B t e) = (val B t + e) % B ^ t.length ∧ AllBelow B (increment B t e) ∧
      (increment B t e).length = t.length := by
  intro t
  induction t with
  | nil => intro e; simp [increment, AllBelow, Nat.mod_one]
  | cons d ds ih =>
    intro e
    obtain ⟨h1, h2, h3⟩ := ih ((d + e) / B)
    refine ⟨?_, allBelow_cons (Nat.mod_lt _ hB) h2, by simp [increment, h3]⟩
    simp only [increment, val_cons, h1, mod_step hB, List.length_cons, pow_succ, Nat.mul_comm (B ^ _) B]
    congr 1; ring

/-- The subtractor: the sign of the difference and the canonical magnitude of its absolute value (42_add_sub.md R145,
with the polarity of R146). -/
theorem subMag_eq (hB : 2 ≤ B) {p q : Magnitude} (hp : canonical B p = true) (hq : canonical B q = true) :
    subMag B p q = (sgnSub (val B p) (val B q),
      digits B (if val B q ≤ val B p then val B p - val B q else val B q - val B p)) := by
  have h0 : 0 < B := by omega
  set L := max p.length q.length with hL
  have hpl : (pad p L).length = L := by rw [length_pad]; omega
  have hLpos : 0 < L := by have := length_pos_of_canonical hp; omega
  have hpb := allBelow_pad h0 (canonical_allBelow hp) L
  have hc := val_complement hpb
  rw [hpl, val_pad] at hc
  obtain ⟨h1, h2, h3⟩ := addFixed_spec h0 (complement B (pad p L)) q 0 (by rw [length_complement, hpl]; omega)
  rw [length_complement, hpl] at h1 h3
  have hQ : val B q < B ^ L := lt_of_lt_of_le (val_lt_pow (canonical_allBelow hq)) (Nat.pow_le_pow_right h0 (by omega))
  unfold subMag
  simp only [← hL]
  generalize addFixed B (complement B (pad p L)) q 0 = r at *
  obtain ⟨t, top⟩ := r
  simp only at h1 h2 h3 ⊢
  have htlt := val_lt_pow h2
  rw [h3] at htlt
  have hne : ∀ {m : Magnitude}, m.length = L → m ≠ [] := by
    rintro m hm rfl
    simp at hm
    omega
  by_cases hle : val B q ≤ val B p
  · have htop : top = 0 := by
      by_contra hne'
      have : B ^ L * 1 ≤ B ^ L * top := Nat.mul_le_mul_left _ (by omega)
      omega
    subst htop
    rw [if_neg (by omega)]
    have hct := val_complement h2
    rw [h3] at hct
    have hv : val B (trim (complement B t)) = val B p - val B q := by rw [val_trim]; omega
    have hcan := canonical_trim (hne (by rw [length_complement, h3])) (allBelow_complement h0 t)
    simp only [signOrZero, if_pos hle]
    by_cases hz : trim (complement B t) = [0]
    · have : val B p - val B q = 0 := by rw [← hv, hz]; simp
      have heq : val B p = val B q := by omega
      rw [if_pos hz, hz, heq, sgnSub_self]
      simp [digits_zero]
    · have : val B p - val B q ≠ 0 := by rw [← hv]; exact fun h => hz ((eq_zero_iff hB hcan).2 h)
      rw [if_neg hz, sgnSub_of_gt (by omega), ← eq_digits hB hcan hv]
  · have htop : top = 1 := by
      have h5 : top ≠ 0 := by
        rintro rfl
        omega
      have h6 : top < 2 := by
        by_contra hge
        have : B ^ L * 2 ≤ B ^ L * top := Nat.mul_le_mul_left _ (by omega)
        omega
      omega
    subst htop
    rw [if_pos rfl]
    obtain ⟨i1, i2, i3⟩ := increment_spec h0 t 1
    rw [h3] at i1 i3
    rw [complement_complement i2]
    have hv : val B (trim (increment B t 1)) = val B q - val B p := by
      rw [val_trim, i1, Nat.mod_eq_of_lt (by omega)]; omega
    have hcan := canonical_trim (hne i3) i2
    have hz : trim (increment B t 1) ≠ [0] := by
      intro h
      have : val B q - val B p = 0 := by rw [← hv, h]; simp
      omega
    simp only [signOrZero, if_neg hz, if_neg hle]
    rw [sgnSub_of_lt (by omega), ← eq_digits hB hcan hv]

end Sys2Proof.Machine
end

