-- ==== Sys2Proof/Laws/State.lean ====
section
/-! SUPPORT. Laws/State.lean: one lemma per field and update of the state, so that no proof unfolds a record update. -/

namespace Sys2Proof.Machine

variable (s : State)

/-! ### setX -/

@[simp] theorem setX_params (r : XReg) (v : Native) : (setX s r v).params = s.params := rfl
@[simp] theorem setX_x (r : XReg) (v : Native) : (setX s r v).x = s.x.set r.toNat (some v) r.isLt := rfl
@[simp] theorem setX_m (r : XReg) (v : Native) : (setX s r v).m = s.m := rfl
@[simp] theorem setX_e (r : XReg) (v : Native) : (setX s r v).e = s.e := rfl
@[simp] theorem setX_f (r : XReg) (v : Native) : (setX s r v).f = s.f := rfl
@[simp] theorem setX_pc (r : XReg) (v : Native) : (setX s r v).pc = s.pc := rfl
@[simp] theorem setX_sgn (r : XReg) (v : Native) : (setX s r v).sgn = s.sgn := rfl
@[simp] theorem setX_perr (r : XReg) (v : Native) : (setX s r v).perr = s.perr := rfl
@[simp] theorem setX_runState (r : XReg) (v : Native) : (setX s r v).runState = s.runState := rfl
@[simp] theorem setX_faultCause (r : XReg) (v : Native) : (setX s r v).faultCause = s.faultCause := rfl
@[simp] theorem setX_faultPc (r : XReg) (v : Native) : (setX s r v).faultPc = s.faultPc := rfl
@[simp] theorem setX_faultInfo (r : XReg) (v : Native) : (setX s r v).faultInfo = s.faultInfo := rfl
@[simp] theorem setX_imem (r : XReg) (v : Native) : (setX s r v).imem = s.imem := rfl
@[simp] theorem setX_tmem (r : XReg) (v : Native) : (setX s r v).tmem = s.tmem := rfl
@[simp] theorem setX_memEpoch (r : XReg) (v : Native) : (setX s r v).memEpoch = s.memEpoch := rfl
@[simp] theorem getM_setX (r : XReg) (v : Native) (q : MReg) : getM (setX s r v) q = getM s q := rfl
@[simp] theorem getE_setX (r : XReg) (v : Native) (q : EReg) : getE (setX s r v) q = getE s q := rfl
@[simp] theorem getF_setX (r : XReg) (v : Native) (q : FReg) : getF (setX s r v) q = getF s q := rfl
@[simp] theorem tmemByte_setX (r : XReg) (v : Native) (a : Nat) : tmemByte (setX s r v) a = tmemByte s a := rfl
@[simp] theorem imemWord_setX (r : XReg) (v : Native) (j : Nat) : imemWord (setX s r v) j = imemWord s j := rfl

/-! ### setM -/

@[simp] theorem setM_params (r : MReg) (v : Magnitude) : (setM s r v).params = s.params := rfl
@[simp] theorem setM_x (r : MReg) (v : Magnitude) : (setM s r v).x = s.x := rfl
@[simp] theorem setM_m (r : MReg) (v : Magnitude) : (setM s r v).m = s.m.set r.toNat (some v) r.isLt := rfl
@[simp] theorem setM_e (r : MReg) (v : Magnitude) : (setM s r v).e = s.e := rfl
@[simp] theorem setM_f (r : MReg) (v : Magnitude) : (setM s r v).f = s.f := rfl
@[simp] theorem setM_pc (r : MReg) (v : Magnitude) : (setM s r v).pc = s.pc := rfl
@[simp] theorem setM_sgn (r : MReg) (v : Magnitude) : (setM s r v).sgn = s.sgn := rfl
@[simp] theorem setM_perr (r : MReg) (v : Magnitude) : (setM s r v).perr = s.perr := rfl
@[simp] theorem setM_runState (r : MReg) (v : Magnitude) : (setM s r v).runState = s.runState := rfl
@[simp] theorem setM_faultCause (r : MReg) (v : Magnitude) : (setM s r v).faultCause = s.faultCause := rfl
@[simp] theorem setM_faultPc (r : MReg) (v : Magnitude) : (setM s r v).faultPc = s.faultPc := rfl
@[simp] theorem setM_faultInfo (r : MReg) (v : Magnitude) : (setM s r v).faultInfo = s.faultInfo := rfl
@[simp] theorem setM_imem (r : MReg) (v : Magnitude) : (setM s r v).imem = s.imem := rfl
@[simp] theorem setM_tmem (r : MReg) (v : Magnitude) : (setM s r v).tmem = s.tmem := rfl
@[simp] theorem setM_memEpoch (r : MReg) (v : Magnitude) : (setM s r v).memEpoch = s.memEpoch := rfl
@[simp] theorem getX_setM (r : MReg) (v : Magnitude) (q : XReg) : getX (setM s r v) q = getX s q := rfl
@[simp] theorem getE_setM (r : MReg) (v : Magnitude) (q : EReg) : getE (setM s r v) q = getE s q := rfl
@[simp] theorem getF_setM (r : MReg) (v : Magnitude) (q : FReg) : getF (setM s r v) q = getF s q := rfl
@[simp] theorem tmemByte_setM (r : MReg) (v : Magnitude) (a : Nat) : tmemByte (setM s r v) a = tmemByte s a := rfl
@[simp] theorem imemWord_setM (r : MReg) (v : Magnitude) (j : Nat) : imemWord (setM s r v) j = imemWord s j := rfl

/-! ### setE -/

@[simp] theorem setE_params (r : EReg) (v : Nat) : (setE s r v).params = s.params := rfl
@[simp] theorem setE_x (r : EReg) (v : Nat) : (setE s r v).x = s.x := rfl
@[simp] theorem setE_m (r : EReg) (v : Nat) : (setE s r v).m = s.m := rfl
@[simp] theorem setE_e (r : EReg) (v : Nat) : (setE s r v).e = s.e.set r.toNat (some v) r.isLt := rfl
@[simp] theorem setE_f (r : EReg) (v : Nat) : (setE s r v).f = s.f := rfl
@[simp] theorem setE_pc (r : EReg) (v : Nat) : (setE s r v).pc = s.pc := rfl
@[simp] theorem setE_sgn (r : EReg) (v : Nat) : (setE s r v).sgn = s.sgn := rfl
@[simp] theorem setE_perr (r : EReg) (v : Nat) : (setE s r v).perr = s.perr := rfl
@[simp] theorem setE_runState (r : EReg) (v : Nat) : (setE s r v).runState = s.runState := rfl
@[simp] theorem setE_faultCause (r : EReg) (v : Nat) : (setE s r v).faultCause = s.faultCause := rfl
@[simp] theorem setE_faultPc (r : EReg) (v : Nat) : (setE s r v).faultPc = s.faultPc := rfl
@[simp] theorem setE_faultInfo (r : EReg) (v : Nat) : (setE s r v).faultInfo = s.faultInfo := rfl
@[simp] theorem setE_imem (r : EReg) (v : Nat) : (setE s r v).imem = s.imem := rfl
@[simp] theorem setE_tmem (r : EReg) (v : Nat) : (setE s r v).tmem = s.tmem := rfl
@[simp] theorem setE_memEpoch (r : EReg) (v : Nat) : (setE s r v).memEpoch = s.memEpoch := rfl
@[simp] theorem getX_setE (r : EReg) (v : Nat) (q : XReg) : getX (setE s r v) q = getX s q := rfl
@[simp] theorem getM_setE (r : EReg) (v : Nat) (q : MReg) : getM (setE s r v) q = getM s q := rfl
@[simp] theorem getF_setE (r : EReg) (v : Nat) (q : FReg) : getF (setE s r v) q = getF s q := rfl
@[simp] theorem tmemByte_setE (r : EReg) (v : Nat) (a : Nat) : tmemByte (setE s r v) a = tmemByte s a := rfl
@[simp] theorem imemWord_setE (r : EReg) (v : Nat) (j : Nat) : imemWord (setE s r v) j = imemWord s j := rfl

/-! ### setF -/

@[simp] theorem setF_params (r : FReg) (v : Native) : (setF s r v).params = s.params := rfl
@[simp] theorem setF_x (r : FReg) (v : Native) : (setF s r v).x = s.x := rfl
@[simp] theorem setF_m (r : FReg) (v : Native) : (setF s r v).m = s.m := rfl
@[simp] theorem setF_e (r : FReg) (v : Native) : (setF s r v).e = s.e := rfl
@[simp] theorem setF_f (r : FReg) (v : Native) : (setF s r v).f = s.f.set r.toNat (some v) r.isLt := rfl
@[simp] theorem setF_pc (r : FReg) (v : Native) : (setF s r v).pc = s.pc := rfl
@[simp] theorem setF_sgn (r : FReg) (v : Native) : (setF s r v).sgn = s.sgn := rfl
@[simp] theorem setF_perr (r : FReg) (v : Native) : (setF s r v).perr = s.perr := rfl
@[simp] theorem setF_runState (r : FReg) (v : Native) : (setF s r v).runState = s.runState := rfl
@[simp] theorem setF_faultCause (r : FReg) (v : Native) : (setF s r v).faultCause = s.faultCause := rfl
@[simp] theorem setF_faultPc (r : FReg) (v : Native) : (setF s r v).faultPc = s.faultPc := rfl
@[simp] theorem setF_faultInfo (r : FReg) (v : Native) : (setF s r v).faultInfo = s.faultInfo := rfl
@[simp] theorem setF_imem (r : FReg) (v : Native) : (setF s r v).imem = s.imem := rfl
@[simp] theorem setF_tmem (r : FReg) (v : Native) : (setF s r v).tmem = s.tmem := rfl
@[simp] theorem setF_memEpoch (r : FReg) (v : Native) : (setF s r v).memEpoch = s.memEpoch := rfl
@[simp] theorem getX_setF (r : FReg) (v : Native) (q : XReg) : getX (setF s r v) q = getX s q := rfl
@[simp] theorem getM_setF (r : FReg) (v : Native) (q : MReg) : getM (setF s r v) q = getM s q := rfl
@[simp] theorem getE_setF (r : FReg) (v : Native) (q : EReg) : getE (setF s r v) q = getE s q := rfl
@[simp] theorem tmemByte_setF (r : FReg) (v : Native) (a : Nat) : tmemByte (setF s r v) a = tmemByte s a := rfl
@[simp] theorem imemWord_setF (r : FReg) (v : Native) (j : Nat) : imemWord (setF s r v) j = imemWord s j := rfl

/-! ### setSgn -/

@[simp] theorem setSgn_params (v : Sign) : (setSgn s v).params = s.params := rfl
@[simp] theorem setSgn_x (v : Sign) : (setSgn s v).x = s.x := rfl
@[simp] theorem setSgn_m (v : Sign) : (setSgn s v).m = s.m := rfl
@[simp] theorem setSgn_e (v : Sign) : (setSgn s v).e = s.e := rfl
@[simp] theorem setSgn_f (v : Sign) : (setSgn s v).f = s.f := rfl
@[simp] theorem setSgn_pc (v : Sign) : (setSgn s v).pc = s.pc := rfl
@[simp] theorem setSgn_sgn (v : Sign) : (setSgn s v).sgn = v := rfl
@[simp] theorem setSgn_perr (v : Sign) : (setSgn s v).perr = s.perr := rfl
@[simp] theorem setSgn_runState (v : Sign) : (setSgn s v).runState = s.runState := rfl
@[simp] theorem setSgn_faultCause (v : Sign) : (setSgn s v).faultCause = s.faultCause := rfl
@[simp] theorem setSgn_faultPc (v : Sign) : (setSgn s v).faultPc = s.faultPc := rfl
@[simp] theorem setSgn_faultInfo (v : Sign) : (setSgn s v).faultInfo = s.faultInfo := rfl
@[simp] theorem setSgn_imem (v : Sign) : (setSgn s v).imem = s.imem := rfl
@[simp] theorem setSgn_tmem (v : Sign) : (setSgn s v).tmem = s.tmem := rfl
@[simp] theorem setSgn_memEpoch (v : Sign) : (setSgn s v).memEpoch = s.memEpoch := rfl
@[simp] theorem getX_setSgn (v : Sign) (q : XReg) : getX (setSgn s v) q = getX s q := rfl
@[simp] theorem getM_setSgn (v : Sign) (q : MReg) : getM (setSgn s v) q = getM s q := rfl
@[simp] theorem getE_setSgn (v : Sign) (q : EReg) : getE (setSgn s v) q = getE s q := rfl
@[simp] theorem getF_setSgn (v : Sign) (q : FReg) : getF (setSgn s v) q = getF s q := rfl
@[simp] theorem tmemByte_setSgn (v : Sign) (a : Nat) : tmemByte (setSgn s v) a = tmemByte s a := rfl
@[simp] theorem imemWord_setSgn (v : Sign) (j : Nat) : imemWord (setSgn s v) j = imemWord s j := rfl

/-! ### setPerr -/

@[simp] theorem setPerr_params (v : ParseError) : (setPerr s v).params = s.params := rfl
@[simp] theorem setPerr_x (v : ParseError) : (setPerr s v).x = s.x := rfl
@[simp] theorem setPerr_m (v : ParseError) : (setPerr s v).m = s.m := rfl
@[simp] theorem setPerr_e (v : ParseError) : (setPerr s v).e = s.e := rfl
@[simp] theorem setPerr_f (v : ParseError) : (setPerr s v).f = s.f := rfl
@[simp] theorem setPerr_pc (v : ParseError) : (setPerr s v).pc = s.pc := rfl
@[simp] theorem setPerr_sgn (v : ParseError) : (setPerr s v).sgn = s.sgn := rfl
@[simp] theorem setPerr_perr (v : ParseError) : (setPerr s v).perr = v := rfl
@[simp] theorem setPerr_runState (v : ParseError) : (setPerr s v).runState = s.runState := rfl
@[simp] theorem setPerr_faultCause (v : ParseError) : (setPerr s v).faultCause = s.faultCause := rfl
@[simp] theorem setPerr_faultPc (v : ParseError) : (setPerr s v).faultPc = s.faultPc := rfl
@[simp] theorem setPerr_faultInfo (v : ParseError) : (setPerr s v).faultInfo = s.faultInfo := rfl
@[simp] theorem setPerr_imem (v : ParseError) : (setPerr s v).imem = s.imem := rfl
@[simp] theorem setPerr_tmem (v : ParseError) : (setPerr s v).tmem = s.tmem := rfl
@[simp] theorem setPerr_memEpoch (v : ParseError) : (setPerr s v).memEpoch = s.memEpoch := rfl
@[simp] theorem getX_setPerr (v : ParseError) (q : XReg) : getX (setPerr s v) q = getX s q := rfl
@[simp] theorem getM_setPerr (v : ParseError) (q : MReg) : getM (setPerr s v) q = getM s q := rfl
@[simp] theorem getE_setPerr (v : ParseError) (q : EReg) : getE (setPerr s v) q = getE s q := rfl
@[simp] theorem getF_setPerr (v : ParseError) (q : FReg) : getF (setPerr s v) q = getF s q := rfl
@[simp] theorem tmemByte_setPerr (v : ParseError) (a : Nat) : tmemByte (setPerr s v) a = tmemByte s a := rfl
@[simp] theorem imemWord_setPerr (v : ParseError) (j : Nat) : imemWord (setPerr s v) j = imemWord s j := rfl

/-! ### setPc -/

@[simp] theorem setPc_params (v : BitVec 32) : (setPc s v).params = s.params := rfl
@[simp] theorem setPc_x (v : BitVec 32) : (setPc s v).x = s.x := rfl
@[simp] theorem setPc_m (v : BitVec 32) : (setPc s v).m = s.m := rfl
@[simp] theorem setPc_e (v : BitVec 32) : (setPc s v).e = s.e := rfl
@[simp] theorem setPc_f (v : BitVec 32) : (setPc s v).f = s.f := rfl
@[simp] theorem setPc_pc (v : BitVec 32) : (setPc s v).pc = v := rfl
@[simp] theorem setPc_sgn (v : BitVec 32) : (setPc s v).sgn = s.sgn := rfl
@[simp] theorem setPc_perr (v : BitVec 32) : (setPc s v).perr = s.perr := rfl
@[simp] theorem setPc_runState (v : BitVec 32) : (setPc s v).runState = s.runState := rfl
@[simp] theorem setPc_faultCause (v : BitVec 32) : (setPc s v).faultCause = s.faultCause := rfl
@[simp] theorem setPc_faultPc (v : BitVec 32) : (setPc s v).faultPc = s.faultPc := rfl
@[simp] theorem setPc_faultInfo (v : BitVec 32) : (setPc s v).faultInfo = s.faultInfo := rfl
@[simp] theorem setPc_imem (v : BitVec 32) : (setPc s v).imem = s.imem := rfl
@[simp] theorem setPc_tmem (v : BitVec 32) : (setPc s v).tmem = s.tmem := rfl
@[simp] theorem setPc_memEpoch (v : BitVec 32) : (setPc s v).memEpoch = s.memEpoch := rfl
@[simp] theorem getX_setPc (v : BitVec 32) (q : XReg) : getX (setPc s v) q = getX s q := rfl
@[simp] theorem getM_setPc (v : BitVec 32) (q : MReg) : getM (setPc s v) q = getM s q := rfl
@[simp] theorem getE_setPc (v : BitVec 32) (q : EReg) : getE (setPc s v) q = getE s q := rfl
@[simp] theorem getF_setPc (v : BitVec 32) (q : FReg) : getF (setPc s v) q = getF s q := rfl
@[simp] theorem tmemByte_setPc (v : BitVec 32) (a : Nat) : tmemByte (setPc s v) a = tmemByte s a := rfl
@[simp] theorem imemWord_setPc (v : BitVec 32) (j : Nat) : imemWord (setPc s v) j = imemWord s j := rfl

/-! ### setRunState -/

@[simp] theorem setRunState_params (v : RunState) : (setRunState s v).params = s.params := rfl
@[simp] theorem setRunState_x (v : RunState) : (setRunState s v).x = s.x := rfl
@[simp] theorem setRunState_m (v : RunState) : (setRunState s v).m = s.m := rfl
@[simp] theorem setRunState_e (v : RunState) : (setRunState s v).e = s.e := rfl
@[simp] theorem setRunState_f (v : RunState) : (setRunState s v).f = s.f := rfl
@[simp] theorem setRunState_pc (v : RunState) : (setRunState s v).pc = s.pc := rfl
@[simp] theorem setRunState_sgn (v : RunState) : (setRunState s v).sgn = s.sgn := rfl
@[simp] theorem setRunState_perr (v : RunState) : (setRunState s v).perr = s.perr := rfl
@[simp] theorem setRunState_runState (v : RunState) : (setRunState s v).runState = v := rfl
@[simp] theorem setRunState_faultCause (v : RunState) : (setRunState s v).faultCause = s.faultCause := rfl
@[simp] theorem setRunState_faultPc (v : RunState) : (setRunState s v).faultPc = s.faultPc := rfl
@[simp] theorem setRunState_faultInfo (v : RunState) : (setRunState s v).faultInfo = s.faultInfo := rfl
@[simp] theorem setRunState_imem (v : RunState) : (setRunState s v).imem = s.imem := rfl
@[simp] theorem setRunState_tmem (v : RunState) : (setRunState s v).tmem = s.tmem := rfl
@[simp] theorem setRunState_memEpoch (v : RunState) : (setRunState s v).memEpoch = s.memEpoch := rfl
@[simp] theorem getX_setRunState (v : RunState) (q : XReg) : getX (setRunState s v) q = getX s q := rfl
@[simp] theorem getM_setRunState (v : RunState) (q : MReg) : getM (setRunState s v) q = getM s q := rfl
@[simp] theorem getE_setRunState (v : RunState) (q : EReg) : getE (setRunState s v) q = getE s q := rfl
@[simp] theorem getF_setRunState (v : RunState) (q : FReg) : getF (setRunState s v) q = getF s q := rfl
@[simp] theorem tmemByte_setRunState (v : RunState) (a : Nat) : tmemByte (setRunState s v) a = tmemByte s a := rfl
@[simp] theorem imemWord_setRunState (v : RunState) (j : Nat) : imemWord (setRunState s v) j = imemWord s j := rfl

/-! ### setBytes -/

@[simp] theorem setBytes_params (addr : Nat) (vs : List Byte) : (setBytes s addr vs).params = s.params := rfl
@[simp] theorem setBytes_x (addr : Nat) (vs : List Byte) : (setBytes s addr vs).x = s.x := rfl
@[simp] theorem setBytes_m (addr : Nat) (vs : List Byte) : (setBytes s addr vs).m = s.m := rfl
@[simp] theorem setBytes_e (addr : Nat) (vs : List Byte) : (setBytes s addr vs).e = s.e := rfl
@[simp] theorem setBytes_f (addr : Nat) (vs : List Byte) : (setBytes s addr vs).f = s.f := rfl
@[simp] theorem setBytes_pc (addr : Nat) (vs : List Byte) : (setBytes s addr vs).pc = s.pc := rfl
@[simp] theorem setBytes_sgn (addr : Nat) (vs : List Byte) : (setBytes s addr vs).sgn = s.sgn := rfl
@[simp] theorem setBytes_perr (addr : Nat) (vs : List Byte) : (setBytes s addr vs).perr = s.perr := rfl
@[simp] theorem setBytes_runState (addr : Nat) (vs : List Byte) : (setBytes s addr vs).runState = s.runState := rfl
@[simp] theorem setBytes_faultCause (addr : Nat) (vs : List Byte) : (setBytes s addr vs).faultCause = s.faultCause := rfl
@[simp] theorem setBytes_faultPc (addr : Nat) (vs : List Byte) : (setBytes s addr vs).faultPc = s.faultPc := rfl
@[simp] theorem setBytes_faultInfo (addr : Nat) (vs : List Byte) : (setBytes s addr vs).faultInfo = s.faultInfo := rfl
@[simp] theorem setBytes_imem (addr : Nat) (vs : List Byte) : (setBytes s addr vs).imem = s.imem := rfl
@[simp] theorem setBytes_tmem (addr : Nat) (vs : List Byte) : (setBytes s addr vs).tmem = Memory.writeAll s.tmem addr vs := rfl
@[simp] theorem setBytes_memEpoch (addr : Nat) (vs : List Byte) : (setBytes s addr vs).memEpoch = s.memEpoch := rfl
@[simp] theorem getX_setBytes (addr : Nat) (vs : List Byte) (q : XReg) : getX (setBytes s addr vs) q = getX s q := rfl
@[simp] theorem getM_setBytes (addr : Nat) (vs : List Byte) (q : MReg) : getM (setBytes s addr vs) q = getM s q := rfl
@[simp] theorem getE_setBytes (addr : Nat) (vs : List Byte) (q : EReg) : getE (setBytes s addr vs) q = getE s q := rfl
@[simp] theorem getF_setBytes (addr : Nat) (vs : List Byte) (q : FReg) : getF (setBytes s addr vs) q = getF s q := rfl
@[simp] theorem imemWord_setBytes (addr : Nat) (vs : List Byte) (j : Nat) : imemWord (setBytes s addr vs) j = imemWord s j := rfl

/-! ### setImem -/

@[simp] theorem setImem_params (i : Nat) (w : Word) : (setImem s i w).params = s.params := rfl
@[simp] theorem setImem_x (i : Nat) (w : Word) : (setImem s i w).x = s.x := rfl
@[simp] theorem setImem_m (i : Nat) (w : Word) : (setImem s i w).m = s.m := rfl
@[simp] theorem setImem_e (i : Nat) (w : Word) : (setImem s i w).e = s.e := rfl
@[simp] theorem setImem_f (i : Nat) (w : Word) : (setImem s i w).f = s.f := rfl
@[simp] theorem setImem_pc (i : Nat) (w : Word) : (setImem s i w).pc = s.pc := rfl
@[simp] theorem setImem_sgn (i : Nat) (w : Word) : (setImem s i w).sgn = s.sgn := rfl
@[simp] theorem setImem_perr (i : Nat) (w : Word) : (setImem s i w).perr = s.perr := rfl
@[simp] theorem setImem_runState (i : Nat) (w : Word) : (setImem s i w).runState = s.runState := rfl
@[simp] theorem setImem_faultCause (i : Nat) (w : Word) : (setImem s i w).faultCause = s.faultCause := rfl
@[simp] theorem setImem_faultPc (i : Nat) (w : Word) : (setImem s i w).faultPc = s.faultPc := rfl
@[simp] theorem setImem_faultInfo (i : Nat) (w : Word) : (setImem s i w).faultInfo = s.faultInfo := rfl
@[simp] theorem setImem_imem (i : Nat) (w : Word) : (setImem s i w).imem = Memory.write s.imem i w := rfl
@[simp] theorem setImem_tmem (i : Nat) (w : Word) : (setImem s i w).tmem = s.tmem := rfl
@[simp] theorem setImem_memEpoch (i : Nat) (w : Word) : (setImem s i w).memEpoch = s.memEpoch := rfl
@[simp] theorem getX_setImem (i : Nat) (w : Word) (q : XReg) : getX (setImem s i w) q = getX s q := rfl
@[simp] theorem getM_setImem (i : Nat) (w : Word) (q : MReg) : getM (setImem s i w) q = getM s q := rfl
@[simp] theorem getE_setImem (i : Nat) (w : Word) (q : EReg) : getE (setImem s i w) q = getE s q := rfl
@[simp] theorem getF_setImem (i : Nat) (w : Word) (q : FReg) : getF (setImem s i w) q = getF s q := rfl
@[simp] theorem tmemByte_setImem (i : Nat) (w : Word) (a : Nat) : tmemByte (setImem s i w) a = tmemByte s a := rfl

/-! ### advancePc -/

@[simp] theorem advancePc_params : (advancePc s).params = s.params := rfl
@[simp] theorem advancePc_x : (advancePc s).x = s.x := rfl
@[simp] theorem advancePc_m : (advancePc s).m = s.m := rfl
@[simp] theorem advancePc_e : (advancePc s).e = s.e := rfl
@[simp] theorem advancePc_f : (advancePc s).f = s.f := rfl
@[simp] theorem advancePc_pc : (advancePc s).pc = s.pc + 1 := rfl
@[simp] theorem advancePc_sgn : (advancePc s).sgn = s.sgn := rfl
@[simp] theorem advancePc_perr : (advancePc s).perr = s.perr := rfl
@[simp] theorem advancePc_runState : (advancePc s).runState = s.runState := rfl
@[simp] theorem advancePc_faultCause : (advancePc s).faultCause = s.faultCause := rfl
@[simp] theorem advancePc_faultPc : (advancePc s).faultPc = s.faultPc := rfl
@[simp] theorem advancePc_faultInfo : (advancePc s).faultInfo = s.faultInfo := rfl
@[simp] theorem advancePc_imem : (advancePc s).imem = s.imem := rfl
@[simp] theorem advancePc_tmem : (advancePc s).tmem = s.tmem := rfl
@[simp] theorem advancePc_memEpoch : (advancePc s).memEpoch = s.memEpoch := rfl
@[simp] theorem getX_advancePc (q : XReg) : getX (advancePc s) q = getX s q := rfl
@[simp] theorem getM_advancePc (q : MReg) : getM (advancePc s) q = getM s q := rfl
@[simp] theorem getE_advancePc (q : EReg) : getE (advancePc s) q = getE s q := rfl
@[simp] theorem getF_advancePc (q : FReg) : getF (advancePc s) q = getF s q := rfl
@[simp] theorem tmemByte_advancePc (a : Nat) : tmemByte (advancePc s) a = tmemByte s a := rfl
@[simp] theorem imemWord_advancePc (j : Nat) : imemWord (advancePc s) j = imemWord s j := rfl

/-! ### takeFault -/

@[simp] theorem takeFault_params (t : Trap) : (takeFault s t).params = s.params := rfl
@[simp] theorem takeFault_x (t : Trap) : (takeFault s t).x = s.x := rfl
@[simp] theorem takeFault_m (t : Trap) : (takeFault s t).m = s.m := rfl
@[simp] theorem takeFault_e (t : Trap) : (takeFault s t).e = s.e := rfl
@[simp] theorem takeFault_f (t : Trap) : (takeFault s t).f = s.f := rfl
@[simp] theorem takeFault_pc (t : Trap) : (takeFault s t).pc = s.pc := rfl
@[simp] theorem takeFault_sgn (t : Trap) : (takeFault s t).sgn = s.sgn := rfl
@[simp] theorem takeFault_perr (t : Trap) : (takeFault s t).perr = s.perr := rfl
@[simp] theorem takeFault_runState (t : Trap) : (takeFault s t).runState = .faulted := rfl
@[simp] theorem takeFault_faultCause (t : Trap) : (takeFault s t).faultCause = trapCause t := rfl
@[simp] theorem takeFault_faultPc (t : Trap) : (takeFault s t).faultPc = s.pc := rfl
@[simp] theorem takeFault_faultInfo (t : Trap) : (takeFault s t).faultInfo = trapInfo t := rfl
@[simp] theorem takeFault_imem (t : Trap) : (takeFault s t).imem = s.imem := rfl
@[simp] theorem takeFault_tmem (t : Trap) : (takeFault s t).tmem = s.tmem := rfl
@[simp] theorem takeFault_memEpoch (t : Trap) : (takeFault s t).memEpoch = s.memEpoch := rfl
@[simp] theorem getX_takeFault (t : Trap) (q : XReg) : getX (takeFault s t) q = getX s q := rfl
@[simp] theorem getM_takeFault (t : Trap) (q : MReg) : getM (takeFault s t) q = getM s q := rfl
@[simp] theorem getE_takeFault (t : Trap) (q : EReg) : getE (takeFault s t) q = getE s q := rfl
@[simp] theorem getF_takeFault (t : Trap) (q : FReg) : getF (takeFault s t) q = getF s q := rfl
@[simp] theorem tmemByte_takeFault (t : Trap) (a : Nat) : tmemByte (takeFault s t) a = tmemByte s a := rfl
@[simp] theorem imemWord_takeFault (t : Trap) (j : Nat) : imemWord (takeFault s t) j = imemWord s j := rfl

/-- A register reads as written; every other register of the file is unchanged. -/
@[simp] theorem getX_setX (r q : XReg) (v : Native) : getX (setX s r v) q = if q = r then some v else getX s q := by
  unfold getX setX
  by_cases h : q = r
  · subst h; simp
  · have h' : r.toNat ≠ q.toNat := fun e => h (BitVec.eq_of_toNat_eq e.symm)
    simp [h, Vector.getElem_set_ne, h']

/-- A register reads as written; every other register of the file is unchanged. -/
@[simp] theorem getM_setM (r q : MReg) (v : Magnitude) : getM (setM s r v) q = if q = r then some v else getM s q := by
  unfold getM setM
  by_cases h : q = r
  · subst h; simp
  · have h' : r.toNat ≠ q.toNat := fun e => h (BitVec.eq_of_toNat_eq e.symm)
    simp [h, Vector.getElem_set_ne, h']

/-- A register reads as written; every other register of the file is unchanged. -/
@[simp] theorem getE_setE (r q : EReg) (v : Nat) : getE (setE s r v) q = if q = r then some v else getE s q := by
  unfold getE setE
  by_cases h : q = r
  · subst h; simp
  · have h' : r.toNat ≠ q.toNat := fun e => h (BitVec.eq_of_toNat_eq e.symm)
    simp [h, Vector.getElem_set_ne, h']

/-- A register reads as written; every other register of the file is unchanged. -/
@[simp] theorem getF_setF (r q : FReg) (v : Native) : getF (setF s r v) q = if q = r then some v else getF s q := by
  unfold getF setF
  by_cases h : q = r
  · subst h; simp
  · have h' : r.toNat ≠ q.toNat := fun e => h (BitVec.eq_of_toNat_eq e.symm)
    simp [h, Vector.getElem_set_ne, h']

end Sys2Proof.Machine
end

