-- ==== Sys2Proof/Laws/Memory.lean ====
section
/-! SUPPORT. Laws/Memory.lean: the sparse memories: a read after a write, and the canonical form. -/

namespace Sys2Proof.Machine

variable {α : Type}

@[simp] theorem Memory.read?_nil (a : Nat) : Memory.read? ([] : Memory α) a = none := rfl

theorem Memory.read?_cons (k : Nat) (v : α) (rest : Memory α) (a : Nat) :
    Memory.read? ((k, v) :: rest) a = if k = a then some v else Memory.read? rest a := rfl

/-- A read after a write gives the value written at that location and the old one elsewhere. -/
theorem Memory.read?_write (mem : Memory α) (a : Nat) (v : α) (b : Nat) (h : Memory.wf mem) :
    Memory.read? (Memory.write mem a v) b = if a = b then some v else Memory.read? mem b := by
  induction mem with
  | nil => rfl
  | cons c rest ih =>
    obtain ⟨k, w⟩ := c
    have hr : Memory.wf rest := (List.pairwise_cons.1 h).2
    simp only [Memory.write]
    split
    · simp [Memory.read?_cons]
    · split
      · next hk =>
        subst hk
        by_cases hb : a = b <;> simp [Memory.read?_cons, hb]
      · next hlt hne =>
        simp only [Memory.read?_cons, ih hr]
        by_cases hb : k = b
        · have : a ≠ b := fun e => hne (e.trans hb.symm)
          simp [hb, this]
        · simp [hb]

/-- The locations listed after a write. -/
theorem Memory.mem_write {mem : Memory α} {a : Nat} {v : α} {c : Nat × α} (h : c ∈ Memory.write mem a v) :
    c = (a, v) ∨ c ∈ mem := by
  induction mem with
  | nil => simpa [Memory.write] using h
  | cons d rest ih =>
    obtain ⟨k, w⟩ := d
    simp only [Memory.write] at h
    split at h
    · simpa using h
    · split at h
      · rcases List.mem_cons.1 h with h | h
        · exact .inl h
        · exact .inr (List.mem_cons_of_mem _ h)
      · rcases List.mem_cons.1 h with h | h
        · exact .inr (h ▸ List.mem_cons_self)
        · exact (ih h).imp id (List.mem_cons_of_mem _)

/-- A write keeps the canonical form. -/
theorem Memory.write_wf (mem : Memory α) (a : Nat) (v : α) (h : Memory.wf mem) : Memory.wf (Memory.write mem a v) := by
  induction mem with
  | nil => simp [Memory.write, Memory.wf]
  | cons d rest ih =>
    obtain ⟨k, w⟩ := d
    have h1 : ∀ c ∈ rest, k < c.1 := fun c hc => (List.pairwise_cons.1 h).1 _ (List.mem_map_of_mem hc)
    have h2 : Memory.wf rest := (List.pairwise_cons.1 h).2
    simp only [Memory.write]
    split
    · next hlt =>
      refine List.pairwise_cons.2 ⟨fun b hb => ?_, h⟩
      obtain ⟨c, hc, rfl⟩ := List.mem_map.1 hb
      rcases List.mem_cons.1 hc with rfl | hc
      · exact hlt
      · exact hlt.trans (h1 c hc)
    · split
      · next hk =>
        subst hk
        exact List.pairwise_cons.2 ⟨(List.pairwise_cons.1 h).1, h2⟩
      · next hlt hne =>
        refine List.pairwise_cons.2 ⟨fun b hb => ?_, ih h2⟩
        obtain ⟨c, hc, rfl⟩ := List.mem_map.1 hb
        rcases Memory.mem_write hc with rfl | hc
        · exact lt_of_le_of_ne (Nat.le_of_not_lt hlt) (Ne.symm hne)
        · exact h1 c hc

theorem Memory.read?_eq_none_of_lt (mem : Memory α) (a : Nat) (h : ∀ c ∈ mem, a < c.1) : Memory.read? mem a = none := by
  induction mem with
  | nil => rfl
  | cons d rest ih =>
    obtain ⟨k, w⟩ := d
    have : k ≠ a := (h (k, w) List.mem_cons_self).ne'
    simp only [Memory.read?_cons, this, if_false]
    exact ih fun c hc => h c (List.mem_cons_of_mem _ hc)

/-- Equal memories are equal data: canonical lists that read alike are the same list. -/
theorem Memory.ext_of_wf (m n : Memory α) (hm : Memory.wf m) (hn : Memory.wf n)
    (h : ∀ a, Memory.read? m a = Memory.read? n a) : m = n := by
  induction m generalizing n with
  | nil =>
    cases n with
    | nil => rfl
    | cons d rest => obtain ⟨k, w⟩ := d; simpa [Memory.read?_cons] using h k
  | cons d rest ih =>
    obtain ⟨k, w⟩ := d
    cases n with
    | nil => simpa [Memory.read?_cons] using h k
    | cons d' rest' =>
      obtain ⟨k', w'⟩ := d'
      have h1 : ∀ c ∈ rest, k < c.1 := fun c hc => (List.pairwise_cons.1 hm).1 _ (List.mem_map_of_mem hc)
      have h1' : ∀ c ∈ rest', k' < c.1 := fun c hc => (List.pairwise_cons.1 hn).1 _ (List.mem_map_of_mem hc)
      have hk : k = k' := by
        rcases lt_trichotomy k k' with hlt | heq | hlt
        · have := h k
          rw [Memory.read?_cons, if_pos rfl, Memory.read?_eq_none_of_lt _ k] at this
          · cases this
          · intro c hc
            rcases List.mem_cons.1 hc with rfl | hc
            · exact hlt
            · exact hlt.trans (h1' c hc)
        · exact heq
        · have := h k'
          rw [Memory.read?_eq_none_of_lt _ k', Memory.read?_cons, if_pos rfl] at this
          · cases this
          · intro c hc
            rcases List.mem_cons.1 hc with rfl | hc
            · exact hlt
            · exact hlt.trans (h1 c hc)
      subst hk
      have hw : w = w' := by simpa [Memory.read?_cons] using h k
      subst hw
      congr 1
      refine ih rest' (List.pairwise_cons.1 hm).2 (List.pairwise_cons.1 hn).2 fun a => ?_
      by_cases ha : k = a
      · subst ha
        rw [Memory.read?_eq_none_of_lt _ _ h1, Memory.read?_eq_none_of_lt _ _ h1']
      · simpa [Memory.read?_cons, ha] using h a

/-- Writing consecutive locations keeps the canonical form. -/
theorem Memory.writeAll_wf (vs : List α) : ∀ (mem : Memory α) (a : Nat), Memory.wf mem →
    Memory.wf (Memory.writeAll mem a vs) := by
  induction vs with
  | nil => exact fun _ _ h => h
  | cons v vs ih => exact fun mem a h => ih _ _ (Memory.write_wf mem a v h)

/-- What consecutive writes leave at a location. -/
theorem Memory.read?_writeAll (vs : List α) : ∀ (mem : Memory α) (a b : Nat), Memory.wf mem →
    Memory.read? (Memory.writeAll mem a vs) b =
      if a ≤ b ∧ b < a + vs.length then vs[b - a]? else Memory.read? mem b := by
  induction vs with
  | nil => intro mem a b _; simp [Memory.writeAll]
  | cons v vs ih =>
    intro mem a b h
    rw [Memory.writeAll, ih _ _ _ (Memory.write_wf mem a v h), Memory.read?_write mem a v b h, List.length_cons]
    by_cases h1 : a + 1 ≤ b ∧ b < a + 1 + vs.length
    · rw [if_pos h1, if_pos (by omega), show b - a = (b - (a + 1)) + 1 by omega, List.getElem?_cons_succ]
    · rw [if_neg h1]
      by_cases h2 : a = b
      · subst h2; simp
      · rw [if_neg h2, if_neg (by omega)]

/-- The locations listed after consecutive writes. -/
theorem Memory.mem_writeAll (vs : List α) : ∀ {mem : Memory α} {a : Nat} {c : Nat × α},
    c ∈ Memory.writeAll mem a vs → (a ≤ c.1 ∧ c.1 < a + vs.length) ∨ c ∈ mem := by
  induction vs with
  | nil => exact fun h => .inr h
  | cons v vs ih =>
    intro mem a c h
    rcases ih h with h | h
    · left; simp only [List.length_cons]; omega
    · rcases Memory.mem_write h with rfl | h
      · left; simp
      · exact .inr h

/-! ### Bytes and words of the state -/

/-- A TMEM byte after a store: the stored value inside the stored range, the old byte outside it. -/
theorem tmemByte_setBytes (s : State) (addr : Nat) (vs : List Byte) (a : Nat) (h : Memory.wf s.tmem) :
    tmemByte (setBytes s addr vs) a =
      if a < addr ∨ addr + vs.length ≤ a then tmemByte s a else (vs[a - addr]?).getD 0 := by
  unfold tmemByte
  simp only [setBytes_tmem, setBytes_memEpoch, Memory.read?_writeAll vs s.tmem addr a h]
  by_cases h1 : addr ≤ a ∧ a < addr + vs.length
  · rw [if_pos h1, if_neg (by omega)]
    have : a - addr < vs.length := by omega
    simp [List.getElem?_eq_getElem this]
  · rw [if_neg h1, if_pos (by omega)]

/-- An IMEM word after the host sets one. -/
theorem imemWord_setImem (s : State) (i : Nat) (w : Word) (j : Nat) (h : Memory.wf s.imem) :
    imemWord (setImem s i w) j = if i = j then w else imemWord s j := by
  unfold imemWord
  simp only [setImem_imem, setImem_memEpoch, Memory.read?_write s.imem i w j h]
  split <;> rfl

@[simp] theorem tmemBytes_length (s : State) (addr n : Nat) : (tmemBytes s addr n).length = n := by
  simp [tmemBytes]

theorem tmemBytes_getElem? (s : State) (addr n i : Nat) (h : i < n) :
    (tmemBytes s addr n)[i]? = some (tmemByte s (addr + i)) := by
  simp [tmemBytes, h]

end Sys2Proof.Machine
end

