-- ==== Sys2Proof/Laws/Inv.lean ====
section
/-! SUPPORT. Laws/Inv.lean: every update of the state keeps the invariant under the condition it needs, said once. -/

namespace Sys2Proof.Machine

/-! ### The reset state -/

theorem default_legal : Config.Params.default.Legal := by
  simp [Config.Params.Legal, Config.Params.LegalMaxLen, Config.Params.default]

theorem getX_resetWith (p : Config.Params) (n : Nat) (r : XReg) : getX (State.resetWith p n) r = none := by
  simp [getX, State.resetWith]
theorem getM_resetWith (p : Config.Params) (n : Nat) (r : MReg) : getM (State.resetWith p n) r = none := by
  simp [getM, State.resetWith]
theorem getE_resetWith (p : Config.Params) (n : Nat) (r : EReg) : getE (State.resetWith p n) r = none := by
  simp [getE, State.resetWith]
theorem getF_resetWith (p : Config.Params) (n : Nat) (r : FReg) : getF (State.resetWith p n) r = none := by
  simp [getF, State.resetWith]

/-- The reset state under legal parameters meets the invariant, whatever the epoch. -/
theorem inv_resetWith {p : Config.Params} (h : p.Legal) (n : Nat) : Inv (State.resetWith p n) where
  params := h
  magnitudes r m hm := by rw [getM_resetWith] at hm; cases hm
  accumulators r v hv := by rw [getE_resetWith] at hv; cases hv
  tmem := List.Pairwise.nil
  tmemRange _ hc := absurd hc List.not_mem_nil
  imem := List.Pairwise.nil
  imemRange _ hc := absurd hc List.not_mem_nil

/-! ### Updates -/

variable {s : State}

/-- An update that touches neither parameters, magnitudes, accumulators nor memories keeps the invariant. -/
theorem Inv.congr (h : Inv s) {t : State} (hp : t.params = s.params) (hm : t.m = s.m) (he : t.e = s.e)
    (ht : t.tmem = s.tmem) (hi : t.imem = s.imem) : Inv t where
  params := hp ▸ h.params
  magnitudes r m hr := by
    have : getM s r = some m := by simpa [getM, hm] using hr
    simpa [hp] using h.magnitudes r m this
  accumulators r v hr := by
    have : getE s r = some v := by simpa [getE, he] using hr
    simpa [hp] using h.accumulators r v this
  tmem := ht ▸ h.tmem
  tmemRange := by rw [ht, hp]; exact h.tmemRange
  imem := hi ▸ h.imem
  imemRange := by rw [hi, hp]; exact h.imemRange

theorem Inv.setX (h : Inv s) (r : XReg) (v : Native) : Inv (setX s r v) := h.congr rfl rfl rfl rfl rfl
theorem Inv.setF (h : Inv s) (r : FReg) (v : Native) : Inv (setF s r v) := h.congr rfl rfl rfl rfl rfl
theorem Inv.setSgn (h : Inv s) (v : Sign) : Inv (setSgn s v) := h.congr rfl rfl rfl rfl rfl
theorem Inv.setPerr (h : Inv s) (v : ParseError) : Inv (setPerr s v) := h.congr rfl rfl rfl rfl rfl
theorem Inv.setPc (h : Inv s) (v : BitVec 32) : Inv (setPc s v) := h.congr rfl rfl rfl rfl rfl
theorem Inv.setRunState (h : Inv s) (v : RunState) : Inv (setRunState s v) := h.congr rfl rfl rfl rfl rfl
theorem Inv.advancePc (h : Inv s) : Inv (advancePc s) := h.congr rfl rfl rfl rfl rfl
theorem Inv.takeFault (h : Inv s) (e : Trap) : Inv (takeFault s e) := h.congr rfl rfl rfl rfl rfl

theorem Inv.setM (h : Inv s) (r : MReg) {v : Magnitude} (hc : canonical s.params.base v = true)
    (hf : s.params.fits v.length = true) : Inv (setM s r v) where
  params := h.params
  magnitudes q m hq := by
    rw [getM_setM] at hq
    split at hq
    · cases hq; exact ⟨hc, hf⟩
    · exact h.magnitudes q m hq
  accumulators := h.accumulators
  tmem := h.tmem
  tmemRange := h.tmemRange
  imem := h.imem
  imemRange := h.imemRange

theorem Inv.setE (h : Inv s) (r : EReg) {v : Nat} (hv : v < s.params.base ^ 3) : Inv (setE s r v) where
  params := h.params
  magnitudes := h.magnitudes
  accumulators q w hq := by
    rw [getE_setE] at hq
    split at hq
    · cases hq; exact hv
    · exact h.accumulators q w hq
  tmem := h.tmem
  tmemRange := h.tmemRange
  imem := h.imem
  imemRange := h.imemRange

theorem Inv.setBytes (h : Inv s) (addr : Nat) {vs : List Byte} (hr : addr + vs.length ≤ s.params.tmemSize) :
    Inv (setBytes s addr vs) where
  params := h.params
  magnitudes := h.magnitudes
  accumulators := h.accumulators
  tmem := Memory.writeAll_wf vs s.tmem addr h.tmem
  tmemRange c hc := by
    rcases Memory.mem_writeAll vs hc with h1 | h1
    · exact lt_of_lt_of_le h1.2 hr
    · exact h.tmemRange c h1
  imem := h.imem
  imemRange := h.imemRange

theorem Inv.setImem (h : Inv s) (i : Nat) (w : Word) (hi : i < s.params.imemWords) : Inv (setImem s i w) where
  params := h.params
  magnitudes := h.magnitudes
  accumulators := h.accumulators
  tmem := h.tmem
  tmemRange := h.tmemRange
  imem := Memory.write_wf s.imem i w h.imem
  imemRange c hc := by
    rcases Memory.mem_write hc with rfl | h1
    · exact hi
    · exact h.imemRange c h1

/-! ### What the invariant gives -/

theorem Inv.two_le_base (h : Inv s) : 2 ≤ s.params.base := by
  have hw := h.params.1.1
  calc 2 = 2 ^ 1 := (pow_one 2).symm
    _ ≤ 2 ^ s.params.w := Nat.pow_le_pow_right (by norm_num) (by omega)

theorem base_le_of_legal {p : Config.Params} (h : p.Legal) : p.base ≤ 2 ^ 64 :=
  Nat.pow_le_pow_right (by norm_num) h.1.2

theorem lt_base_sq_of_legal {p : Config.Params} (h : p.Legal) (x : Native) : x.toNat < p.base ^ 2 := by
  refine lt_of_lt_of_le x.isLt ?_
  rw [Config.Params.base, ← pow_mul]
  exact Nat.pow_le_pow_right (by norm_num) (by have := h.1.1; omega)

theorem fits_mono {p : Config.Params} {m n : Nat} (h : p.fits n = true) (hmn : m ≤ n) : p.fits m = true := by
  unfold Config.Params.fits at *
  split at h
  · rfl
  · simp only [decide_eq_true_eq] at *; omega

/-- Two digits always fit (00_scope.md R5: MAXLEN is at least 2). -/
theorem fits_two {p : Config.Params} (h : p.Legal) : p.fits 2 = true := by
  have := h.2.2.2.2.1
  unfold Config.Params.LegalMaxLen at this
  unfold Config.Params.fits
  split <;> simp_all

end Sys2Proof.Machine
end

