-- ==== Sys2Proof/Laws/Ops.lean ====
section
/-! SUPPORT. Laws/Ops.lean: what each shared operation can answer, said once. -/

namespace Sys2Proof.Machine

/-! ### Except as the fault monad -/

@[simp] theorem bind_ok_eq {α β : Type} (a : α) (f : α → Except Trap β) : (Except.ok a >>= f) = f a := rfl
@[simp] theorem bind_error_eq {α β : Type} (e : Trap) (f : α → Except Trap β) :
    ((Except.error e : Except Trap α) >>= f) = Except.error e := rfl
@[simp] theorem pure_eq_ok {α : Type} (a : α) : (pure a : Except Trap α) = Except.ok a := rfl

/-- A sequence completes exactly when its first part does and the rest does on its result. -/
theorem bind_eq_ok {α β : Type} {x : Except Trap α} {f : α → Except Trap β} {b : β} :
    (x >>= f) = .ok b ↔ ∃ a, x = .ok a ∧ f a = .ok b := by
  cases x <;> simp

/-- A sequence faults exactly when its first part does, or the rest does on its result. -/
theorem bind_eq_error {α β : Type} {x : Except Trap α} {f : α → Except Trap β} {e : Trap} :
    (x >>= f) = .error e ↔ x = .error e ∨ ∃ a, x = .ok a ∧ f a = .error e := by
  cases x <;> simp

/-! ### Ends of a command -/

@[simp] theorem finish_ok (s t : State) : finish s (.ok t) = .next (advancePc t) := rfl
@[simp] theorem finish_error (s : State) (e : Trap) : finish s (.error e) = .next (takeFault s e) := rfl

/-- A command that sets no pc either completes and advances, or takes a fault from the state before it. -/
theorem finish_eq_next {s u : State} {r : Except Trap State} :
    finish s r = .next u ↔ (∃ t, r = .ok t ∧ u = advancePc t) ∨ (∃ e, r = .error e ∧ u = takeFault s e) := by
  cases r <;> simp [finish, eq_comm]

/-! ### Checks -/

@[simp] theorem require_true (t : Trap) : require true t = .ok () := rfl
@[simp] theorem require_false (t : Trap) : require false t = .error t := rfl

theorem require_eq_ok {c : Bool} {t : Trap} {u : Unit} : require c t = .ok u ↔ c = true := by
  cases c <;> simp

theorem require_eq_error {c : Bool} {t e : Trap} : require c t = .error e ↔ c = false ∧ e = t := by
  cases c <;> simp [eq_comm]

@[simp] theorem orTrap_some {α : Type} (a : α) (t : Trap) : orTrap (some a) t = .ok a := rfl
@[simp] theorem orTrap_none {α : Type} (t : Trap) : orTrap (none : Option α) t = .error t := rfl

theorem orTrap_eq_ok {α : Type} {v : Option α} {t : Trap} {a : α} : orTrap v t = .ok a ↔ v = some a := by
  cases v <;> simp

theorem orTrap_eq_error {α : Type} {v : Option α} {t e : Trap} : orTrap v t = .error e ↔ v = none ∧ e = t := by
  cases v <;> simp [eq_comm]

/-! ### Register reads: the value, or UNINIT naming the register (10_state.md R25) -/

theorem readX_eq_ok {s : State} {r : XReg} {v : Native} : readX s r = .ok v ↔ getX s r = some v := orTrap_eq_ok
theorem readM_eq_ok {s : State} {r : MReg} {v : Magnitude} : readM s r = .ok v ↔ getM s r = some v := orTrap_eq_ok
theorem readE_eq_ok {s : State} {r : EReg} {v : Nat} : readE s r = .ok v ↔ getE s r = some v := orTrap_eq_ok
theorem readF_eq_ok {s : State} {r : FReg} {v : Native} : readF s r = .ok v ↔ getF s r = some v := orTrap_eq_ok

theorem readX_of_some {s : State} {r : XReg} {v : Native} (h : getX s r = some v) : readX s r = .ok v := readX_eq_ok.2 h
theorem readM_of_some {s : State} {r : MReg} {v : Magnitude} (h : getM s r = some v) : readM s r = .ok v := readM_eq_ok.2 h
theorem readE_of_some {s : State} {r : EReg} {v : Nat} (h : getE s r = some v) : readE s r = .ok v := readE_eq_ok.2 h
theorem readF_of_some {s : State} {r : FReg} {v : Native} (h : getF s r = some v) : readF s r = .ok v := readF_eq_ok.2 h

theorem readX_of_none {s : State} {r : XReg} (h : getX s r = none) : readX s r = .error (.uninit .x r) := by
  simp [readX, h]
theorem readM_of_none {s : State} {r : MReg} (h : getM s r = none) : readM s r = .error (.uninit .m r) := by
  simp [readM, h]
theorem readE_of_none {s : State} {r : EReg} (h : getE s r = none) : readE s r = .error (.uninit .e r) := by
  simp [readE, h]
theorem readF_of_none {s : State} {r : FReg} (h : getF s r = none) : readF s r = .error (.uninit .f r) := by
  simp [readF, h]

/-! ### Ranges and capacity -/

/-- The range check passes exactly when no byte is touched or all lie in TMEM (20_memory.md R52). -/
theorem checkRange_eq_ok {s : State} {addr n : Nat} {u : Unit} :
    checkRange s addr n = .ok u ↔ n = 0 ∨ addr + n ≤ s.params.tmemSize := by
  simp [checkRange, require_eq_ok]

/-- Otherwise it is MEMRANGE with the lowest bad address. -/
theorem checkRange_eq_error {s : State} {addr n : Nat} {e : Trap} :
    checkRange s addr n = .error e ↔
      (n ≠ 0 ∧ s.params.tmemSize < addr + n) ∧ e = .memRange (lowestBad s addr) := by
  simp [checkRange, require_eq_error]

theorem checkByte_eq_ok {s : State} {addr : Int} {u : Unit} :
    checkByte s addr = .ok u ↔ 0 ≤ addr ∧ addr < s.params.tmemSize := by
  simp [checkByte, require_eq_ok]

theorem checkByte_eq_error {s : State} {addr : Int} {e : Trap} :
    checkByte s addr = .error e ↔ ¬ (0 ≤ addr ∧ addr < s.params.tmemSize) ∧ e = .memRange addr := by
  simp [checkByte, require_eq_error]

theorem checkCapacity_eq_ok {s : State} {len : Nat} {u : Unit} :
    checkCapacity s len = .ok u ↔ s.params.fits len = true := by
  simp [checkCapacity, require_eq_ok]

theorem checkCapacity_eq_error {s : State} {len : Nat} {e : Trap} :
    checkCapacity s len = .error e ↔ s.params.fits len = false ∧ e = .capacity len := by
  simp [checkCapacity, require_eq_error]

/-- A checked write completes exactly when the result fits, and then writes only M[a]. -/
theorem writeChecked_eq_ok {s t : State} {a : MReg} {r : Magnitude} :
    writeChecked s a r = .ok t ↔ s.params.fits r.length = true ∧ t = setM s a r := by
  simp only [writeChecked, bind_eq_ok, checkCapacity_eq_ok, pure_eq_ok, Except.ok.injEq, exists_const, @eq_comm _ t]

theorem writeChecked_eq_error {s : State} {a : MReg} {r : Magnitude} {e : Trap} :
    writeChecked s a r = .error e ↔ s.params.fits r.length = false ∧ e = .capacity r.length := by
  simp [writeChecked, bind_eq_error, checkCapacity_eq_error]

theorem writeChecked_of_fits {s : State} {a : MReg} {r : Magnitude} (h : s.params.fits r.length = true) :
    writeChecked s a r = .ok (setM s a r) := writeChecked_eq_ok.2 ⟨h, rfl⟩

/-- Fetch gives the word at the pc when it lies in IMEM, else PCRANGE (20_memory.md R51). -/
theorem fetch_eq_ok {s : State} {w : Word} :
    fetch s = .ok w ↔ s.pc.toNat < s.params.imemWords ∧ w = imemWord s s.pc.toNat := by
  simp only [fetch, bind_eq_ok, require_eq_ok, pure_eq_ok, Except.ok.injEq, decide_eq_true_eq, @eq_comm _ w]
  exact ⟨fun ⟨_, h, e⟩ => ⟨h, e⟩, fun ⟨h, e⟩ => ⟨(), h, e⟩⟩

theorem fetch_eq_error {s : State} {e : Trap} :
    fetch s = .error e ↔ s.params.imemWords ≤ s.pc.toNat ∧ e = .pcRange s.pc := by
  simp [fetch, bind_eq_error, require_eq_error]

end Sys2Proof.Machine
end

