-- ==== Sys2Proof/Laws/Completion.lean ====
section
/-! SUPPORT. Laws/Completion.lean: the ways a command ends (Safety.lean) from what its meaning answers, said once for
each kind of destination. -/

namespace Sys2Proof.Machine

variable {i : Instr} {s : State}

theorem completes_of_next {t : State} {post : State → Prop} (h : exec i s = .next (advancePc t)) (hpc : t.pc = s.pc)
    (hr : t.runState = s.runState) (hrec : KeepsRecord s t) (hcode : KeepsCode s t) (hp : post (advancePc t)) :
    Completes i s post :=
  ⟨_, h, ⟨by rw [advancePc_pc, hpc], hr, ⟨hrec.cause, hrec.pc, hrec.info⟩, ⟨hcode.params, hcode.epoch, hcode.imem⟩⟩, hp⟩

/-- A command that only writes X[a]. -/
theorem completesX_of_ok {a : XReg} {v : Native} (h : exec i s = finish s (.ok (setX s a v))) :
    CompletesX i s a v.toNat :=
  completes_of_next h rfl rfl ⟨rfl, rfl, rfl⟩ ⟨rfl, rfl, fun _ => rfl⟩
    ⟨⟨v, by simp, rfl⟩, ⟨fun r hr => by simp_all [eq_comm], fun _ _ => rfl, fun _ _ => rfl, fun _ _ => rfl⟩,
      ⟨rfl, rfl⟩, fun _ => rfl⟩

/-- The same for a number below 2^64. -/
theorem completesX_of_ofNat {a : XReg} {n : Nat} (hn : n < 2 ^ 64)
    (h : exec i s = finish s (.ok (setX s a (BitVec.ofNat 64 n)))) : CompletesX i s a n := by
  have := completesX_of_ok h
  rwa [BitVec.toNat_ofNat, Nat.mod_eq_of_lt hn] at this

/-- A command that only writes M[a]. -/
theorem completesM_of_ok {a : MReg} {v : Magnitude} (h : exec i s = finish s (.ok (setM s a v))) :
    CompletesM i s a v :=
  completes_of_next h rfl rfl ⟨rfl, rfl, rfl⟩ ⟨rfl, rfl, fun _ => rfl⟩
    ⟨by simp, ⟨fun _ _ => rfl, fun r hr => by simp_all [eq_comm], fun _ _ => rfl, fun _ _ => rfl⟩,
      ⟨rfl, rfl⟩, fun _ => rfl⟩

/-- A command that only writes E[a]. -/
theorem completesE_of_ok {a : EReg} {v : Nat} (h : exec i s = finish s (.ok (setE s a v))) : CompletesE i s a v :=
  completes_of_next h rfl rfl ⟨rfl, rfl, rfl⟩ ⟨rfl, rfl, fun _ => rfl⟩
    ⟨by simp, ⟨fun _ _ => rfl, fun _ _ => rfl, fun r hr => by simp_all [eq_comm], fun _ _ => rfl⟩,
      ⟨rfl, rfl⟩, fun _ => rfl⟩

/-- A command that only writes FLAGS.SGN. -/
theorem completesSgn_of_ok {v : Sign} (h : exec i s = finish s (.ok (setSgn s v))) : CompletesSgn i s v :=
  completes_of_next h rfl rfl ⟨rfl, rfl, rfl⟩ ⟨rfl, rfl, fun _ => rfl⟩
    ⟨rfl, rfl, ⟨fun _ _ => rfl, fun _ _ => rfl, fun _ _ => rfl, fun _ _ => rfl⟩, fun _ => rfl⟩

/-- A command that faults. -/
theorem raises_of_error {e : Trap} (h : exec i s = finish s (.error e)) : Raises i s e := h

/-- A command that ends in a checked write of M[a]. -/
theorem writesChecked_of {a : MReg} {v : Magnitude} (h : exec i s = finish s (writeChecked s a v)) :
    WritesChecked i s a v where
  completes hf := completesM_of_ok (h.trans (by rw [writeChecked_of_fits hf]))
  capacity hf := h.trans (by rw [writeChecked_eq_error.2 ⟨hf, rfl⟩, finish_error])

/-- UNINIT, one operand at a time: of an empty list nothing is asked. -/
theorem raisesUninit_nil : RaisesUninit i s [] := fun _ h => by cases h

/-- The first operand raises when it holds no value, and hands on to the others when it does. -/
theorem raisesUninit_cons {p : RegFile × BitVec 4} {ps : List (RegFile × BitVec 4)}
    (h : unwritten s p = true → exec i s = finish s (.error (.uninit p.1 p.2)))
    (hs : unwritten s p = false → RaisesUninit i s ps) : RaisesUninit i s (p :: ps) := by
  intro q hq
  rw [List.find?_cons] at hq
  split at hq
  · next hp => cases hq; exact h hp
  · next hp => exact hs hp q hq

/-- Completing and faulting exclude each other while the core runs. -/
theorem advancePc_ne_takeFault {t : State} (e : Trap) (ht : t.runState ≠ .faulted) : advancePc t ≠ takeFault s e :=
  fun h => ht (by simpa using congrArg State.runState h)

end Sys2Proof.Machine
end

