-- ==== Sys2Proof/Laws/Multiply.lean ====
section
/-! SUPPORT. Laws/Multiply.lean: the one-digit product (43_multiply.md R162), the schoolbook product (R161) and the
Karatsuba product (R163, R164) are all `digits(val(p) · val(q))`. -/

namespace Sys2Proof.Machine

variable {B : Nat}

/-- The size of one step: a digit, a digit product and a carry stay below B^2 (43_multiply.md R161). -/
theorem mul_step_lt {a b c d : Nat} (ha : a < B) (hb : b < B) (hc : c < B) (hd : d < B) :
    (a + b * c + d) / B < B := by
  rw [Nat.div_lt_iff_lt_mul (by omega)]
  have h1 : b * c ≤ (B - 1) * (B - 1) := Nat.mul_le_mul (by omega) (by omega)
  obtain ⟨k, rfl⟩ : ∃ k, B = k + 1 := ⟨B - 1, by omega⟩
  have h2 : (k + 1) * (k + 1) = k * k + 2 * k + 1 := by ring
  simp only [Nat.add_sub_cancel] at h1
  omega

/-! ### One-digit product -/

theorem mulDigitLoop_spec (hB : 2 ≤ B) {dg : Nat} (hdg : dg < B) : ∀ (l : Magnitude) (carry : Nat),
    AllBelow B l → carry < B →
    val B (mulDigitLoop B dg l carry) = val B l * dg + carry ∧ AllBelow B (mulDigitLoop B dg l carry) := by
  intro l
  induction l with
  | nil =>
    intro carry _ hc
    unfold mulDigitLoop
    split
    · next h => simp [h, AllBelow]
    · exact ⟨by simp, fun x hx => by rw [List.mem_singleton.1 hx]; exact hc⟩
  | cons d ds ih =>
    intro carry h hc
    have hlt : (d * dg + carry) / B < B := by
      have := mul_step_lt (a := 0) (by omega) h.cons.1 hdg hc
      simpa using this
    obtain ⟨h1, h2⟩ := ih _ h.cons.2 hlt
    refine ⟨?_, allBelow_cons (Nat.mod_lt _ (by omega)) h2⟩
    simp only [mulDigitLoop, val_cons, h1]
    have := Nat.mod_add_div (d * dg + carry) B
    generalize (d * dg + carry) / B = k at *
    generalize (d * dg + carry) % B = t at *
    calc t + B * (val B ds * dg + k) = (t + B * k) + B * val B ds * dg := by ring
      _ = d * dg + carry + B * val B ds * dg := by rw [this]
      _ = _ := by ring

theorem mulDigitLoop_top (hB : 2 ≤ B) {dg : Nat} (hdg : dg < B) (h0 : 0 < dg) : ∀ (l : Magnitude) (carry : Nat),
    canonical B l = true → carry < B → (l ≠ [0] ∨ 0 < carry) →
    canonical B (mulDigitLoop B dg l carry) = true ∧ mulDigitLoop B dg l carry ≠ [0] := by
  intro l
  induction l with
  | nil => intro carry h; exact absurd rfl (canonical_ne_nil h)
  | cons d ds ih =>
    intro carry h hc hnz
    have hd := (canonical_allBelow h).cons.1
    have hlt : (d * dg + carry) / B < B := by
      have := mul_step_lt (a := 0) (by omega) hd hdg hc
      simpa using this
    by_cases hds : ds = []
    · subst hds
      have hpos : 0 < d * dg + carry := by
        rcases hnz with h | h
        · have : 0 < d := Nat.pos_of_ne_zero fun e => h (by rw [e])
          have := Nat.mul_pos this h0
          omega
        · omega
      simp only [mulDigitLoop]
      split
      · next hk =>
        have hm : (d * dg + carry) % B = d * dg + carry := by
          have := Nat.mod_add_div (d * dg + carry) B
          rw [hk] at this
          simpa using this
        refine ⟨canonical_singleton (Nat.mod_lt _ (by omega)), ?_⟩
        rw [hm]
        simp only [ne_eq, List.cons.injEq, and_true]
        omega
      · next hk =>
        refine ⟨(canonical_cons (by simp)).2 ⟨Nat.mod_lt _ (by omega), canonical_singleton hlt, ?_⟩, by simp⟩
        simpa using hk
    · obtain ⟨-, h2, h3⟩ := (canonical_cons hds).1 h
      obtain ⟨h4, h5⟩ := ih _ h2 hlt (.inl h3)
      simp only [mulDigitLoop]
      refine ⟨(canonical_cons (canonical_ne_nil h4)).2 ⟨Nat.mod_lt _ (by omega), h4, h5⟩, ?_⟩
      intro e
      exact canonical_ne_nil h4 (by simpa using (List.cons.inj e).2)

/-- The one-digit product (43_multiply.md R162). -/
theorem mulDigit_spec (hB : 2 ≤ B) {l : Magnitude} {dg : Nat} (hl : canonical B l = true) (hdg : dg < B) :
    val B (mulDigit B l dg) = val B l * dg ∧ canonical B (mulDigit B l dg) = true := by
  unfold mulDigit
  split
  · next h =>
    refine ⟨?_, canonical_singleton (by omega)⟩
    rcases h with h | h <;> simp [h]
  · next h =>
    have h0 : 0 < dg := Nat.pos_of_ne_zero fun e => h (.inl e)
    exact ⟨by simpa using (mulDigitLoop_spec hB hdg l 0 (canonical_allBelow hl) (by omega)).1,
      (mulDigitLoop_top hB hdg h0 l 0 hl (by omega) (.inl fun e => h (.inr e))).1⟩

/-! ### Schoolbook product -/

theorem mulRow_spec (hB : 2 ≤ B) {dg : Nat} (hdg : dg < B) : ∀ (l r1 : Magnitude) (z : Nat) (r2 : Magnitude) (carry : Nat),
    r1.length = l.length → AllBelow B l → AllBelow B r1 → carry < B →
    ∃ x, mulRow B dg l (r1 ++ z :: r2) carry = x ++ r2 ∧ x.length = l.length + 1 ∧
      val B x = val B r1 + dg * val B l + carry ∧ AllBelow B x := by
  intro l
  induction l with
  | nil =>
    intro r1 z r2 carry hlen _ _ hc
    have : r1 = [] := by simpa using hlen
    subst this
    exact ⟨[carry], by simp [mulRow], rfl, by simp, fun x hx => by rw [List.mem_singleton.1 hx]; exact hc⟩
  | cons d ds ih =>
    intro r1 z r2 carry hlen hl hr hc
    cases r1 with
    | nil => simp at hlen
    | cons r0 rs =>
      have hlt := mul_step_lt hr.cons.1 hdg hl.cons.1 hc
      obtain ⟨x, h1, h2, h3, h4⟩ := ih rs z r2 ((r0 + dg * d + carry) / B) (by simpa using hlen) hl.cons.2 hr.cons.2 hlt
      refine ⟨(r0 + dg * d + carry) % B :: x, by simp [mulRow, h1], by simp [h2], ?_,
        allBelow_cons (Nat.mod_lt _ (by omega)) h4⟩
      simp only [val_cons, h3]
      have := Nat.mod_add_div (r0 + dg * d + carry) B
      generalize (r0 + dg * d + carry) / B = k at *
      generalize (r0 + dg * d + carry) % B = t at *
      calc t + B * (val B rs + dg * val B ds + k) = (t + B * k) + B * val B rs + B * dg * val B ds := by ring
        _ = r0 + dg * d + carry + B * val B rs + B * dg * val B ds := by rw [this]
        _ = _ := by ring

theorem mulRows_spec (hB : 2 ≤ B) (l : Magnitude) (hl : AllBelow B l) : ∀ (s r1 : Magnitude),
    r1.length = l.length → AllBelow B s → AllBelow B r1 →
    val B (mulRows B s l (r1 ++ List.replicate s.length 0)) = val B r1 + val B s * val B l ∧
      AllBelow B (mulRows B s l (r1 ++ List.replicate s.length 0)) ∧
      (mulRows B s l (r1 ++ List.replicate s.length 0)).length = s.length + l.length := by
  intro s
  induction s with
  | nil => intro r1 hlen _ hr; simp [mulRows, hlen, hr]
  | cons d ds ih =>
    intro r1 hlen hs hr
    obtain ⟨x, h1, h2, h3, h4⟩ := mulRow_spec hB hs.cons.1 l r1 0 (List.replicate ds.length 0) 0 hlen hl hr (by omega)
    cases x with
    | nil => simp at h2
    | cons x0 xs =>
      obtain ⟨i1, i2, i3⟩ := ih xs (by simpa using h2) hs.cons.2 h4.cons.2
      have hr' : mulRows B (d :: ds) l (r1 ++ List.replicate (d :: ds).length 0)
          = x0 :: mulRows B ds l (xs ++ List.replicate ds.length 0) := by
        simp only [mulRows, List.length_cons, List.replicate_succ, h1, List.cons_append]
      rw [hr']
      refine ⟨?_, allBelow_cons h4.cons.1 i2, by simp only [List.length_cons, i3]; omega⟩
      simp only [val_cons] at h3 ⊢
      rw [i1]
      calc x0 + B * (val B xs + val B ds * val B l) = (x0 + B * val B xs) + B * val B ds * val B l := by ring
        _ = val B r1 + d * val B l + 0 + B * val B ds * val B l := by rw [h3]
        _ = _ := by ring

/-- "trim one possible leading zero" gives a canonical list when at most one top digit is zero (43_multiply.md R161). -/
theorem dropTopZero_spec {r : Magnitude} (hr : AllBelow B r) (hlen : 2 ≤ r.length)
    (hv : B ^ (r.length - 2) ≤ val B r) :
    val B (dropTopZero r) = val B r ∧ canonical B (dropTopZero r) = true := by
  have hne : r ≠ [] := by rintro rfl; simp at hlen
  have htop := val_eq_top (B := B) r hne
  unfold dropTopZero
  split
  · next h0 =>
    rw [h0, Nat.mul_zero, Nat.add_zero, ← List.dropLast_eq_take] at htop
    have hl : r.dropLast.length = r.length - 1 := by simp
    have hne' : r.dropLast ≠ [] := by intro e; rw [e] at hl; simp at hl; omega
    have hb : AllBelow B r.dropLast := fun x hx => hr x (List.mem_of_mem_dropLast hx)
    refine ⟨htop.symm, (canonical_iff _).2 ⟨hne', hb, ?_⟩⟩
    by_contra hcon
    push Not at hcon
    obtain ⟨hn1, hz⟩ := hcon
    have h2 := val_eq_top (B := B) r.dropLast hne'
    rw [hz, Nat.mul_zero, Nat.add_zero] at h2
    have h3 : AllBelow B (r.dropLast.take (r.dropLast.length - 1)) := fun x hx => hb x (List.mem_of_mem_take hx)
    have h4 := val_lt_pow h3
    rw [← h2, ← htop, List.length_take, hl] at h4
    have : min (r.length - 1 - 1) (r.length - 1) = r.length - 2 := by omega
    rw [this] at h4
    omega
  · next h0 => exact ⟨rfl, (canonical_iff _).2 ⟨hne, hr, .inr h0⟩⟩

/-- The schoolbook product (43_multiply.md R161). -/
theorem longMultiply_spec (hB : 2 ≤ B) {p q : Magnitude} (hp : canonical B p = true) (hq : canonical B q = true) :
    val B (longMultiply B p q) = val B p * val B q ∧ canonical B (longMultiply B p q) = true := by
  unfold longMultiply
  split
  · next h =>
    refine ⟨?_, canonical_singleton (by omega)⟩
    rcases h with h | h <;> simp [h]
  · next h =>
    push Not at h
    have main : ∀ s l : Magnitude, canonical B s = true → canonical B l = true → s ≠ [0] → l ≠ [0] →
        ∀ n, n = s.length + l.length →
        val B (dropTopZero (mulRows B s l (List.replicate n 0))) = val B s * val B l ∧
          canonical B (dropTopZero (mulRows B s l (List.replicate n 0))) = true := by
      rintro s l hs hl hs0 hl0 n rfl
      obtain ⟨h1, h2, h3⟩ := mulRows_spec hB l (canonical_allBelow hl) s (List.replicate l.length 0) (by simp)
        (canonical_allBelow hs) (allBelow_zeros (by omega) _)
      rw [← List.replicate_add, Nat.add_comm l.length] at h1 h2 h3
      rw [val_zeros, Nat.zero_add] at h1
      have hsp := length_pos_of_canonical hs
      have hlp := length_pos_of_canonical hl
      have hpow : B ^ ((mulRows B s l (List.replicate (s.length + l.length) 0)).length - 2)
          ≤ val B (mulRows B s l (List.replicate (s.length + l.length) 0)) := by
        rw [h1, h3]
        calc B ^ (s.length + l.length - 2) = B ^ (s.length - 1) * B ^ (l.length - 1) := by
              rw [← pow_add]; congr 1; omega
          _ ≤ _ := Nat.mul_le_mul (pow_le_val hs hs0) (pow_le_val hl hl0)
      have := dropTopZero_spec h2 (by rw [h3]; omega) hpow
      exact ⟨this.1.trans h1, this.2⟩
    unfold shorterFirst
    split
    · exact main p q hp hq h.1 h.2 _ rfl
    · have := main q p hq hp h.2 h.1 (p.length + q.length) (Nat.add_comm _ _)
      exact ⟨this.1.trans (Nat.mul_comm _ _), this.2⟩

/-! ### Karatsuba -/

theorem canonical_drop {m : Magnitude} (h : canonical B m = true) {k : Nat} (hk : k < m.length) :
    canonical B (m.drop k) = true := by
  cases k with
  | zero => simpa using h
  | succ k =>
    obtain ⟨-, h2, h3⟩ := (canonical_iff m).1 h
    refine (canonical_iff _).2 ⟨?_, fun x hx => h2 x (List.mem_of_mem_drop hx), .inr ?_⟩
    · intro e; have := congrArg List.length e; simp at this; omega
    · rcases h3 with h3 | h3
      · omega
      · simp only [digitAt, List.length_drop, List.getD_eq_getElem?_getD, List.getElem?_drop] at h3 ⊢
        rwa [show k + 1 + (m.length - (k + 1) - 1) = m.length - 1 by omega]

/-- The value of a split operand (43_multiply.md R163). -/
theorem split_value {m : Magnitude} {half : Nat} (h : half ≤ m.length) :
    val B (trim (m.take half)) + B ^ half * val B (m.drop half) = val B m := by
  rw [val_trim]; exact val_take_drop m half h

theorem canonical_trim_take {m : Magnitude} (hm : canonical B m = true) {half : Nat} (h0 : 0 < half) :
    canonical B (trim (m.take half)) = true := by
  refine canonical_trim ?_ fun x hx => canonical_allBelow hm x (List.mem_of_mem_take hx)
  intro e
  have h1 := congrArg List.length e
  have h2 := length_pos_of_canonical hm
  rw [List.length_take, List.length_nil] at h1
  omega

theorem allBelow_shiftDigits (hB : 2 ≤ B) {m : Magnitude} (h : AllBelow B m) (k : Nat) : AllBelow B (shiftDigits m k) := by
  unfold shiftDigits
  split
  · exact fun x hx => by rw [List.mem_singleton.1 hx]; omega
  · exact allBelow_append (allBelow_zeros (by omega) k) h

/-- The identity of 43_multiply.md R164. -/
theorem karatsuba_identity (b sl sh ll lh : Nat) :
    (b * b) * (sh * lh) + b * ((sl + sh) * (ll + lh) - sl * ll - sh * lh) + sl * ll = (sl + b * sh) * (ll + b * lh) := by
  have h1 : (sl + sh) * (ll + lh) = sl * ll + sl * lh + (sh * ll + sh * lh) := by ring
  have h2 : (sl + sh) * (ll + lh) - sl * ll - sh * lh = sl * lh + sh * ll := by omega
  rw [h2]; ring

/-- The Karatsuba product, for any fuel and threshold (43_multiply.md R163, R164). -/
theorem karatsubaAux_spec (hB : 2 ≤ B) (kt : Nat) : ∀ (fuel : Nat) {p q : Magnitude}, canonical B p = true →
    canonical B q = true →
    val B (karatsubaAux B kt fuel p q) = val B p * val B q ∧ canonical B (karatsubaAux B kt fuel p q) = true := by
  intro fuel
  induction fuel with
  | zero => exact fun hp hq => longMultiply_spec hB hp hq
  | succ fuel ih =>
    intro p q hp hq
    have hswap : ∃ s l, shorterFirst p q = (s, l) ∧ canonical B s = true ∧ canonical B l = true ∧
        s.length ≤ l.length ∧ val B p * val B q = val B s * val B l := by
      unfold shorterFirst
      split
      · next h => exact ⟨p, q, rfl, hp, hq, h, rfl⟩
      · next h => exact ⟨q, p, rfl, hq, hp, by omega, Nat.mul_comm _ _⟩
    obtain ⟨s, l, he, hs, hl, hle, hval⟩ := hswap
    simp only [karatsubaAux, he]
    split
    · exact longMultiply_spec hB hp hq
    · split
      · next h1 =>
        obtain ⟨d, rfl⟩ := List.length_eq_one_iff.1 h1
        have hd : d < B := canonical_allBelow hs d (by simp)
        have := mulDigit_spec hB hl hd
        refine ⟨?_, this.2⟩
        rw [hval, show digitAt [d] 0 = d from rfl, this.1]
        simp [Nat.mul_comm]
      · next h1 =>
        have hspos := length_pos_of_canonical hs
        set half := s.length / 2 with hhalf
        have h0 : 0 < half := by omega
        have hlt : half < s.length := by omega
        have cs1 := canonical_trim_take hs h0
        have cs2 := canonical_drop hs hlt
        have cl1 := canonical_trim_take hl h0
        have cl2 := canonical_drop hl (lt_of_lt_of_le hlt hle)
        have vs := split_value (B := B) hlt.le
        have vl := split_value (B := B) (hlt.le.trans hle)
        generalize trim (s.take half) = sl at *
        generalize s.drop half = sh at *
        generalize trim (l.take half) = ll at *
        generalize l.drop half = lh at *
        obtain ⟨lo1, lo2⟩ := ih cs1 cl1
        obtain ⟨hi1, hi2⟩ := ih cs2 cl2
        have as := addMag_spec hB (canonical_allBelow cs1) (canonical_allBelow cs2)
        have al := addMag_spec hB (canonical_allBelow cl1) (canonical_allBelow cl2)
        obtain ⟨mi1, mi2⟩ := ih as.2 al.2
        rw [as.1, al.1] at mi1
        generalize karatsubaAux B kt fuel sl ll = lo at *
        generalize karatsubaAux B kt fuel sh lh = hi at *
        generalize karatsubaAux B kt fuel (addMag B sl sh) (addMag B ll lh) = mid at *
        have expand : (val B sl + val B sh) * (val B ll + val B lh)
            = val B lo + val B hi + (val B sl * val B lh + val B sh * val B ll) := by rw [lo1, hi1]; ring
        have hsub1 : (subMag B mid lo).2 = digits B (val B mid - val B lo) := by
          rw [subMag_eq hB mi2 lo2, if_pos (by omega)]
        have hsub2 : (subMag B (subMag B mid lo).2 hi).2 = digits B (val B mid - val B lo - val B hi) := by
          rw [hsub1, subMag_eq hB (canonical_digits hB _) hi2, val_digits hB, if_pos (by omega)]
        rw [hsub2]
        have b1 := allBelow_shiftDigits hB (canonical_allBelow hi2) (2 * half)
        have b2 := allBelow_shiftDigits hB (canonical_allBelow (canonical_digits hB (val B mid - val B lo - val B hi))) half
        have a1 := addMag_spec hB b1 b2
        have a2 := addMag_spec hB (canonical_allBelow a1.2) (canonical_allBelow lo2)
        refine ⟨?_, a2.2⟩
        rw [a2.1, a1.1, val_shiftDigits, val_shiftDigits, val_digits hB, hval, ← vs, ← vl, hi1, lo1, mi1,
          show B ^ (2 * half) = B ^ half * B ^ half by rw [two_mul, pow_add]]
        exact karatsuba_identity _ _ _ _ _

/-- `karatsuba(p, q) = digits(val(p) · val(q))` (43_multiply.md R166). -/
theorem karatsuba_eq_digits (hB : 2 ≤ B) (kt : Nat) {p q : Magnitude} (hp : canonical B p = true)
    (hq : canonical B q = true) : karatsuba B kt p q = digits B (val B p * val B q) :=
  eq_digits hB (karatsubaAux_spec hB kt _ hp hq).2 (karatsubaAux_spec hB kt _ hp hq).1

/-- `long_multiply(p, q) = digits(val(p) · val(q))` (43_multiply.md R166). -/
theorem longMultiply_eq_digits (hB : 2 ≤ B) {p q : Magnitude} (hp : canonical B p = true) (hq : canonical B q = true) :
    longMultiply B p q = digits B (val B p * val B q) :=
  eq_digits hB (longMultiply_spec hB hp hq).2 (longMultiply_spec hB hp hq).1

end Sys2Proof.Machine
end

