-- ==== Sys2Proof/Laws/Shift.lean ====
section
/-! SUPPORT. Laws/Shift.lean: the left shifter multiplies by 2^k with the exact length announced (45_shift.md R211, R213)
and the right shifter divides by 2^k (R212). -/

namespace Sys2Proof.Machine

variable {W : Nat}

theorem two_le_base (hW : 0 < W) : 2 ≤ 2 ^ W := by
  calc 2 = 2 ^ 1 := (pow_one 2).symm
    _ ≤ 2 ^ W := Nat.pow_le_pow_right (by norm_num) hW

/-- `2^k` by the shift-offset descriptor (40_digit_accumulator.md R111). -/
theorem two_pow_sod (W k : Nat) : 2 ^ k = (2 ^ W) ^ (sod W k).1 * 2 ^ (sod W k).2 := by
  rw [← pow_mul, ← pow_add]
  congr 1
  exact (Nat.div_add_mod k W).symm

/-! ### Left shift -/

theorem shift_carry {bt t c : Nat} (hbt : bt ≤ W) (hc : c < 2 ^ bt) : (t * 2 ^ bt + c) / 2 ^ W = t / 2 ^ (W - bt) := by
  conv_lhs => rw [show W = bt + (W - bt) by omega, pow_add, ← Nat.div_div_eq_div_mul]
  rw [Nat.mul_comm t, Nat.mul_add_div (by positivity), Nat.div_eq_of_lt hc, Nat.add_zero]

theorem shift_carry_lt {bt t : Nat} (hbt : bt ≤ W) (ht : t < 2 ^ W) : t / 2 ^ (W - bt) < 2 ^ bt := by
  rw [Nat.div_lt_iff_lt_mul (by positivity), ← pow_add, show bt + (W - bt) = W by omega]
  exact ht

/-- The sub-digit left shift is the one-digit product by 2^bt (45_shift.md R211). -/
theorem shlBits_eq {bt : Nat} (hbt : bt ≤ W) : ∀ (m : Magnitude) (c : Nat), AllBelow (2 ^ W) m → c < 2 ^ bt →
    shlBits W bt m c = mulDigitLoop (2 ^ W) (2 ^ bt) m c := by
  intro m
  induction m with
  | nil => intro c _ _; rfl
  | cons t ts ih =>
    intro c h hc
    rw [shlBits, mulDigitLoop, shift_carry hbt hc, ih _ h.cons.2 (shift_carry_lt hbt h.cons.1)]

theorem shlBits_length {bt : Nat} : ∀ (m : Magnitude) (c : Nat), m ≠ [] →
    (shlBits W bt m c).length = m.length + (if 2 ^ (W - bt) ≤ digitAt m (m.length - 1) then 1 else 0) := by
  intro m
  induction m with
  | nil => intro c h; exact absurd rfl h
  | cons t ts ih =>
    intro c _
    by_cases hts : ts = []
    · subst hts
      have hp : 0 < 2 ^ (W - bt) := by positivity
      by_cases h : 2 ^ (W - bt) ≤ t
      · have h' : t / 2 ^ (W - bt) ≠ 0 := by have := Nat.div_pos h hp; omega
        simp [shlBits, digitAt, h, -Nat.div_eq_zero_iff, h']
      · have h' : t / 2 ^ (W - bt) = 0 := Nat.div_eq_of_lt (by omega)
        simp [shlBits, digitAt, h, -Nat.div_eq_zero_iff, h']
    · have hl := List.length_pos_iff.2 hts
      have hd : digitAt (t :: ts) ((t :: ts).length - 1) = digitAt ts (ts.length - 1) := by
        rw [show (t :: ts).length - 1 = (ts.length - 1) + 1 by simp; omega, digitAt_cons_succ]
      rw [hd]
      simp only [shlBits, List.length_cons, ih _ hts]
      omega

theorem canonical_zerosThen {B : Nat} (hB : 2 ≤ B) {m : Magnitude} (h : canonical B m = true) (h0 : m ≠ [0]) (k : Nat) :
    canonical B (zerosThen k m) = true := by
  induction k with
  | zero => simpa [zerosThen] using h
  | succ k ih =>
    have : zerosThen (k + 1) m = 0 :: zerosThen k m := by simp [zerosThen, List.replicate_succ]
    rw [this, canonical_cons (canonical_ne_nil ih)]
    refine ⟨by omega, ih, fun e => ?_⟩
    have h1 := (eq_zero_iff hB ih).1 e
    rw [val_zerosThen] at h1
    rcases Nat.mul_eq_zero.1 h1 with h1 | h1
    · exact absurd h1 (pow_ne_zero _ (by omega))
    · exact h0 ((eq_zero_iff hB h).2 h1)

/-- `shl(m, k) = digits(val(m) · 2^k)` (45_shift.md R211). -/
theorem shlMag_eq_digits (hW : 0 < W) {m : Magnitude} (h : canonical (2 ^ W) m = true) (k : Nat) :
    shlMag W m k = digits (2 ^ W) (val (2 ^ W) m * 2 ^ k) := by
  have hB := two_le_base hW
  unfold shlMag
  split
  · next h0 => simp [h0, digits_zero]
  · next h0 =>
    have hbt : (sod W k).2 < W := Nat.mod_lt k hW
    have key : canonical (2 ^ W) (if (sod W k).2 > 0 then shlBits W (sod W k).2 m 0 else m) = true ∧
        (if (sod W k).2 > 0 then shlBits W (sod W k).2 m 0 else m) ≠ [0] ∧
        val (2 ^ W) (if (sod W k).2 > 0 then shlBits W (sod W k).2 m 0 else m) = val (2 ^ W) m * 2 ^ (sod W k).2 := by
      split
      · rw [shlBits_eq hbt.le m 0 (canonical_allBelow h) (by positivity)]
        have hdg : 2 ^ (sod W k).2 < 2 ^ W := Nat.pow_lt_pow_right (by norm_num) hbt
        have h1 := mulDigitLoop_top hB hdg (by positivity) m 0 h (by omega) (.inl h0)
        have h2 := mulDigitLoop_spec hB hdg m 0 (canonical_allBelow h) (by omega)
        exact ⟨h1.1, h1.2, by simpa using h2.1⟩
      · next hz =>
        have : (sod W k).2 = 0 := by omega
        exact ⟨h, h0, by simp [this]⟩
    refine eq_digits hB (canonical_zerosThen hB key.1 key.2.1 _) ?_
    rw [val_zerosThen, key.2.2, two_pow_sod W k]
    ring

/-- The announced length is the length (45_shift.md R213). -/
theorem shlMag_length {m : Magnitude} (hne : m ≠ []) (k : Nat) :
    (shlMag W m k).length = shlLength W m k := by
  unfold shlMag shlLength
  split
  · rfl
  · simp only [zerosThen, List.length_append, List.length_replicate, shlOverflow]
    split
    · next hz =>
      rw [shlBits_length m 0 hne]
      have : 0 < (sod W k).2 := hz
      simp only [this, true_and]
      omega
    · next hz =>
      have : ¬ 0 < (sod W k).2 := hz
      simp only [this, false_and, if_false]
      omega

/-! ### Right shift -/

theorem val_drop {B : Nat} (hB : 0 < B) {m : Magnitude} (h : AllBelow B m) (k : Nat) :
    val B (m.drop k) = val B m / B ^ k := by
  by_cases hk : k ≤ m.length
  · have h1 := val_take_drop (B := B) m k hk
    have h2 : val B (m.take k) < B ^ k := by
      have := val_lt_pow (fun x hx => h x (List.mem_of_mem_take hx) : AllBelow B (m.take k))
      rwa [List.length_take, min_eq_left hk] at this
    rw [← h1, Nat.add_mul_div_left _ _ (by positivity), Nat.div_eq_of_lt h2, Nat.zero_add]
  · rw [List.drop_eq_nil_of_le (by omega), val_nil, Nat.div_eq_of_lt]
    exact lt_of_lt_of_le (val_lt_pow h) (Nat.pow_le_pow_right hB (by omega))

theorem shrBits_spec {bt : Nat} (hbt : bt ≤ W) : ∀ (r : Magnitude), AllBelow (2 ^ W) r →
    val (2 ^ W) (shrBits W bt r) = val (2 ^ W) r / 2 ^ bt ∧ AllBelow (2 ^ W) (shrBits W bt r) ∧
      (shrBits W bt r).length = r.length := by
  have hsplit : 2 ^ W = 2 ^ bt * 2 ^ (W - bt) := by rw [← pow_add]; congr 1; omega
  intro r
  induction r with
  | nil => intro h; simp [shrBits, AllBelow]
  | cons d ds ih =>
    intro h
    obtain ⟨h1, h2, h3⟩ := ih h.cons.2
    have hn : ds.headD 0 * 2 ^ (W - bt) % 2 ^ W = val (2 ^ W) ds % 2 ^ bt * 2 ^ (W - bt) := by
      rw [hsplit, Nat.mul_mod_mul_right]
      congr 1
      cases ds with
      | nil => simp
      | cons e es => simp [Nat.mul_assoc]
    refine ⟨?_, allBelow_cons ?_ h2, by simp [shrBits, h3]⟩
    · simp only [shrBits, val_cons, h1, hn]
      have e1 : (d + 2 ^ W * val (2 ^ W) ds) / 2 ^ bt = d / 2 ^ bt + 2 ^ (W - bt) * val (2 ^ W) ds := by
        conv_lhs => rw [hsplit, Nat.mul_assoc, Nat.add_mul_div_left _ _ (by positivity), ← hsplit]
      rw [e1]
      have := Nat.mod_add_div (val (2 ^ W) ds) (2 ^ bt)
      generalize val (2 ^ W) ds / 2 ^ bt = q at *
      generalize val (2 ^ W) ds % 2 ^ bt = t at *
      rw [← this, hsplit]; ring
    · rw [hn]
      have a1 : d / 2 ^ bt < 2 ^ (W - bt) := by
        rw [Nat.div_lt_iff_lt_mul (by positivity), Nat.mul_comm, ← hsplit]; exact h.cons.1
      have a2 : val (2 ^ W) ds % 2 ^ bt + 1 ≤ 2 ^ bt := Nat.mod_lt _ (by positivity)
      calc d / 2 ^ bt + val (2 ^ W) ds % 2 ^ bt * 2 ^ (W - bt)
          < 2 ^ (W - bt) + val (2 ^ W) ds % 2 ^ bt * 2 ^ (W - bt) := by omega
        _ = (val (2 ^ W) ds % 2 ^ bt + 1) * 2 ^ (W - bt) := by ring
        _ ≤ 2 ^ bt * 2 ^ (W - bt) := Nat.mul_le_mul_right _ a2
        _ = 2 ^ W := hsplit.symm

/-- `shr(m, k) = digits(val(m) div 2^k)` (45_shift.md R212). -/
theorem shrMag_eq_digits (hW : 0 < W) {m : Magnitude} (h : canonical (2 ^ W) m = true) (k : Nat) :
    shrMag W m k = digits (2 ^ W) (val (2 ^ W) m / 2 ^ k) := by
  have hB := two_le_base hW
  have hdrop := val_drop (B := 2 ^ W) (by omega) (canonical_allBelow h) (sod W k).1
  have hdiv : val (2 ^ W) m / 2 ^ k = val (2 ^ W) (m.drop (sod W k).1) / 2 ^ (sod W k).2 := by
    rw [hdrop, Nat.div_div_eq_div_mul, ← two_pow_sod]
  rw [hdiv]
  unfold shrMag
  split
  · next h0 =>
    subst h0
    cases (sod W k).1 <;> simp [digits_zero]
  · split
    · next h1 => rw [List.drop_eq_nil_of_le h1]; simp [digits_zero]
    · next h1 =>
      have hr : AllBelow (2 ^ W) (m.drop (sod W k).1) := fun x hx => canonical_allBelow h x (List.mem_of_mem_drop hx)
      have hne : m.drop (sod W k).1 ≠ [] := by
        intro e
        have := congrArg List.length e
        rw [List.length_drop, List.length_nil] at this
        omega
      simp only
      split
      · obtain ⟨h2, h3, h4⟩ := shrBits_spec (Nat.mod_lt k hW).le (m.drop (sod W k).1) hr
        refine eq_digits hB (canonical_trim ?_ h3) ((val_trim _).trans h2)
        intro e
        have := h4
        rw [show shrBits W (k % W) (List.drop (sod W k).1 m) = [] from e] at this
        exact hne (List.length_eq_zero_iff.1 this.symm)
      · next hz =>
        have : (sod W k).2 = 0 := by omega
        rw [this]
        exact eq_digits hB (canonical_trim hne hr) (by rw [val_trim]; simp)

end Sys2Proof.Machine
end

