-- ==== Sys2Proof/Laws/Divide.lean ====
section
/-! SUPPORT. Laws/Divide.lean: both division datapaths answer the Euclidean pair, so no correction loop runs more than
twice and no postcondition fails (44_divide.md R186, R187, R193, R194). -/

namespace Sys2Proof.Machine

variable {B : Nat}

/-! ### Digits by division -/

/-- A digit of a magnitude by its value. -/
theorem digitAt_eq (hB : 0 < B) : ∀ {m : Magnitude} (i : Nat), AllBelow B m → digitAt m i = val B m / B ^ i % B := by
  intro m
  induction m with
  | nil => intro i _; simp [digitAt]
  | cons d ds ih =>
    intro i h
    cases i with
    | zero => simp [digitAt, Nat.mod_eq_of_lt h.cons.1]
    | succ i =>
      rw [digitAt_cons_succ, ih i h.cons.2, val_cons, pow_succ, Nat.mul_comm (B ^ i) B, ← Nat.div_div_eq_div_mul,
        Nat.add_mul_div_left _ _ hB, Nat.div_eq_of_lt h.cons.1, Nat.zero_add]

/-- The number of digits by the value. -/
theorem length_digits (hB : 2 ≤ B) {v k : Nat} (hk : 1 ≤ k) (h1 : B ^ (k - 1) ≤ v) (h2 : v < B ^ k) :
    (digits B v).length = k := by
  have hc := canonical_digits hB v
  have hle := length_le_of_val_lt hB hc hk (by rwa [val_digits hB])
  have hlt := val_lt_pow (canonical_allBelow hc)
  rw [val_digits hB] at hlt
  have := (Nat.pow_lt_pow_iff_right (by omega : 1 < B)).1 (lt_of_le_of_lt h1 hlt)
  omega

/-- D has k digits and its top digit is at least half the base: normalized (44_divide.md R182). -/
def Normalized (B D k : Nat) : Prop := 1 ≤ k ∧ B ^ k ≤ 2 * D ∧ D < B ^ k

theorem Normalized.pos (hB : 2 ≤ B) {D k : Nat} (h : Normalized B D k) : 0 < D := by
  have : 0 < B ^ k := by positivity
  have := h.2.1
  omega

theorem Normalized.length (hB : 2 ≤ B) {D k : Nat} (h : Normalized B D k) : (digits B D).length = k := by
  refine length_digits hB h.1 ?_ h.2.2
  have h1 : 2 * B ^ (k - 1) ≤ B ^ k := by
    conv_rhs => rw [show k = (k - 1) + 1 by have := h.1; omega, pow_succ, Nat.mul_comm]
    exact Nat.mul_le_mul_right _ hB
  have := h.2.1
  omega

/-! ### One quotient digit (44_divide.md R184 to R186) -/

/-- Knuth's bound: for a normalized divisor the estimate is not below the digit and exceeds it by at most 2. -/
theorem estimate_bounds (hB : 2 ≤ B) {D k r : Nat} (hD : Normalized B D k) (hr : r < B * D) :
    r / D ≤ estimate B (pad (digits B r) (k + 1)) (digits B D) k ∧
      estimate B (pad (digits B r) (k + 1)) (digits B D) k ≤ r / D + 2 := by
  have hpos := hD.pos hB
  have hB0 : 0 < B := by omega
  have hP : 0 < B ^ (k - 1) := by positivity
  have hkk : B ^ k = B ^ (k - 1) * B := by rw [← pow_succ]; congr 1; have := hD.1; omega
  have hrlt : r < B ^ (k + 1) := by
    calc r < B * D := hr
      _ ≤ B * B ^ k := Nat.mul_le_mul_left _ hD.2.2.le
      _ = B ^ (k + 1) := by rw [pow_succ]; ring
  have hpad : AllBelow B (pad (digits B r) (k + 1)) := allBelow_pad hB0 (canonical_allBelow (canonical_digits hB r)) _
  have hnum : digitAt (pad (digits B r) (k + 1)) k * B + digitAt (pad (digits B r) (k + 1)) (k - 1) =
      r / B ^ (k - 1) := by
    rw [digitAt_eq hB0 k hpad, digitAt_eq hB0 (k - 1) hpad, val_pad, val_digits hB]
    have h1 : r / B ^ k = r / B ^ (k - 1) / B := by rw [hkk, Nat.div_div_eq_div_mul]
    have h2 : r / B ^ k < B := by
      rw [Nat.div_lt_iff_lt_mul (by positivity)]
      calc r < B ^ (k + 1) := hrlt
        _ = B * B ^ k := by rw [pow_succ]; ring
    rw [Nat.mod_eq_of_lt h2, h1, Nat.mul_comm]
    exact Nat.div_add_mod _ _
  have hden : digitAt (digits B D) (k - 1) = D / B ^ (k - 1) := by
    rw [digitAt_eq hB0 _ (canonical_allBelow (canonical_digits hB D)), val_digits hB]
    refine Nat.mod_eq_of_lt ?_
    rw [Nat.div_lt_iff_lt_mul hP, Nat.mul_comm, ← hkk]
    exact hD.2.2
  unfold estimate
  rw [hnum, hden]
  set d1 := D / B ^ (k - 1) with hd1
  set P := B ^ (k - 1) with hPdef
  have hd1pos : 0 < d1 := by
    rw [hd1]
    refine Nat.div_pos ?_ hP
    have h2 : 2 * P ≤ P * B := by rw [Nat.mul_comm]; exact Nat.mul_le_mul_left _ hB
    have := hD.2.1
    omega
  have hdP : d1 * P ≤ D := Nat.div_mul_le_self D P
  have hDlt : D < (d1 + 1) * P := by
    have := Nat.lt_succ_self (D / P)
    rw [Nat.div_lt_iff_lt_mul hP] at this
    exact this
  have hq : r / D * D ≤ r := Nat.div_mul_le_self r D
  have hq' : r < (r / D + 1) * D := by
    have := Nat.lt_succ_self (r / D)
    rw [Nat.div_lt_iff_lt_mul hpos] at this
    exact this
  constructor
  · refine le_min ?_ ?_
    · rw [Nat.le_div_iff_mul_le hd1pos, Nat.le_div_iff_mul_le hP]
      calc r / D * d1 * P = r / D * (d1 * P) := by ring
        _ ≤ r / D * D := Nat.mul_le_mul_left _ hdP
        _ ≤ r := hq
    · have : r / D < B := by rw [Nat.div_lt_iff_lt_mul hpos]; exact hr
      omega
  · by_contra hcon
    rw [not_le] at hcon
    set qh := min (r / P / d1) (B - 1) with hqh
    have h1 : qh * d1 ≤ r / P := by
      calc qh * d1 ≤ r / P / d1 * d1 := Nat.mul_le_mul_right _ (min_le_left _ _)
        _ ≤ r / P := Nat.div_mul_le_self _ _
    have h2 : qh * d1 * P ≤ r := by
      calc qh * d1 * P ≤ r / P * P := Nat.mul_le_mul_right _ h1
        _ ≤ r := Nat.div_mul_le_self _ _
    have h3 : qh ≤ B - 1 := min_le_right _ _
    have h4 : qh * D ≤ qh * d1 * P + qh * P := by
      calc qh * D ≤ qh * ((d1 + 1) * P) := Nat.mul_le_mul_left _ hDlt.le
        _ = qh * d1 * P + qh * P := by ring
    have h5 : (r / D + 3) * D ≤ qh * D := Nat.mul_le_mul_right _ hcon
    have h6 : qh * P ≤ (B - 1) * P := Nat.mul_le_mul_right _ h3
    have h7 : (B - 1) * P + P = P * B := by
      rw [← Nat.succ_mul, show (B - 1).succ = B by omega, Nat.mul_comm]
    have h8 := hD.2.1
    have h9 : (r / D + 3) * D = (r / D + 1) * D + 2 * D := by ring
    omega

theorem correctQuotient_eq {D r : Nat} (hD : 0 < D) : ∀ (budget qhat : Nat), r / D ≤ qhat → qhat ≤ r / D + budget →
    correctQuotient D r budget qhat = .ok (r / D) := by
  have key : ∀ q, r < q * D ↔ r / D < q := fun q => (Nat.div_lt_iff_lt_mul hD).symm
  generalize r / D = q0 at key ⊢
  intro budget
  induction budget with
  | zero =>
    intro qhat h1 h2
    have : qhat = q0 := by omega
    subst this
    rw [correctQuotient, if_neg (by rw [key]; omega)]
  | succ n ih =>
    intro qhat h1 h2
    rw [correctQuotient]
    by_cases h : r < qhat * D
    · rw [if_pos h]
      rw [key] at h
      exact ih _ (by omega) (by omega)
    · rw [if_neg h]
      rw [key] at h
      congr 1
      omega

/-- One step of long division gives the exact digit and remainder. -/
theorem quotientDigit_eq (hB : 2 ≤ B) {D k r : Nat} (hD : Normalized B D k) (hr : r < B * D) :
    quotientDigit B D r = .ok (r / D, r % D) := by
  unfold quotientDigit
  split
  · next h => rw [Nat.div_eq_of_lt h, Nat.mod_eq_of_lt h]
  · have hb := estimate_bounds hB hD hr
    simp only [hD.length hB, correctQuotient_eq (hD.pos hB) 2 _ hb.1 hb.2, bind_ok_eq, pure_eq_ok]
    congr 2
    have := Nat.div_add_mod r D
    rw [Nat.mul_comm] at this
    omega

/-! ### Long division -/

theorem longDivideLoop_spec (hB : 2 ≤ B) {D k : Nat} (hD : Normalized B D k) : ∀ (ns : List Nat) (r : Nat)
    (qd : Magnitude), AllBelow B ns → r < D → ∃ qd' r', longDivideLoop B D ns r qd = .ok (qd', r') ∧ r' < D ∧
      val B qd' * D + r' = (val B qd * D + r) * B ^ ns.length + val B ns.reverse := by
  intro ns
  induction ns with
  | nil => intro r qd _ hr; exact ⟨qd, r, rfl, hr, by simp⟩
  | cons n ns ih =>
    intro r qd hns hr
    have hlt : r * B + n < B * D := by
      have h1 : (r + 1) * B ≤ D * B := Nat.mul_le_mul_right _ hr
      have h2 := hns.cons.1
      rw [Nat.mul_comm B D]
      have : (r + 1) * B = r * B + B := by ring
      omega
    obtain ⟨qd', r', h1, h2, h3⟩ := ih ((r * B + n) % D) ((r * B + n) / D :: qd) hns.cons.2 (Nat.mod_lt _ (hD.pos hB))
    refine ⟨qd', r', by rw [longDivideLoop, quotientDigit_eq hB hD hlt]; exact h1, h2, ?_⟩
    rw [h3, val_cons, val_reverse_cons, List.length_cons, pow_succ]
    have h4 : ((r * B + n) / D + B * val B qd) * D + (r * B + n) % D = (val B qd * D + r) * B + n := by
      have := Nat.div_add_mod (r * B + n) D
      calc ((r * B + n) / D + B * val B qd) * D + (r * B + n) % D
          = (D * ((r * B + n) / D) + (r * B + n) % D) + B * val B qd * D := by ring
        _ = (r * B + n) + B * val B qd * D := by rw [this]
        _ = (val B qd * D + r) * B + n := by ring
    rw [h4]
    ring

theorem pair_unique {N D q r : Nat} (h : q * D + r = N) (hr : r < D) : q = N / D ∧ r = N % D := by
  subst h
  have hD : 0 < D := by omega
  constructor
  · rw [Nat.mul_comm, Nat.mul_add_div hD, Nat.div_eq_of_lt hr, Nat.add_zero]
  · rw [Nat.mul_comm, Nat.mul_add_mod, Nat.mod_eq_of_lt hr]

/-- Long division by a normalized divisor (44_divide.md R184). -/
theorem longDivide_eq (hB : 2 ≤ B) {N D k : Nat} (hD : Normalized B D k) :
    longDivide B N D = .ok (N / D, N % D) := by
  have hns : AllBelow B (digits B N).reverse := allBelow_reverse (canonical_allBelow (canonical_digits hB N))
  obtain ⟨qd, r, h1, h2, h3⟩ := longDivideLoop_spec hB hD (digits B N).reverse 0 [] hns (hD.pos hB)
  have h4 : val B qd * D + r = N := by simpa [val_digits hB] using h3
  obtain ⟨hq, hr⟩ := pair_unique h4 h2
  simp only [longDivide, h1, bind_ok_eq, pure_eq_ok, val_trim, hq, hr]

/-! ### Divide and conquer (44_divide.md R188 to R193) -/

theorem correctRemainder_eq {a b : Nat} : ∀ (budget qhat : Nat) (rhat : Int), (qhat : Int) * b + rhat = a →
    rhat < b → -((budget : Int) * b) ≤ rhat → correctRemainder b budget qhat rhat = .ok (a / b, a % b) := by
  have done : ∀ (qhat : Nat) (rhat : Int), (qhat : Int) * b + rhat = a → rhat < b → ¬ rhat < 0 →
      (qhat, rhat.toNat) = (a / b, a % b) := by
    intro qhat rhat h1 h2 h3
    have h4 : qhat * b + rhat.toNat = a := by
      have : ((qhat * b + rhat.toNat : Nat) : Int) = a := by
        push_cast
        rw [Int.toNat_of_nonneg (by omega)]
        exact h1
      exact_mod_cast this
    obtain ⟨hq, hr⟩ := pair_unique h4 (by omega)
    rw [hq, hr]
  intro budget
  induction budget with
  | zero =>
    intro qhat rhat h1 h2 h3
    have : ¬ rhat < 0 := by simp at h3; omega
    rw [correctRemainder, if_neg this, done qhat rhat h1 h2 this]
  | succ n ih =>
    intro qhat rhat h1 h2 h3
    rw [correctRemainder]
    by_cases h : rhat < 0
    · rw [if_pos h]
      have hq : 1 ≤ qhat := by
        rcases Nat.eq_zero_or_pos qhat with h0 | h0
        · subst h0; simp at h1; omega
        · exact h0
      refine ih _ _ ?_ (by omega) ?_
      · rw [Nat.cast_sub hq, ← h1]; push_cast; ring
      · push_cast at h3 ⊢
        have : ((n : Int) + 1) * b = n * b + b := by ring
        omega
    · rw [if_neg h, done qhat rhat h1 h2 h]

/-- The 3n-by-2n step over a right 2n-by-n step (44_divide.md R191, R193). -/
theorem d3n2n_eq (hB : 2 ≤ B) (hev : 2 ∣ B) {d21 : Nat → Nat → Nat → Except Trap (Nat × Nat)} {a b n : Nat}
    (hn : 1 ≤ n) (hb : Normalized B b (2 * n)) (ha : a < b * B ^ n)
    (ih : ∀ a' b', Normalized B b' n → a' < b' * B ^ n → d21 a' b' n = .ok (a' / b', a' % b')) :
    d3n2n d21 B a b n = .ok (a / b, a % b) := by
  have hP : 0 < B ^ n := by positivity
  obtain ⟨c, hc⟩ : 2 ∣ B ^ n := dvd_trans hev (dvd_pow_self B (by omega))
  have hbb : B ^ (2 * n) = B ^ n * B ^ n := by rw [two_mul, pow_add]
  set P := B ^ n with hPd
  have hb1 : Normalized B (b / P) n := by
    refine ⟨hn, ?_, ?_⟩
    · by_contra hcon
      rw [not_le] at hcon
      rw [← hPd] at hcon
      have h1 : b / P + 1 ≤ c := by omega
      have h2 : b < (b / P + 1) * P := by
        have := Nat.lt_succ_self (b / P)
        rwa [Nat.div_lt_iff_lt_mul hP] at this
      have h3 : (b / P + 1) * P ≤ c * P := Nat.mul_le_mul_right _ h1
      have h4 := hb.2.1
      rw [hbb] at h4
      have h5 : P * P = 2 * (c * P) := by rw [← Nat.mul_assoc, ← hc]
      omega
    · rw [← hPd, Nat.div_lt_iff_lt_mul hP, ← hbb]
      exact hb.2.2
  have hbdm : b / P * P + b % P = b := by rw [Nat.mul_comm]; exact Nat.div_add_mod b P
  have hadm : a / P * P + a % P = a := by rw [Nat.mul_comm]; exact Nat.div_add_mod a P
  have hb2 : b % P < P := Nat.mod_lt _ hP
  have ha3 : a % P < P := Nat.mod_lt _ hP
  unfold d3n2n
  simp only [← hPd]
  by_cases h1 : a / P / P < b / P
  · have h12 : a / P < b / P * P := by rwa [Nat.div_lt_iff_lt_mul hP] at h1
    rw [if_pos h1, ih _ _ hb1 h12]
    simp only [bind_ok_eq]
    have hpos := hb1.pos hB
    set q := a / P / (b / P) with hq
    set R := a / P % (b / P) with hR
    have hqr : b / P * q + R = a / P := Nat.div_add_mod _ _
    have hRlt : R < b / P := Nat.mod_lt _ hpos
    have hqlt : q < P := by rw [hq, Nat.div_lt_iff_lt_mul hpos, Nat.mul_comm]; exact h12
    refine correctRemainder_eq 2 q _ ?_ ?_ ?_
    · have e : q * b + (R * P + a % P) = a + q * (b % P) := by
        calc q * b + (R * P + a % P) = q * (b / P * P + b % P) + (R * P + a % P) := by rw [hbdm]
          _ = (b / P * q + R) * P + a % P + q * (b % P) := by ring
          _ = a + q * (b % P) := by rw [hqr, hadm]
      have e' : ((q * b + (R * P + a % P) : Nat) : Int) = ((a + q * (b % P) : Nat) : Int) := by rw [e]
      push_cast at e' ⊢
      linarith
    · have : R * P + a % P < b := by
        have h2 : (R + 1) * P ≤ b / P * P := Nat.mul_le_mul_right _ hRlt
        have h3 : (R + 1) * P = R * P + P := by ring
        omega
      have h5 : ((R * P + a % P : Nat) : Int) < b := by exact_mod_cast this
      have h6 : (0 : Int) ≤ ((q * (b % P) : Nat) : Int) := Int.natCast_nonneg _
      linarith
    · have h2 : q * (b % P) ≤ 2 * b := by
        have h3 : q * (b % P) ≤ P * P := Nat.mul_le_mul hqlt.le hb2.le
        have h4 := hb.2.1
        rw [hbb] at h4
        omega
      have h5 : ((q * (b % P) : Nat) : Int) ≤ ((2 * b : Nat) : Int) := by exact_mod_cast h2
      have h6 : (0 : Int) ≤ ((R * P + a % P : Nat) : Int) := Int.natCast_nonneg _
      push_cast at h5 h6 ⊢
      linarith
  · rw [if_neg h1]
    simp only [bind_ok_eq]
    have h12 : b / P * P ≤ a / P := by
      rw [not_lt, Nat.le_div_iff_mul_le hP] at h1
      exact h1
    have h13 : a / P < b := by rwa [Nat.div_lt_iff_lt_mul hP]
    have hPs : ((P - 1 : Nat) : Int) = (P : Int) - 1 := by push_cast [Nat.cast_sub hP]; ring
    have hRs : ((a / P - b / P * P + b / P : Nat) : Int) = (a / P : Nat) - (b / P : Nat) * P + (b / P : Nat) := by
      rw [Nat.cast_add, Nat.cast_sub h12]; push_cast; ring
    refine correctRemainder_eq 2 (P - 1) _ ?_ ?_ ?_
    · have e1 : ((b / P * P + b % P : Nat) : Int) = b := by rw [hbdm]
      have e2 : ((a / P * P + a % P : Nat) : Int) = a := by rw [hadm]
      rw [Nat.cast_add, Nat.cast_mul, Nat.cast_mul, hRs, hPs]
      push_cast at e1 e2 ⊢
      linear_combination (P - 1 : Int) * (-e1) + e2
    · have e1 : ((b / P * P + b % P : Nat) : Int) = b := by rw [hbdm]
      have e2 : ((a / P * P + a % P : Nat) : Int) = a := by rw [hadm]
      have h2 : (a : Int) < b * P := by exact_mod_cast ha
      rw [Nat.cast_add, Nat.cast_mul, Nat.cast_mul, hRs, hPs]
      push_cast at e1 e2 ⊢
      nlinarith
    · have h2 : (P - 1) * (b % P) ≤ 2 * b := by
        have h3 : (P - 1) * (b % P) ≤ P * P := Nat.mul_le_mul (Nat.sub_le _ _) hb2.le
        have h4 := hb.2.1
        rw [hbb] at h4
        omega
      have h5 : (((P - 1) * (b % P) : Nat) : Int) ≤ ((2 * b : Nat) : Int) := by exact_mod_cast h2
      have h6 : (0 : Int) ≤ (((a / P - b / P * P + b / P) * P + a % P : Nat) : Int) := Int.natCast_nonneg _
      push_cast at h5 h6 ⊢
      linarith

/-- The 2n-by-n step (44_divide.md R190): with any fuel it answers the Euclidean pair. -/
theorem d2n1n_eq (hB : 2 ≤ B) (hev : 2 ∣ B) (dt : Nat) : ∀ (fuel a b n : Nat), Normalized B b n → a < b * B ^ n →
    d2n1n B dt fuel a b n = .ok (a / b, a % b) := by
  intro fuel
  induction fuel with
  | zero => intro a b n hb _; exact longDivide_eq hB hb
  | succ fuel ih =>
    intro a b n hb ha
    rw [d2n1n]
    split
    · exact longDivide_eq hB hb
    · next hn =>
      obtain ⟨h, rfl⟩ : ∃ h, n = 2 * h := ⟨n / 2, by omega⟩
      have h1 : 1 ≤ h := by have := hb.1; omega
      rw [show 2 * h / 2 = h by omega]
      have hP : 0 < B ^ h := by positivity
      have hpos := hb.pos hB
      simp only
      rw [two_mul, pow_add] at ha
      have ih' := fun a' b' => ih a' b' h
      set P := B ^ h with hPd
      have ha1 : a / P < b * P := by
        rw [Nat.div_lt_iff_lt_mul hP]
        calc a < b * (P * P) := ha
          _ = b * P * P := by ring
      have ha2 : a / P % b * P + a % P < b * P := by
        have h2 : (a / P % b + 1) * P ≤ b * P := Nat.mul_le_mul_right _ (Nat.mod_lt _ hpos)
        have h3 := Nat.mod_lt a hP
        have h4 : (a / P % b + 1) * P = a / P % b * P + P := by ring
        omega
      rw [d3n2n_eq hB hev h1 hb ha1 ih']
      simp only [bind_ok_eq]
      rw [d3n2n_eq hB hev h1 hb ha2 ih']
      simp only [bind_ok_eq, pure_eq_ok]
      set x := a / P % b * P + a % P with hx
      have hr : x % b < b := Nat.mod_lt _ hpos
      obtain ⟨hq, hr'⟩ := pair_unique (N := a) (D := b) (q := a / P / b * P + x / b) (r := x % b) (by
        have e1 := Nat.div_add_mod (a / P) b
        have e2 := Nat.div_add_mod a P
        have e3 := Nat.div_add_mod x b
        calc (a / P / b * P + x / b) * b + x % b = a / P / b * P * b + (b * (x / b) + x % b) := by ring
          _ = (b * (a / P / b) + a / P % b) * P + a % P := by rw [e3, hx]; ring
          _ = P * (a / P) + a % P := by rw [e1]; ring
          _ = a := e2) hr
      rw [hq, ← hr']

/-- The block loop (44_divide.md R189) divides the chunks it takes in. -/
theorem blockLoop_spec (hB : 2 ≤ B) (hev : 2 ∣ B) (dt : Nat) {D n : Nat} (hD : Normalized B D n) :
    ∀ (cs : List Nat) (q r : Nat), AllBelow (B ^ n) cs → r < D →
    ∃ q' r', blockLoop B dt D n cs q r = .ok (q', r') ∧ r' < D ∧
      q' * D + r' = (q * D + r) * (B ^ n) ^ cs.length + val (B ^ n) cs.reverse := by
  intro cs
  induction cs with
  | nil => intro q r _ hr; exact ⟨q, r, rfl, hr, by simp⟩
  | cons c cs ih =>
    intro q r hcs hr
    have hlt : r * B ^ n + c < D * B ^ n := by
      have h1 : (r + 1) * B ^ n ≤ D * B ^ n := Nat.mul_le_mul_right _ hr
      have h2 := hcs.cons.1
      have : (r + 1) * B ^ n = r * B ^ n + B ^ n := by ring
      omega
    obtain ⟨q', r', h1, h2, h3⟩ := ih (q * B ^ n + (r * B ^ n + c) / D) ((r * B ^ n + c) % D) hcs.cons.2
      (Nat.mod_lt _ (hD.pos hB))
    refine ⟨q', r', by rw [blockLoop, d2n1n_eq hB hev dt _ _ _ _ hD hlt]; exact h1, h2, ?_⟩
    rw [h3, val_reverse_cons, List.length_cons, pow_succ]
    have h4 : (q * B ^ n + (r * B ^ n + c) / D) * D + (r * B ^ n + c) % D = (q * D + r) * B ^ n + c := by
      have := Nat.div_add_mod (r * B ^ n + c) D
      calc (q * B ^ n + (r * B ^ n + c) / D) * D + (r * B ^ n + c) % D
          = (D * ((r * B ^ n + c) / D) + (r * B ^ n + c) % D) + q * B ^ n * D := by ring
        _ = (r * B ^ n + c) + q * B ^ n * D := by rw [this]
        _ = (q * D + r) * B ^ n + c := by ring
    rw [h4]
    ring

theorem chunks_spec (hB : 2 ≤ B) (N n : Nat) : ∀ t : Nat, AllBelow (B ^ n) (chunks B N n t) ∧
    (chunks B N n t).length = t ∧ val (B ^ n) (chunks B N n t).reverse = N % B ^ (t * n) := by
  have hP : 0 < B ^ n := by positivity
  intro t
  induction t with
  | zero => exact ⟨by intro x hx; simp [chunks] at hx, rfl, by simp [chunks, Nat.mod_one]⟩
  | succ t ih =>
    refine ⟨allBelow_cons (Nat.mod_lt _ hP) ih.1, by simp [chunks, ih.2.1], ?_⟩
    rw [chunks, val_reverse_cons, ih.2.2, ih.2.1, ← pow_mul, Nat.mul_comm n t, Nat.succ_mul, pow_add, Nat.mod_mul]

/-- Block division of a dividend below half of B^(tn) by a normalized n-digit divisor (44_divide.md R189). -/
theorem blockDivide_eq (hB : 2 ≤ B) (hev : 2 ∣ B) (dt : Nat) {N D n t : Nat} (hD : Normalized B D n) (ht : 1 ≤ t)
    (hN : 2 * N < B ^ (t * n)) : blockDivide B dt N D n t = .ok (N / D, N % D) := by
  obtain ⟨t, rfl⟩ : ∃ u, t = u + 1 := ⟨t - 1, by omega⟩
  have hQ : 0 < B ^ (t * n) := by positivity
  rw [show (t + 1) * n = t * n + n by ring, pow_add] at hN
  have htop : N / B ^ (t * n) < D := by
    rw [Nat.div_lt_iff_lt_mul hQ]
    have h1 : B ^ n * B ^ (t * n) ≤ 2 * D * B ^ (t * n) := Nat.mul_le_mul_right _ hD.2.1
    have h2 : 2 * D * B ^ (t * n) = 2 * (D * B ^ (t * n)) := by ring
    rw [Nat.mul_comm (B ^ (t * n))] at hN
    omega
  have hmod : N / B ^ (t * n) % B ^ n = N / B ^ (t * n) :=
    Nat.mod_eq_of_lt (lt_trans htop hD.2.2)
  obtain ⟨h1, h2, h3⟩ := chunks_spec hB N n t
  obtain ⟨q, r, h4, h5, h6⟩ := blockLoop_spec hB hev dt hD (chunks B N n t) 0 (N / B ^ (t * n)) h1 htop
  have h7 : q * D + r = N := by
    rw [h6, h2, h3, ← pow_mul, Nat.mul_comm n t, Nat.zero_mul, Nat.zero_add, Nat.mul_comm]
    exact Nat.div_add_mod _ _
  obtain ⟨hq, hr⟩ := pair_unique h7 h5
  simp only [blockDivide, chunks, hmod, h4, hq, hr]

theorem scale_pair {N D c : Nat} (hc : 0 < c) : (N * c / (D * c), N * c % (D * c) / c) = (N / D, N % D) := by
  rw [Nat.mul_div_mul_right _ _ hc, Nat.mul_mod_mul_right, Nat.mul_div_cancel _ hc]

theorem le_ceilDiv_mul {x y : Nat} (hy : 0 < y) : x ≤ ceilDiv x y * y := by
  unfold ceilDiv
  have h1 := Nat.div_add_mod (x + y - 1) y
  have h2 := Nat.mod_lt (x + y - 1) hy
  rw [Nat.mul_comm] at h1
  omega

/-- A divisor of at most n digits, shifted up to fill them, is normalized (44_divide.md R182). -/
theorem normalized_shift {W D n : Nat} (hn : 1 ≤ n) (hD : 0 < D) (h : bitlen D ≤ n * W) :
    Normalized (2 ^ W) (D * 2 ^ (n * W - bitlen D)) n := by
  have h1 := two_pow_bitlen_le (v := D) (by omega)
  have h2 := lt_two_pow_bitlen D
  have h3 : 0 < bitlen D := bitlen_pos (by omega)
  have h4 : (2 ^ W) ^ n = 2 ^ bitlen D * 2 ^ (n * W - bitlen D) := by
    rw [← pow_mul, ← pow_add]; congr 1; rw [Nat.mul_comm]; omega
  have h5 : 2 ^ bitlen D = 2 * 2 ^ (bitlen D - 1) := by
    rw [← pow_succ']; congr 1; omega
  refine ⟨hn, ?_, ?_⟩
  · rw [h4, ← Nat.mul_assoc]
    exact Nat.mul_le_mul_right _ (by omega)
  · rw [h4]
    exact Nat.mul_lt_mul_of_pos_right h2 (by positivity)

/-- A value below 2^k has at most k bits. -/
theorem bitlen_le_of_lt {v k : Nat} (h : v < 2 ^ k) : bitlen v ≤ k := by
  rcases Nat.eq_zero_or_pos v with rfl | hv
  · simp [bitlen]
  · have h1 := lt_of_le_of_lt (two_pow_bitlen_le (v := v) (by omega)) h
    have := (Nat.pow_lt_pow_iff_right (by omega : 1 < 2)).1 h1
    omega

/-- Divide and conquer (44_divide.md R188) answers the Euclidean pair. -/
theorem dcDivide_eq {W : Nat} (hW : 1 ≤ W) (dt : Nat) {N D : Nat} (hD : 0 < D) :
    dcDivide W dt N D = .ok (N / D, N % D) := by
  have hB : 2 ≤ 2 ^ W := by calc 2 = 2 ^ 1 := rfl
    _ ≤ 2 ^ W := Nat.pow_le_pow_right (by omega) hW
  have hev : 2 ∣ 2 ^ W := dvd_pow_self 2 (by omega)
  unfold dcDivide
  simp only
  set s := (digits (2 ^ W) D).length with hs
  have hm : 0 < leastPower dt s := by unfold leastPower; positivity
  set n := ceilDiv s (leastPower dt s) * leastPower dt s with hn
  have hc := canonical_digits hB D
  have hs1 : 1 ≤ s := length_pos_of_canonical hc
  have hsn : s ≤ n := le_ceilDiv_mul hm
  have hbl : bitlen D ≤ n * W := by
    refine le_trans (bitlen_le_of_lt (k := s * W) ?_) (Nat.mul_le_mul_right _ hsn)
    have := val_lt_pow (canonical_allBelow hc)
    rwa [val_digits hB, ← hs, ← pow_mul, Nat.mul_comm W] at this
  have hnW : 0 < n * W := Nat.mul_pos (by omega) hW
  rw [blockDivide_eq hB hev dt (normalized_shift (by omega) hD hbl) (le_trans (by omega) (le_max_left _ _))]
  · simp only [bind_ok_eq, pure_eq_ok, scale_pair (Nat.two_pow_pos _)]
  · set N' := N * 2 ^ (n * W - bitlen D) with hN'
    set t := max 2 (ceilDiv (bitlen N' + 1) (n * W)) with ht
    have h1 : bitlen N' + 1 ≤ t * n * W := by
      rw [Nat.mul_assoc]
      exact le_trans (le_ceilDiv_mul hnW) (Nat.mul_le_mul_right _ (le_max_right _ _))
    rw [← pow_mul, Nat.mul_comm W]
    calc 2 * N' < 2 * 2 ^ bitlen N' := by have := lt_two_pow_bitlen N'; omega
      _ = 2 ^ (bitlen N' + 1) := by rw [pow_succ']
      _ ≤ 2 ^ (t * n * W) := Nat.pow_le_pow_right (by omega) h1

/-- Long division after normalizing by the divisor's top digit (44_divide.md R182, R194). -/
theorem normalizedLongDivide_eq {W : Nat} (hW : 1 ≤ W) {N : Nat} {dv : Magnitude}
    (hdv : canonical (2 ^ W) dv = true) (h0 : dv ≠ [0]) :
    normalizedLongDivide W N (val (2 ^ W) dv) (digitAt dv (dv.length - 1)) =
      .ok (N / val (2 ^ W) dv, N % val (2 ^ W) dv) := by
  have hB : 2 ≤ 2 ^ W := by calc 2 = 2 ^ 1 := rfl
    _ ≤ 2 ^ W := Nat.pow_le_pow_right (by omega) hW
  set B := 2 ^ W with hBd
  set D := val B dv with hDd
  set k := dv.length with hk
  set top := digitAt dv (k - 1) with htop
  have hk1 : 1 ≤ k := length_pos_of_canonical hdv
  have hP : 0 < B ^ (k - 1) := by positivity
  have htop0 : top ≠ 0 := digitAt_top_ne_zero hdv h0
  have htopeq : top = D / B ^ (k - 1) := by
    rw [htop, digitAt_eq (by omega) _ (canonical_allBelow hdv)]
    refine Nat.mod_eq_of_lt ?_
    rw [Nat.div_lt_iff_lt_mul hP, ← pow_succ', show k - 1 + 1 = k by omega]
    exact val_lt_pow (canonical_allBelow hdv)
  have hle : top * B ^ (k - 1) ≤ D := by rw [htopeq]; exact Nat.div_mul_le_self _ _
  have hlt : D < (top + 1) * B ^ (k - 1) := by
    have := Nat.lt_succ_self (D / B ^ (k - 1))
    rw [Nat.div_lt_iff_lt_mul hP] at this
    rwa [htopeq]
  have htopB : top < 2 ^ W := by
    rw [htopeq, Nat.div_lt_iff_lt_mul hP, ← hBd, ← pow_succ', show k - 1 + 1 = k by omega]
    exact val_lt_pow (canonical_allBelow hdv)
  have hbl : bitlen top ≤ W := bitlen_le_of_lt htopB
  have h1 := two_pow_bitlen_le htop0
  have h2 := lt_two_pow_bitlen top
  have h3 := bitlen_pos htop0
  have hBk : B ^ k = 2 ^ bitlen top * 2 ^ (W - bitlen top) * B ^ (k - 1) := by
    rw [← pow_add, show bitlen top + (W - bitlen top) = W by omega, ← hBd, ← pow_succ', show k - 1 + 1 = k by omega]
  have h5 : 2 ^ bitlen top = 2 * 2 ^ (bitlen top - 1) := by rw [← pow_succ']; congr 1; omega
  have hnorm : Normalized B (D * 2 ^ (W - bitlen top)) k := by
    refine ⟨hk1, ?_, ?_⟩
    · calc B ^ k = 2 * (2 ^ (bitlen top - 1) * B ^ (k - 1) * 2 ^ (W - bitlen top)) := by rw [hBk, h5]; ring
        _ ≤ 2 * (D * 2 ^ (W - bitlen top)) := by
          refine Nat.mul_le_mul_left _ (Nat.mul_le_mul_right _ ?_)
          exact le_trans (Nat.mul_le_mul_right _ h1) hle
    · rw [hBk]
      calc D * 2 ^ (W - bitlen top) < 2 ^ bitlen top * B ^ (k - 1) * 2 ^ (W - bitlen top) := by
            refine Nat.mul_lt_mul_of_pos_right ?_ (by positivity)
            exact lt_of_lt_of_le hlt (Nat.mul_le_mul_right _ h2)
        _ = _ := by ring
  unfold normalizedLongDivide
  simp only [← hBd, longDivide_eq hB hnorm, bind_ok_eq, pure_eq_ok, scale_pair (Nat.two_pow_pos _)]

/-! ### The flow -/

/-- Division of canonical magnitudes, on either datapath and at any threshold: quotient and remainder, canonical
(44_divide.md R180, R187). -/
theorem divide_eq {W : Nat} (hW : 1 ≤ W) (dt : Nat) {n dv : Magnitude} (forceLong : Bool)
    (hn : canonical (2 ^ W) n = true) (hdv : canonical (2 ^ W) dv = true) (h0 : dv ≠ [0]) :
    divide W dt n dv forceLong = .ok (digits (2 ^ W) (val (2 ^ W) n / val (2 ^ W) dv),
      digits (2 ^ W) (val (2 ^ W) n % val (2 ^ W) dv)) := by
  have hB : 2 ≤ 2 ^ W := by calc 2 = 2 ^ 1 := rfl
    _ ≤ 2 ^ W := Nat.pow_le_pow_right (by omega) hW
  have hD : 0 < val (2 ^ W) dv := Nat.pos_of_ne_zero fun e => h0 ((eq_zero_iff hB hdv).2 e)
  unfold divide
  rw [if_neg h0]
  simp only [compareMag_eq hB hdv hn, sgnSub_eq_positive]
  split
  · next h => rw [Nat.div_eq_of_lt h, Nat.mod_eq_of_lt h, digits_val hB hn, digits_zero]
  · have hpost : (decide (val (2 ^ W) n / val (2 ^ W) dv * val (2 ^ W) dv + val (2 ^ W) n % val (2 ^ W) dv =
        val (2 ^ W) n) && decide (val (2 ^ W) n % val (2 ^ W) dv < val (2 ^ W) dv)) = true := by
      rw [Nat.mul_comm, Nat.div_add_mod]
      simp [Nat.mod_lt _ hD]
    simp only [normalizedLongDivide_eq hW hdv h0, dcDivide_eq hW dt hD, bind_ok_eq, hpost, require, if_true,
      pure_eq_ok, ite_self]

/-- The two paths answer the same pair for every nonzero divisor (44_divide.md R187). -/
theorem dcDivide_eq_normalizedLongDivide {W : Nat} (hW : 1 ≤ W) (dt N : Nat) {dv : Magnitude}
    (hdv : canonical (2 ^ W) dv = true) (h0 : dv ≠ [0]) :
    dcDivide W dt N (val (2 ^ W) dv) =
      normalizedLongDivide W N (val (2 ^ W) dv) (digitAt dv (dv.length - 1)) := by
  have hB := two_le_base hW
  rw [normalizedLongDivide_eq hW hdv h0,
    dcDivide_eq hW dt (Nat.pos_of_ne_zero fun e => h0 ((eq_zero_iff hB hdv).2 e))]

/-- So neither the threshold nor the forced path shows in a division, DIVZERO included (44_divide.md R187). -/
theorem divide_path_eq {W : Nat} (hW : 1 ≤ W) (dt dt' : Nat) {n dv : Magnitude} (forceLong forceLong' : Bool)
    (hn : canonical (2 ^ W) n = true) (hdv : canonical (2 ^ W) dv = true) :
    divide W dt n dv forceLong = divide W dt' n dv forceLong' := by
  by_cases h0 : dv = [0]
  · simp [divide, h0]
  · rw [divide_eq hW dt forceLong hn hdv h0, divide_eq hW dt' forceLong' hn hdv h0]

/-- `divide` under the machine's parameters raises DIVZERO exactly for a zero divisor, else answers the pair. -/
theorem divideM_eq {s : State} (hs : s.params.Legal) {n dv : Magnitude} (forceLong : Bool)
    (hn : canonical s.params.base n = true) (hdv : canonical s.params.base dv = true) :
    divideM s n dv forceLong = if val s.params.base dv = 0 then .error .divZero else
      .ok (digits s.params.base (val s.params.base n / val s.params.base dv),
        digits s.params.base (val s.params.base n % val s.params.base dv)) := by
  have hW : 1 ≤ s.params.w := le_trans (by omega) hs.1.1
  have hB : 2 ≤ s.params.base := by
    calc 2 = 2 ^ 1 := rfl
      _ ≤ 2 ^ s.params.w := Nat.pow_le_pow_right (by omega) hW
  split
  · next h => simp [divideM, divide, (eq_zero_iff hB hdv).2 h]
  · next h => exact divide_eq hW _ forceLong hn hdv fun e => h ((eq_zero_iff hB hdv).1 e)

end Sys2Proof.Machine
end

