-- ==== Sys2Proof/Laws/Encoding.lean ====
section
/-! SUPPORT. Laws/Encoding.lean: the fields of a packed word (30_encoding.md R71, R73 to R75), and masking one. -/

namespace Sys2Proof

theorem and_append {m n : Nat} (x x' : BitVec m) (y y' : BitVec n) : (x ++ y) &&& (x' ++ y') = (x &&& x') ++ (y &&& y') := by
  ext i hi
  simp only [BitVec.getElem_and, BitVec.getElem_append]
  split <;> simp

theorem extract_append_high {m n : Nat} (x : BitVec m) (y : BitVec n) (k w : Nat) (h : n ≤ k) :
    (x ++ y).extractLsb' k w = x.extractLsb' (k - n) w := by
  ext i hi
  simp only [BitVec.getElem_extractLsb', BitVec.getLsbD_append]
  rw [if_neg (by omega), show k + i - n = k - n + i by omega]

theorem extract_append_low {m n : Nat} (x : BitVec m) (y : BitVec n) (k w : Nat) (h : k + w ≤ n) :
    (x ++ y).extractLsb' k w = y.extractLsb' k w := by
  ext i hi
  simp only [BitVec.getElem_extractLsb', BitVec.getLsbD_append]
  rw [if_pos (by omega)]

theorem extract_all {n : Nat} (x : BitVec n) : x.extractLsb' 0 n = x := by
  ext i hi
  simp

theorem packR_and (o o' : BitVec 8) (a b c d a' b' c' d' : BitVec 4) (i i' : BitVec 8) :
    packR o a b c d i &&& packR o' a' b' c' d' i' =
      packR (o &&& o') (a &&& a') (b &&& b') (c &&& c') (d &&& d') (i &&& i') := by
  refine (and_append (m := 24) (n := 8) _ _ _ _).trans (congrArg (fun x : BitVec 24 => x ++ (i &&& i')) ?_)
  refine (and_append (m := 20) (n := 4) _ _ _ _).trans (congrArg (fun x : BitVec 20 => x ++ (d &&& d')) ?_)
  refine (and_append (m := 16) (n := 4) _ _ _ _).trans (congrArg (fun x : BitVec 16 => x ++ (c &&& c')) ?_)
  refine (and_append (m := 12) (n := 4) _ _ _ _).trans (congrArg (fun x : BitVec 12 => x ++ (b &&& b')) ?_)
  exact and_append o o' a a'

theorem packI_and (o o' : BitVec 8) (a b a' b' : BitVec 4) (i i' : BitVec 16) :
    packI o a b i &&& packI o' a' b' i' = packI (o &&& o') (a &&& a') (b &&& b') (i &&& i') := by
  refine (and_append (m := 16) (n := 16) _ _ _ _).trans (congrArg (fun x : BitVec 16 => x ++ (i &&& i')) ?_)
  refine (and_append (m := 12) (n := 4) _ _ _ _).trans (congrArg (fun x : BitVec 12 => x ++ (b &&& b')) ?_)
  exact and_append o o' a a'

section
variable (o : BitVec 8) (a b c d : BitVec 4) (i : BitVec 8)

@[simp] theorem fieldOp_packR : fieldOp (packR o a b c d i) = o := by
  simp only [fieldOp, packR, extract_append_high _ _ _ _ (by decide : (8 : Nat) ≤ 24),
    extract_append_high _ _ _ _ (by decide : (4 : Nat) ≤ 24 - 8), extract_append_high _ _ _ _ (by decide : (4 : Nat) ≤ 24 - 8 - 4),
    extract_append_high _ _ _ _ (by decide : (4 : Nat) ≤ 24 - 8 - 4 - 4),
    extract_append_high _ _ _ _ (by decide : (4 : Nat) ≤ 24 - 8 - 4 - 4 - 4)]
  exact extract_all o

@[simp] theorem fieldA_packR : fieldA (packR o a b c d i) = a := by
  simp only [fieldA, packR, extract_append_high _ _ _ _ (by decide : (8 : Nat) ≤ 20),
    extract_append_high _ _ _ _ (by decide : (4 : Nat) ≤ 20 - 8), extract_append_high _ _ _ _ (by decide : (4 : Nat) ≤ 20 - 8 - 4),
    extract_append_high _ _ _ _ (by decide : (4 : Nat) ≤ 20 - 8 - 4 - 4),
    extract_append_low _ _ _ _ (by decide : 20 - 8 - 4 - 4 - 4 + 4 ≤ (4 : Nat))]
  exact extract_all a

@[simp] theorem fieldB_packR : fieldB (packR o a b c d i) = b := by
  simp only [fieldB, packR, extract_append_high _ _ _ _ (by decide : (8 : Nat) ≤ 16),
    extract_append_high _ _ _ _ (by decide : (4 : Nat) ≤ 16 - 8), extract_append_high _ _ _ _ (by decide : (4 : Nat) ≤ 16 - 8 - 4),
    extract_append_low _ _ _ _ (by decide : 16 - 8 - 4 - 4 + 4 ≤ (4 : Nat))]
  exact extract_all b

@[simp] theorem fieldC_packR : fieldC (packR o a b c d i) = c := by
  simp only [fieldC, packR, extract_append_high _ _ _ _ (by decide : (8 : Nat) ≤ 12),
    extract_append_high _ _ _ _ (by decide : (4 : Nat) ≤ 12 - 8),
    extract_append_low _ _ _ _ (by decide : 12 - 8 - 4 + 4 ≤ (4 : Nat))]
  exact extract_all c

@[simp] theorem fieldD_packR : fieldD (packR o a b c d i) = d := by
  simp only [fieldD, packR, extract_append_high _ _ _ _ (by decide : (8 : Nat) ≤ 8),
    extract_append_low _ _ _ _ (by decide : 8 - 8 + 4 ≤ (4 : Nat))]
  exact extract_all d

@[simp] theorem fieldImm8_packR : fieldImm8 (packR o a b c d i) = i := by
  simp only [fieldImm8, packR, extract_append_low _ _ _ _ (by decide : 0 + 8 ≤ (8 : Nat))]
  exact extract_all i
end

section
variable (o : BitVec 8) (a b : BitVec 4) (i : BitVec 16)

@[simp] theorem fieldOp_packI : fieldOp (packI o a b i) = o := by
  simp only [fieldOp, packI, extract_append_high _ _ _ _ (by decide : (16 : Nat) ≤ 24),
    extract_append_high _ _ _ _ (by decide : (4 : Nat) ≤ 24 - 16), extract_append_high _ _ _ _ (by decide : (4 : Nat) ≤ 24 - 16 - 4)]
  exact extract_all o

@[simp] theorem fieldA_packI : fieldA (packI o a b i) = a := by
  simp only [fieldA, packI, extract_append_high _ _ _ _ (by decide : (16 : Nat) ≤ 20),
    extract_append_high _ _ _ _ (by decide : (4 : Nat) ≤ 20 - 16),
    extract_append_low _ _ _ _ (by decide : 20 - 16 - 4 + 4 ≤ (4 : Nat))]
  exact extract_all a

@[simp] theorem fieldB_packI : fieldB (packI o a b i) = b := by
  simp only [fieldB, packI, extract_append_high _ _ _ _ (by decide : (16 : Nat) ≤ 16),
    extract_append_low _ _ _ _ (by decide : 16 - 16 + 4 ≤ (4 : Nat))]
  exact extract_all b

@[simp] theorem fieldImm16_packI : fieldImm16 (packI o a b i) = i := by
  simp only [fieldImm16, packI, extract_append_low _ _ _ _ (by decide : 0 + 16 ≤ (16 : Nat))]
  exact extract_all i
end

/-- Adjacent bit ranges of a word join. -/
theorem extract_join (w : Word) (k m n : Nat) : w.extractLsb' (k + n) m ++ w.extractLsb' k n = w.extractLsb' k (m + n) := by
  ext i hi
  simp only [BitVec.getElem_append, BitVec.getElem_extractLsb']
  split
  · rfl
  · congr 1; omega

/-- A word is its fields (format R). -/
theorem packR_fields (w : Word) : packR (fieldOp w) (fieldA w) (fieldB w) (fieldC w) (fieldD w) (fieldImm8 w) = w := by
  have h1 : fieldOp w ++ fieldA w = w.extractLsb' 20 12 := extract_join w 20 8 4
  have h2 : w.extractLsb' 20 12 ++ fieldB w = w.extractLsb' 16 16 := extract_join w 16 12 4
  have h3 : w.extractLsb' 16 16 ++ fieldC w = w.extractLsb' 12 20 := extract_join w 12 16 4
  have h4 : w.extractLsb' 12 20 ++ fieldD w = w.extractLsb' 8 24 := extract_join w 8 20 4
  have h5 : w.extractLsb' 8 24 ++ fieldImm8 w = w := (extract_join w 0 24 8).trans (extract_all w)
  unfold packR
  rw [h1, h2, h3, h4, h5]

/-- A word is its fields (formats B and I). -/
theorem packI_fields (w : Word) : packI (fieldOp w) (fieldA w) (fieldB w) (fieldImm16 w) = w := by
  have h1 : fieldOp w ++ fieldA w = w.extractLsb' 20 12 := extract_join w 20 8 4
  have h2 : w.extractLsb' 20 12 ++ fieldB w = w.extractLsb' 16 16 := extract_join w 16 12 4
  have h3 : w.extractLsb' 16 16 ++ fieldImm16 w = w := (extract_join w 0 16 16).trans (extract_all w)
  unfold packI
  rw [h1, h2, h3]

@[simp] theorem condOf_condCode (c : Cond) : condOf (condCode c) = some c := by cases c <;> rfl
@[simp] theorem csrOf_csrCode (c : Csr) : csrOf (csrCode c) = some c := by cases c <;> rfl

end Sys2Proof
end

