-- ==== Sys2Proof/Laws/Radix.lean ====
section
/-! SUPPORT. Laws/Radix.lean: the digit view, Horner's scheme and the format loop as numbers (40_digit_accumulator.md R107,
46_radix.md R229 to R233), the alphabets one way back (R247), and radix inference on the bytes read (R235, R237). -/

namespace Sys2Proof.Machine

variable {B : Nat}

/-! ### Digits, one division at a time -/

theorem digits_rec (hB : 2 ≤ B) (v : Nat) : digits B v = if v < B then [v] else v % B :: digits B (v / B) := by
  split
  · next h => exact digits_of_lt h
  · next h =>
    have h1 : v / B ≠ 0 := by
      intro e
      rcases (Nat.div_eq_zero_iff).1 e with h2 | h2 <;> omega
    have hc := canonical_digits hB (v / B)
    refine (eq_digits hB ((canonical_cons (canonical_ne_nil hc)).2 ⟨Nat.mod_lt _ (by omega), hc, ?_⟩) ?_).symm
    · intro e
      exact h1 (by simpa [val_digits hB] using congrArg (val B) e)
    · rw [val_cons, val_digits hB]
      exact Nat.mod_add_div v B

/-- The digit view of a native value is its digit list (40_digit_accumulator.md R107), since B² ≥ 2^64. -/
theorem view_eq (hB : 2 ≤ B) (h2 : 2 ^ 64 ≤ B * B) (x : Native) : view B x = digits B x.toNat := by
  rw [digits_rec hB]
  unfold view
  split
  · rfl
  · rw [digits_of_lt]
    rw [Nat.div_lt_iff_lt_mul (by omega)]
    exact lt_of_lt_of_le x.isLt h2

/-! ### Horner's scheme -/

/-- A list of digit values from a running number. -/
theorem hornerFrom_eq (hB : 2 ≤ B) {r : Nat} (hr : r < B) : ∀ (vs : List Nat) (acc : Magnitude), canonical B acc = true →
    hornerFrom B r acc vs = digits B (vs.foldl (fun n v => n * r + v) (val B acc)) := by
  intro vs
  induction vs with
  | nil => intro acc h; exact (digits_val hB h).symm
  | cons v vs ih =>
    intro acc h
    have hm := mulDigit_spec hB h hr
    have hd := canonical_digits hB v
    have ha := addMag_spec hB (canonical_allBelow hm.2) (canonical_allBelow hd)
    rw [hornerFrom, ih _ ha.2, ha.1, hm.1, val_digits hB, List.foldl_cons]

/-- Horner's scheme gives the canonical magnitude of the number the text writes (46_radix.md R229). -/
theorem horner_eq (hB : 2 ≤ B) {r : Nat} (hr : r < B) (vs : List Nat) : horner B r vs = digits B (textNumber r vs) := by
  rw [horner, hornerFrom_eq hB hr _ _ (canonical_singleton (by omega))]
  simp [textNumber]

theorem foldl_textNumber (r : Nat) : ∀ (vs : List Nat) (n : Nat),
    vs.foldl (fun acc v => acc * r + v) n = n * r ^ vs.length + val r vs.reverse := by
  intro vs
  induction vs with
  | nil => intro n; simp
  | cons v vs ih =>
    intro n
    rw [List.foldl_cons, ih, val_reverse_cons, List.length_cons, pow_succ]
    ring

/-- The number a text writes is the value of its digits, last character lowest. -/
theorem textNumber_eq (r : Nat) (vs : List Nat) : textNumber r vs = val r vs.reverse := by
  rw [textNumber, foldl_textNumber, Nat.zero_mul, Nat.zero_add]

/-! ### The values of a text -/

theorem textValues_eq_some {r : Nat} : ∀ {t : List Byte} {vs : List Nat},
    textValues r t = some vs ↔ List.Forall₂ (fun ch v => charValue ch r = some v) t vs := by
  intro t
  induction t with
  | nil => intro vs; simp [textValues, eq_comm]
  | cons ch t ih =>
    intro vs
    rw [textValues]
    cases h : charValue ch r with
    | none =>
      simp only [reduceCtorEq, false_iff]
      rintro ⟨⟩
      simp_all
    | some v =>
      simp only [Option.map_eq_some_iff, List.forall₂_cons_left_iff, ih, h, Option.some.injEq]
      exact ⟨fun ⟨w, hw, e⟩ => ⟨v, w, rfl, hw, e.symm⟩, fun ⟨x, w, e, hw, e'⟩ => ⟨w, hw, by rw [e', e]⟩⟩

theorem textValues_eq_none {r : Nat} : ∀ {t : List Byte}, textValues r t = none ↔ ∃ ch ∈ t, charValue ch r = none := by
  intro t
  induction t with
  | nil => simp [textValues]
  | cons ch t ih =>
    rw [textValues]
    cases h : charValue ch r with
    | none => simp [h]
    | some v => simp [h, ih]

/-! ### The format loop -/

theorem fmtLenAux_eq (r : Nat) : ∀ fuel v, fmtLenAux r fuel v = (digitsAux r fuel v).length := by
  intro fuel
  induction fuel with
  | zero => intro v; rfl
  | succ n ih => intro v; rw [fmtLenAux, digitsAux]; split <;> simp [ih]

/-- `fmt_len` is the length of the radix-r digit list (46_radix.md R232). -/
theorem fmtLen_eq (r v : Nat) : fmtLen r v = (digits r v).length := fmtLenAux_eq r _ v

/-- It is the length the spec defines, and the only one. -/
theorem isTextLength_iff {r : Nat} (hr : 2 ≤ r) {v L : Nat} : IsTextLength r v L ↔ L = fmtLen r v := by
  have hc := canonical_digits hr v
  have hle := length_pos_of_canonical hc
  rw [fmtLen_eq]
  unfold IsTextLength
  split
  · next h => subst h; simp [digits_zero]
  · next h =>
    have h0 : digits r v ≠ [0] := fun e => h (by simpa [val_digits hr] using congrArg (val r) e)
    have h1 := pow_le_val hc h0
    have h2 := val_lt_pow (canonical_allBelow hc)
    rw [val_digits hr] at h1 h2
    constructor
    · rintro ⟨ha, hb⟩
      have := hb _ h2
      have := (Nat.pow_lt_pow_iff_right (by omega : 1 < r)).1 (lt_of_le_of_lt h1 ha)
      omega
    · rintro rfl
      refine ⟨h2, fun k hk => ?_⟩
      have := (Nat.pow_lt_pow_iff_right (by omega : 1 < r)).1 (lt_of_le_of_lt h1 hk)
      omega

/-- The format loop gives the radix-r digits (46_radix.md R233). -/
theorem formatLoop_eq {W : Nat} (hW : 1 ≤ W) (dt : Nat) {r : Nat} (hr : 2 ≤ r) : ∀ (fuel : Nat) (cur : Magnitude),
    canonical (2 ^ W) cur = true → bitlen (val (2 ^ W) cur) + 1 ≤ fuel →
    formatLoop W dt r fuel cur = .ok (digits r (val (2 ^ W) cur)) := by
  have hB := two_le_base hW
  have hrc := canonical_digits hB r
  have hr0 : digits (2 ^ W) r ≠ [0] := fun e => by
    have := congrArg (val (2 ^ W)) e
    simp [val_digits hB] at this
    omega
  intro fuel
  induction fuel with
  | zero => intro cur _ h; omega
  | succ fuel ih =>
    intro cur hc hf
    set v := val (2 ^ W) cur with hv
    have hq := canonical_digits hB (v / r)
    rw [formatLoop, divide_eq hW dt false hc hrc hr0]
    simp only [bind_ok_eq, val_digits hB, ← hv, eq_zero_iff hB hq, pure_eq_ok]
    rw [digits_rec hr]
    split
    · next h =>
      have h1 : v < r := by
        rcases (Nat.div_eq_zero_iff).1 h with h2 | h2
        · omega
        · exact h2
      rw [if_pos h1, Nat.mod_eq_of_lt h1]
    · next h =>
      have h1 : ¬ v < r := fun h1 => h (Nat.div_eq_of_lt h1)
      have h2 := bitlen_div_lt (B := r) (v := v) hr (by omega)
      rw [if_neg h1, ih _ hq (by rw [val_digits hB]; omega), val_digits hB, bind_ok_eq]

/-- The text of a magnitude (46_radix.md R233). -/
theorem formatMag_eq {W : Nat} (hW : 1 ≤ W) (dt : Nat) {m : Magnitude} (hm : canonical (2 ^ W) m = true) {r : Nat}
    (hr : 2 ≤ r) : formatMag W dt m r = .ok ((digits r (val (2 ^ W) m)).reverse.map (outputChar r)) := by
  rw [formatMag, formatLoop_eq hW dt hr _ _ hm le_rfl]
  rfl

/-- The radix-r digits, most significant first. -/
theorem digits_reverse_getElem? {r v : Nat} (hr : 2 ≤ r) {i : Nat} (hi : i < fmtLen r v) :
    (digits r v).reverse[i]? = some (v / r ^ (fmtLen r v - 1 - i) % r) := by
  have hl := fmtLen_eq r v
  have hlt : fmtLen r v - 1 - i < (digits r v).length := by omega
  rw [List.getElem?_reverse (by omega), ← hl, List.getElem?_eq_getElem hlt]
  have := digitAt_eq (B := r) (by omega) (fmtLen r v - 1 - i) (canonical_allBelow (canonical_digits hr v))
  rw [val_digits hr] at this
  rw [← this, digitAt, List.getD_eq_getElem _ _ hlt]

/-- The text's characters, most significant first. -/
theorem format_getElem {r v : Nat} (hr : 2 ≤ r) {i : Nat} (hi : i < fmtLen r v) :
    ((digits r v).reverse.map (outputChar r))[i]? = some (outputChar r (v / r ^ (fmtLen r v - 1 - i) % r)) := by
  rw [List.getElem?_map, digits_reverse_getElem? hr hi, Option.map_some]

/-! ### The alphabets, from a value and back (46_radix.md R247) -/

theorem charValue_outputChar {r v : Nat} (hr : r ≤ 64) (hv : v < r) : charValue (outputChar r v) r = some v := by
  have low : ∀ x : Fin 36, alphabetLow (BitVec.ofNat 8 (if x.1 < 10 then 0x30 + x.1 else 0x61 + (x.1 - 10))).toNat = some x.1 := by
    decide
  have high : ∀ x : Fin 64, alphabetHigh (outputChar 64 x.1).toNat = some x.1 := by decide
  unfold charValue
  by_cases h : r ≤ 36
  · have := low ⟨v, by omega⟩
    simp only [outputChar, if_pos h]
    rw [this]
    simp [Option.filter, hv]
  · have := high ⟨v, by omega⟩
    have e : outputChar r v = outputChar 64 v := by simp only [outputChar, if_neg h]; rfl
    rw [if_neg h, e, this]
    simp [Option.filter, hv]

/-- The text of a number has its digits as values. -/
theorem textValues_format {r : Nat} (hr : 2 ≤ r) (h64 : r ≤ 64) (v : Nat) :
    textValues r ((digits r v).reverse.map (outputChar r)) = some (digits r v).reverse := by
  rw [textValues_eq_some, List.forall₂_map_left_iff, List.forall₂_same]
  intro x hx
  exact charValue_outputChar h64 (canonical_allBelow (canonical_digits hr v) x (List.mem_reverse.1 hx))

/-! ### Radix inference -/

theorem infer_tmemBytes (s : State) (addr len : Nat) :
    infer (tmemBytes s addr (min len 2)) = inferred (tmemByte s addr) (tmemByte s (addr + 1)) len := by
  rcases Nat.lt_or_ge len 2 with h | h
  · have : min len 2 = 0 ∨ min len 2 = 1 := by omega
    rcases this with h1 | h1 <;> rw [h1] <;> simp [tmemBytes, infer, inferred, show ¬ 2 ≤ len by omega]
  · rw [Nat.min_eq_right h, tmemBytes, show List.range 2 = [0, 1] from rfl]
    simp only [List.map_cons, List.map_nil, Nat.add_zero, infer, inferred, isZeroChar, isHexMark, isBinMark, h, true_and, decide_eq_true_eq,
      Bool.or_eq_true]
    by_cases h0 : tmemByte s addr = 48#8 <;> simp [h0]

theorem prefixLen_eq (t : List Byte) (r : Nat) : prefixLen t r = matchedPrefix (infer t) r := rfl

end Sys2Proof.Machine
end

