-- ==== Sys2Proof/Laws/Float.lean ====
section
/-! SUPPORT. Laws/Float.lean: the float operands as rational numbers: the domain check, the float cursor and the digit
count (46_radix.md R239 to R245). -/

namespace Sys2Proof.Machine

/-! ### Accepted floats -/

/-- The rational value of a dyadic. -/
def Dyadic.toRat (x : Dyadic) : ℚ := (x.mant : ℚ) * (2 : ℚ) ^ x.exp

theorem Dyadic.toRat_nonneg (x : Dyadic) : 0 ≤ x.toRat := by unfold Dyadic.toRat; positivity

/-- The fields of a binary64 pattern by division (46_radix.md R239). -/
theorem f64_eq (bits : Native) : f64 bits =
    (let neg : Bool := decide (bits.toNat / 2 ^ 63 = 1)
     let e : Nat := bits.toNat / 2 ^ 52 % 2 ^ 11
     let f : Nat := bits.toNat % 2 ^ 52
     if e = 2047 then (if f = 0 then .infinite neg else .nan)
     else if e = 0 then .finite neg f (-1074) else .finite neg (2 ^ 52 + f) ((e : Int) - 1075)) := by
  have hlt := bits.isLt
  have hneg : bits.getLsbD 63 = decide (bits.toNat / 2 ^ 63 = 1) := by
    rw [BitVec.getLsbD, Nat.testBit_eq_decide_div_mod_eq, Nat.mod_eq_of_lt (by omega)]
  unfold f64
  rw [hneg]
  simp only [BitVec.extractLsb'_toNat, Nat.shiftRight_eq_div_pow, pow_zero, Nat.div_one]

/-- A pattern passes the domain check with its exact value, or it is no number or a negative one (46_radix.md R240). -/
theorem checkFloat_cases (bits : Native) : (∃ d : Dyadic, checkFloat (f64 bits) = .ok d ∧ floatRat bits = some d.toRat) ∨
    (checkFloat (f64 bits) = .error (.contract .floatDomain) ∧ ∀ x, floatRat bits = some x → x < 0) := by
  have fin : ∀ (neg : Bool) (mant : Nat) (exp : Int) (q : ℚ),
      floatRat bits = some q → q = (if neg then -1 else 1) * ((mant : ℚ) * (2 : ℚ) ^ exp) →
      (∃ d : Dyadic, checkFloat (.finite neg mant exp) = .ok d ∧ floatRat bits = some d.toRat) ∨
      (checkFloat (.finite neg mant exp) = .error (.contract .floatDomain) ∧ ∀ x, floatRat bits = some x → x < 0) := by
    intro neg mant exp q hq he
    have hp : (0 : ℚ) < (2 : ℚ) ^ exp := by positivity
    rcases Nat.eq_zero_or_pos mant with h0 | h0
    · subst h0
      refine .inl ⟨⟨0, exp⟩, by simp [checkFloat], ?_⟩
      rw [hq, he]
      simp [Dyadic.toRat]
    · cases neg
      · refine .inl ⟨⟨mant, exp⟩, by simp [checkFloat], ?_⟩
        rw [hq, he]
        simp [Dyadic.toRat]
      · refine .inr ⟨by simp [checkFloat, h0.ne'], fun x hx => ?_⟩
        rw [hq] at hx
        have : (0 : ℚ) < mant := by exact_mod_cast h0
        have h1 := mul_pos this hp
        rw [← Option.some.inj hx, he, if_pos rfl]
        linarith
  rw [f64_eq]
  simp only
  split
  · next h =>
    refine .inr ⟨by split <;> rfl, fun x hx => ?_⟩
    rw [floatRat, if_pos h] at hx
    exact absurd hx (by simp)
  · next h =>
    split
    · next h0 =>
      refine fin _ _ _ _ (by rw [floatRat, if_neg h, if_pos h0]) ?_
      simp only [decide_eq_true_eq]
      ring
    · next h0 =>
      refine fin _ _ _ _ (by rw [floatRat, if_neg h, if_neg h0]) ?_
      simp only [decide_eq_true_eq]
      ring

/-! ### Floor -/

theorem floorDyadic_eq (x : Dyadic) : floorDyadic x = ⌊x.toRat⌋₊ := by
  unfold floorDyadic Dyadic.toRat
  split
  · next h =>
    have : (x.mant : ℚ) * (2 : ℚ) ^ x.exp = ((x.mant * 2 ^ x.exp.toNat : Nat) : ℚ) := by
      conv_lhs => rw [← Int.toNat_of_nonneg h]
      push_cast
      rw [zpow_natCast]
    rw [this, Nat.floor_natCast]
  · next h =>
    have : (x.mant : ℚ) * (2 : ℚ) ^ x.exp = (x.mant : ℚ) / ((2 ^ (-x.exp).toNat : Nat) : ℚ) := by
      have e : x.exp = -((-x.exp).toNat : Int) := by omega
      conv_lhs => rw [e, zpow_neg, zpow_natCast]
      push_cast
      rw [div_eq_mul_inv]
    rw [this, Nat.floor_div_natCast, Nat.floor_natCast]

/-! ### The float cursor -/

theorem toRat_divBase (W : Nat) (x : Dyadic) : (divBase W x).toRat = x.toRat / ((2 ^ W : Nat) : ℚ) := by
  unfold divBase Dyadic.toRat
  rw [zpow_sub₀ (by norm_num), zpow_natCast]
  push_cast
  ring

theorem floor_divBase (W : Nat) (x : Dyadic) : floorDyadic (divBase W x) = floorDyadic x / 2 ^ W := by
  rw [floorDyadic_eq, floorDyadic_eq, toRat_divBase, Nat.floor_div_natCast]

/-- The cursor yields the canonical magnitude of the floor (46_radix.md R243). -/
theorem floatDigits_eq {W : Nat} (hW : 1 ≤ W) (x : Dyadic) : floatDigits W x = digits (2 ^ W) (floorDyadic x) := by
  have hB := two_le_base hW
  have key : ∀ (fuel : Nat) (x : Dyadic), floatDigitsAux W fuel x = digitsAux (2 ^ W) fuel (floorDyadic x) ∨
      fuel < bitlen (floorDyadic x) := by
    intro fuel
    induction fuel with
    | zero =>
      intro x
      rcases Nat.eq_zero_or_pos (floorDyadic x) with h | h
      · left; simp [floatDigitsAux, digitsAux, digitFromFloat, h]
      · exact .inr (bitlen_pos (by omega))
    | succ n ih =>
      intro x
      by_cases h : floorDyadic x < 2 ^ W
      · left
        rw [floatDigitsAux, digitsAux, if_pos h, floor_divBase, Nat.div_eq_of_lt h, if_neg (by omega), digitFromFloat,
          Nat.mod_eq_of_lt h]
      · have h1 : 1 ≤ floorDyadic x / 2 ^ W := Nat.div_pos (by omega) (by omega)
        rcases ih (divBase W x) with h2 | h2
        · left
          rw [floatDigitsAux, digitsAux, if_neg h, floor_divBase, if_pos h1, h2, floor_divBase, digitFromFloat]
        · right
          rw [floor_divBase] at h2
          have := bitlen_div_lt (B := 2 ^ W) (v := floorDyadic x) hB (by omega)
          omega
  exact (key _ x).resolve_right (lt_irrefl _)

/-! ### The digit count -/

theorem isPowerOfTwo_iff (x : Dyadic) (e : Nat) : isPowerOfTwo x e = true ↔ x.toRat = 2 ^ e := by
  unfold isPowerOfTwo Dyadic.toRat
  split
  · next h =>
    have : (x.mant : ℚ) * (2 : ℚ) ^ x.exp = ((x.mant * 2 ^ x.exp.toNat : Nat) : ℚ) := by
      conv_lhs => rw [← Int.toNat_of_nonneg h]
      push_cast
      rw [zpow_natCast]
    rw [this, decide_eq_true_eq]
    exact_mod_cast Iff.rfl
  · next h =>
    have hp : (0 : ℚ) < (2 : ℚ) ^ (-x.exp).toNat := by positivity
    have : (x.mant : ℚ) * (2 : ℚ) ^ x.exp = (x.mant : ℚ) / (2 : ℚ) ^ (-x.exp).toNat := by
      have e : x.exp = -((-x.exp).toNat : Int) := by omega
      conv_lhs => rw [e, zpow_neg, zpow_natCast]
      rw [div_eq_mul_inv]
    rw [this, decide_eq_true_eq, div_eq_iff hp.ne', ← pow_add]
    exact_mod_cast Iff.rfl

/-- The exponent of the leading bit, from the bounds it lies between. -/
theorem bitlen_sub_one_eq {v e : Nat} (h1 : 2 ^ e ≤ v) (h2 : v < 2 ^ (e + 1)) : bitlen v - 1 = e := by
  have h0 : 0 < 2 ^ e := by positivity
  have h3 := lt_of_le_of_lt h1 (lt_two_pow_bitlen v)
  have h4 := lt_of_le_of_lt (two_pow_bitlen_le (v := v) (by omega)) h2
  have := (Nat.pow_lt_pow_iff_right (by omega : 1 < 2)).1 h3
  have := (Nat.pow_lt_pow_iff_right (by omega : 1 < 2)).1 h4
  omega

theorem ceil_div_natCast (e : Nat) {W : Nat} (hW : 1 ≤ W) : ⌈(e : ℚ) / W⌉₊ = (e + W - 1) / W := by
  refine eq_of_forall_ge_iff fun n => ?_
  have hW' : (0 : ℚ) < W := by exact_mod_cast hW
  rw [Nat.ceil_le, div_le_iff₀ hW', ← Nat.lt_succ_iff, Nat.div_lt_iff_lt_mul hW, Nat.succ_mul]
  have : ((e : ℚ) ≤ n * W) ↔ e ≤ n * W := by exact_mod_cast Iff.rfl
  rw [this]
  omega

/-- The count is the estimate the spec defines (46_radix.md R245). -/
theorem isDigitEstimate_fdcnt {W : Nat} (hW : 1 ≤ W) (x : Dyadic) : IsDigitEstimate W x.toRat (fdcntValue W x) := by
  have hx := x.toRat_nonneg
  have bounds : ∀ e : ℕ, (2 : ℚ) ^ e ≤ x.toRat → x.toRat < 2 ^ (e + 1) →
      1 ≤ floorDyadic x ∧ bitlen (floorDyadic x) - 1 = e := by
    intro e h1 h2
    have h3 : 2 ^ e ≤ floorDyadic x := by
      rw [floorDyadic_eq]; exact Nat.le_floor (by exact_mod_cast h1)
    have h4 : floorDyadic x < 2 ^ (e + 1) := by
      rw [floorDyadic_eq, Nat.floor_lt hx]; exact_mod_cast h2
    have h5 : 0 < 2 ^ e := by positivity
    exact ⟨by omega, bitlen_sub_one_eq h3 h4⟩
  refine ⟨fun h => ?_, fun e h => ?_, fun e h1 h2 => ?_⟩
  · rw [fdcntValue, if_pos]
    rw [floorDyadic_eq, Nat.floor_lt hx]
    exact_mod_cast h
  · have h2 : x.toRat < 2 ^ (e + 1) := by
      rw [h, pow_succ]
      have : (0 : ℚ) < 2 ^ e := by positivity
      linarith
    obtain ⟨h3, h4⟩ := bounds e h.ge h2
    rw [fdcntValue, if_neg (by omega)]
    simp only [h4]
    rw [if_pos ((isPowerOfTwo_iff x e).2 h)]
    exact (ceil_div_natCast e hW).symm
  · obtain ⟨h3, h4⟩ := bounds e h1.le h2
    rw [fdcntValue, if_neg (by omega)]
    simp only [h4]
    rw [if_neg fun hp => h1.ne' ((isPowerOfTwo_iff x e).1 hp)]

/-- The count is at most the bit length of the floor. -/
theorem fdcntValue_le {W : Nat} (hW : 1 ≤ W) (x : Dyadic) : fdcntValue W x ≤ bitlen (floorDyadic x) := by
  unfold fdcntValue
  split
  · exact Nat.zero_le _
  · next h =>
    have hb : 0 < bitlen (floorDyadic x) := bitlen_pos (by omega)
    simp only
    split
    · rw [← Nat.lt_succ_iff, Nat.div_lt_iff_lt_mul hW]
      have : bitlen (floorDyadic x) - 1 ≤ (bitlen (floorDyadic x) - 1) * W := Nat.le_mul_of_pos_right _ hW
      have h2 : (bitlen (floorDyadic x)).succ * W = (bitlen (floorDyadic x) - 1) * W + 2 * W := by
        rw [← Nat.add_mul]; congr 1; omega
      omega
    · have := Nat.div_le_self (bitlen (floorDyadic x) - 1) W
      omega

/-- An accepted binary64 value is below 2^1024 (46_radix.md R239). -/
theorem floorDyadic_lt {bits : Native} {d : Dyadic} (h : checkFloat (f64 bits) = .ok d) : floorDyadic d < 2 ^ 1024 := by
  have hf : bits.toNat % 2 ^ 52 < 2 ^ 52 := Nat.mod_lt _ (by norm_num)
  have he : bits.toNat / 2 ^ 52 % 2 ^ 11 < 2 ^ 11 := Nat.mod_lt _ (by norm_num)
  have fin : ∀ (neg : Bool) (mant : Nat) (exp : Int), mant < 2 ^ 53 → exp ≤ 971 →
      checkFloat (.finite neg mant exp) = .ok d → floorDyadic d < 2 ^ 1024 := by
    intro neg mant exp hm hx hd
    simp only [checkFloat] at hd
    split at hd
    · cases hd
    · cases hd
      unfold floorDyadic
      split
      · calc mant * 2 ^ exp.toNat < 2 ^ 53 * 2 ^ exp.toNat := Nat.mul_lt_mul_of_pos_right hm (by positivity)
          _ ≤ 2 ^ 53 * 2 ^ 971 := Nat.mul_le_mul_left _ (Nat.pow_le_pow_right (by norm_num) (by omega))
          _ = 2 ^ 1024 := by rw [← pow_add]
      · exact lt_of_le_of_lt (Nat.div_le_self _ _) (lt_of_lt_of_le hm (Nat.pow_le_pow_right (by omega) (by omega)))
  rw [f64_eq] at h
  simp only at h
  split at h
  · split at h <;> cases h
  · next h1 =>
    split at h
    · refine fin _ _ _ (hf.trans ?_) (by norm_num) h
      norm_num
    · refine fin _ _ _ ?_ ?_ h
      · rw [show (2 : Nat) ^ 53 = 2 ^ 52 + 2 ^ 52 by norm_num]
        exact Nat.add_lt_add_left hf _
      · omega

end Sys2Proof.Machine
end

