-- ==== Sys2Proof/Laws/HostPort.lean ====
section
/-! SUPPORT. Laws/HostPort.lean: which host operations take effect (60_exceptions.md R296, R302), and the value a CSR
shows as a number (10_state.md R33 to R39). -/

namespace Sys2Proof.Machine

variable {s : State}

/-- While the core is not running every host operation has its effect. -/
theorem hostMove_of_stopped (h : s.runState ≠ .running) (op : HostOp) : hostMove op s = hostEffect s op := by
  cases op <;> simp [hostMove, hostAllowed, allowedIf, h]

/-- While it runs every operation but reset and the STATUS poll is refused, with no effect. -/
theorem hostMove_of_running (h : s.runState = .running) {op : HostOp} (h1 : op ≠ .reset) (h2 : op ≠ .readCsr 0) :
    hostMove op s = (s, .refused) := by
  cases op <;> simp_all [hostMove, hostAllowed, allowedIf]

/-- An assigned number reads its CSR. -/
theorem hostReadCsr_csrCode (csr : Csr) : hostReadCsr s (csrCode csr) = (s, .csr (csrValue s csr)) := by
  simp [hostReadCsr]

theorem flagsWord_toNat : (flagsWord s).toNat = csrNumber s .flags := by
  have key : ∀ (p : ParseError) (g : Sign), ((perrCode p ++ sgnCode g).setWidth 64 : BitVec 64).toNat =
      4 * (match p with | .none => 0 | .badRadix => 1 | .badChar => 2 | .empty => 3) +
        (match g with | .zero => 0 | .positive => 1 | .negative => 3) := by
    intro p g; cases p <;> cases g <;> rfl
  exact key s.perr s.sgn

/-- A CSR as a number: STATUS shows STATE, every other what the core reads; under legal parameters each fits 64 bits. -/
theorem csrValue_toNat (h : s.params.Legal) (csr : Csr) :
    (csrValue s csr).toNat = if csr = .status then (runStateCode s.runState).toNat else csrNumber s csr := by
  obtain ⟨h1, h2, h3, h4, h5, h6, h7⟩ := h
  have hc := s.faultCause.isLt
  have hp := s.faultPc.isLt
  have hm : s.params.maxLen.getD 0 < 2 ^ 64 := by
    unfold Config.Params.LegalMaxLen at h5
    split at h5
    · next e => simp [e]
    · next e => simpa [e] using h5.2
  cases csr with
  | flags => exact flagsWord_toNat
  | status => cases hs : s.runState <;> simp [csrValue, hs, runStateCode]
  | faultInfo => rfl
  | cfgN => rfl
  | cfgId => rfl
  | _ => simp only [csrValue, csrNumber, reduceCtorEq, if_false, BitVec.toNat_setWidth, BitVec.toNat_ofNat]; omega

/-- STATUS as the host reads it while the core is not running. -/
theorem csrValue_of_stopped (h : s.params.Legal) (hs : s.runState ≠ .running) (csr : Csr) :
    (csrValue s csr).toNat = stoppedCsrNumber s csr := by
  rw [csrValue_toNat h, stoppedCsrNumber]
  cases hr : s.runState <;> simp_all [runStateCode]

end Sys2Proof.Machine
end

