-- ==== Sys2Proof/Laws/PerInstr.lean ====
section
/-! SUPPORT. Laws/PerInstr.lean: the family TableRow: every command's word has the form of the command's own row of
spec/opcode_table.json (30_encoding.md R84, R88), one lemma per constructor of Instr. -/

namespace Sys2Proof.Laws.TableRow

/-- The word of the command matches a row of the opcode table that carries the command's mnemonic. -/
def Statement (i : Instr) : Prop :=
  ∃ row ∈ Machine.opcodeRows, row.mnemonic = Machine.mnemonicOf i ∧ row.matches (encode i) = true

/-- Format R: a row whose mask is all ones in the opcode and in the fields the command does not use. -/
theorem of_packR {op : BitVec 8} {a b c d ma mb mc md : BitVec 4} {i mi : BitVec 8} {row : Machine.OpcodeRow}
    (hm : row.mask = packR 0xFF ma mb mc md mi) (hp : row.pattern = packR op 0 0 0 0 0)
    (ha : a &&& ma = 0) (hb : b &&& mb = 0) (hc : c &&& mc = 0) (hd : d &&& md = 0) (hi : i &&& mi = 0) :
    row.matches (packR op a b c d i) = true := by
  have ho : op &&& 255#8 = op := BitVec.and_allOnes
  simp [Machine.OpcodeRow.matches, hm, hp, packR_and, ho, ha, hb, hc, hd, hi]

/-- Formats B and I. -/
theorem of_packI {op : BitVec 8} {a b ma mb : BitVec 4} {i mi : BitVec 16} {row : Machine.OpcodeRow}
    (hm : row.mask = packI 0xFF ma mb mi) (hp : row.pattern = packI op 0 0 0)
    (ha : a &&& ma = 0) (hb : b &&& mb = 0) (hi : i &&& mi = 0) :
    row.matches (packI op a b i) = true := by
  have ho : op &&& 255#8 = op := BitVec.and_allOnes
  simp [Machine.OpcodeRow.matches, hm, hp, packI_and, ho, ha, hb, hi]

theorem nop : Statement (.nop) :=
  ⟨⟨"NOP", 0xFFFFFFFF, 0x01000000⟩, by decide, rfl,
    of_packR (ma := 15) (mb := 15) (mc := 15) (md := 15) (mi := 255) rfl rfl (by simp) (by simp) (by simp) (by simp) (by simp)⟩
theorem halt : Statement (.halt) :=
  ⟨⟨"HALT", 0xFFFFFFFF, 0x02000000⟩, by decide, rfl,
    of_packR (ma := 15) (mb := 15) (mc := 15) (md := 15) (mi := 255) rfl rfl (by simp) (by simp) (by simp) (by simp) (by simp)⟩
theorem br (cond : Cond) (off : BitVec 16) : Statement (.br cond off) :=
  ⟨⟨"BR", 0xFF0F0000, 0x04000000⟩, by decide, rfl,
    of_packI (ma := 0) (mb := 15) (mi := 0) rfl rfl (by simp) (by simp) (by simp)⟩
theorem csrr (a : XReg) (csr : Csr) : Statement (.csrr a csr) :=
  ⟨⟨"CSRR", 0xFF0F0000, 0x05000000⟩, by decide, rfl,
    of_packI (ma := 0) (mb := 15) (mi := 0) rfl rfl (by simp) (by simp) (by simp)⟩
theorem li (a : XReg) (imm : BitVec 16) : Statement (.li a imm) :=
  ⟨⟨"LI", 0xFF0F0000, 0x10000000⟩, by decide, rfl,
    of_packI (ma := 0) (mb := 15) (mi := 0) rfl rfl (by simp) (by simp) (by simp)⟩
theorem lih (a : XReg) (imm : BitVec 16) : Statement (.lih a imm) :=
  ⟨⟨"LIH", 0xFF0F0000, 0x11000000⟩, by decide, rfl,
    of_packI (ma := 0) (mb := 15) (mi := 0) rfl rfl (by simp) (by simp) (by simp)⟩
theorem xaddi (a b : XReg) (imm : BitVec 16) : Statement (.xaddi a b imm) :=
  ⟨⟨"XADDI", 0xFF000000, 0x12000000⟩, by decide, rfl,
    of_packI (ma := 0) (mb := 0) (mi := 0) rfl rfl (by simp) (by simp) (by simp)⟩
theorem xcmp (b c : XReg) : Statement (.xcmp b c) :=
  ⟨⟨"XCMP", 0xFFF00FFF, 0x13000000⟩, by decide, rfl,
    of_packR (ma := 15) (mb := 0) (mc := 0) (md := 15) (mi := 255) rfl rfl (by simp) (by simp) (by simp) (by simp) (by simp)⟩
theorem mov (a b : MReg) : Statement (.mov a b) :=
  ⟨⟨"MOV", 0xFF00FFFF, 0x14000000⟩, by decide, rfl,
    of_packR (ma := 0) (mb := 0) (mc := 15) (md := 15) (mi := 255) rfl rfl (by simp) (by simp) (by simp) (by simp) (by simp)⟩
theorem mfx (a : MReg) (b : XReg) : Statement (.mfx a b) :=
  ⟨⟨"MFX", 0xFF00FFFF, 0x15000000⟩, by decide, rfl,
    of_packR (ma := 0) (mb := 0) (mc := 15) (md := 15) (mi := 255) rfl rfl (by simp) (by simp) (by simp) (by simp) (by simp)⟩
theorem len (a : XReg) (b : MReg) : Statement (.len a b) :=
  ⟨⟨"LEN", 0xFF00FFFF, 0x16000000⟩, by decide, rfl,
    of_packR (ma := 0) (mb := 0) (mc := 15) (md := 15) (mi := 255) rfl rfl (by simp) (by simp) (by simp) (by simp) (by simp)⟩
theorem getd (a : XReg) (b : MReg) (c : XReg) : Statement (.getd a b c) :=
  ⟨⟨"GETD", 0xFF000FFF, 0x17000000⟩, by decide, rfl,
    of_packR (ma := 0) (mb := 0) (mc := 0) (md := 15) (mi := 255) rfl rfl (by simp) (by simp) (by simp) (by simp) (by simp)⟩
theorem fmvx (a : FReg) (b : XReg) : Statement (.fmvx a b) :=
  ⟨⟨"FMVX", 0xFF00FFFF, 0x18000000⟩, by decide, rfl,
    of_packR (ma := 0) (mb := 0) (mc := 15) (md := 15) (mi := 255) rfl rfl (by simp) (by simp) (by simp) (by simp) (by simp)⟩
theorem ldb (a b : XReg) (imm : BitVec 16) : Statement (.ldb a b imm) :=
  ⟨⟨"LDB", 0xFF000000, 0x19000000⟩, by decide, rfl,
    of_packI (ma := 0) (mb := 0) (mi := 0) rfl rfl (by simp) (by simp) (by simp)⟩
theorem stb (a b : XReg) (imm : BitVec 16) : Statement (.stb a b imm) :=
  ⟨⟨"STB", 0xFF000000, 0x1A000000⟩, by decide, rfl,
    of_packI (ma := 0) (mb := 0) (mi := 0) rfl rfl (by simp) (by simp) (by simp)⟩
theorem digv (a b : XReg) : Statement (.digv a b) :=
  ⟨⟨"DIGV", 0xFF00FFFF, 0x20000000⟩, by decide, rfl,
    of_packR (ma := 0) (mb := 0) (mc := 15) (md := 15) (mi := 255) rfl rfl (by simp) (by simp) (by simp) (by simp) (by simp)⟩
theorem digvf (a : XReg) (b : FReg) : Statement (.digvf a b) :=
  ⟨⟨"DIGVF", 0xFF00FFFF, 0x21000000⟩, by decide, rfl,
    of_packR (ma := 0) (mb := 0) (mc := 15) (md := 15) (mi := 255) rfl rfl (by simp) (by simp) (by simp) (by simp) (by simp)⟩
theorem emov (a : EReg) (b c : XReg) : Statement (.emov a b c) :=
  ⟨⟨"EMOV", 0xFF000FFF, 0x22000000⟩, by decide, rfl,
    of_packR (ma := 0) (mb := 0) (mc := 0) (md := 15) (mi := 255) rfl rfl (by simp) (by simp) (by simp) (by simp) (by simp)⟩
theorem edl (a : XReg) (b : EReg) : Statement (.edl a b) :=
  ⟨⟨"EDL", 0xFF00FFFF, 0x23000000⟩, by decide, rfl,
    of_packR (ma := 0) (mb := 0) (mc := 15) (md := 15) (mi := 255) rfl rfl (by simp) (by simp) (by simp) (by simp) (by simp)⟩
theorem edm (a : XReg) (b : EReg) : Statement (.edm a b) :=
  ⟨⟨"EDM", 0xFF00FFFF, 0x24000000⟩, by decide, rfl,
    of_packR (ma := 0) (mb := 0) (mc := 15) (md := 15) (mi := 255) rfl rfl (by simp) (by simp) (by simp) (by simp) (by simp)⟩
theorem edh (a : XReg) (b : EReg) : Statement (.edh a b) :=
  ⟨⟨"EDH", 0xFF00FFFF, 0x25000000⟩, by decide, rfl,
    of_packR (ma := 0) (mb := 0) (mc := 15) (md := 15) (mi := 255) rfl rfl (by simp) (by simp) (by simp) (by simp) (by simp)⟩
theorem esz (a : XReg) (b : EReg) : Statement (.esz a b) :=
  ⟨⟨"ESZ", 0xFF00FFFF, 0x26000000⟩, by decide, rfl,
    of_packR (ma := 0) (mb := 0) (mc := 15) (md := 15) (mi := 255) rfl rfl (by simp) (by simp) (by simp) (by simp) (by simp)⟩
theorem emb (a b : EReg) : Statement (.emb a b) :=
  ⟨⟨"EMB", 0xFF00FFFF, 0x27000000⟩, by decide, rfl,
    of_packR (ma := 0) (mb := 0) (mc := 15) (md := 15) (mi := 255) rfl rfl (by simp) (by simp) (by simp) (by simp) (by simp)⟩
theorem emba (a b : EReg) (c : XReg) : Statement (.emba a b c) :=
  ⟨⟨"EMBA", 0xFF000FFF, 0x28000000⟩, by decide, rfl,
    of_packR (ma := 0) (mb := 0) (mc := 0) (md := 15) (mi := 255) rfl rfl (by simp) (by simp) (by simp) (by simp) (by simp)⟩
theorem emuld (a b : EReg) (c : XReg) : Statement (.emuld a b c) :=
  ⟨⟨"EMULD", 0xFF000FFF, 0x29000000⟩, by decide, rfl,
    of_packR (ma := 0) (mb := 0) (mc := 0) (md := 15) (mi := 255) rfl rfl (by simp) (by simp) (by simp) (by simp) (by simp)⟩
theorem esub (a b c : EReg) : Statement (.esub a b c) :=
  ⟨⟨"ESUB", 0xFF000FFF, 0x2A000000⟩, by decide, rfl,
    of_packR (ma := 0) (mb := 0) (mc := 0) (md := 15) (mi := 255) rfl rfl (by simp) (by simp) (by simp) (by simp) (by simp)⟩
theorem eshr (a b : EReg) (k : BitVec 8) : Statement (.eshr a b k) :=
  ⟨⟨"ESHR", 0xFF00FF00, 0x2B000000⟩, by decide, rfl,
    of_packR (ma := 0) (mb := 0) (mc := 15) (md := 15) (mi := 0) rfl rfl (by simp) (by simp) (by simp) (by simp) (by simp)⟩
theorem ecmp (b c : EReg) : Statement (.ecmp b c) :=
  ⟨⟨"ECMP", 0xFFF00FFF, 0x2C000000⟩, by decide, rfl,
    of_packR (ma := 15) (mb := 0) (mc := 0) (md := 15) (mi := 255) rfl rfl (by simp) (by simp) (by simp) (by simp) (by simp)⟩
theorem vlo (a b : XReg) : Statement (.vlo a b) :=
  ⟨⟨"VLO", 0xFF00FFFF, 0x30000000⟩, by decide, rfl,
    of_packR (ma := 0) (mb := 0) (mc := 15) (md := 15) (mi := 255) rfl rfl (by simp) (by simp) (by simp) (by simp) (by simp)⟩
theorem vhi (a b : XReg) : Statement (.vhi a b) :=
  ⟨⟨"VHI", 0xFF00FFFF, 0x31000000⟩, by decide, rfl,
    of_packR (ma := 0) (mb := 0) (mc := 15) (md := 15) (mi := 255) rfl rfl (by simp) (by simp) (by simp) (by simp) (by simp)⟩
theorem vsz (a b : XReg) : Statement (.vsz a b) :=
  ⟨⟨"VSZ", 0xFF00FFFF, 0x32000000⟩, by decide, rfl,
    of_packR (ma := 0) (mb := 0) (mc := 15) (md := 15) (mi := 255) rfl rfl (by simp) (by simp) (by simp) (by simp) (by simp)⟩
theorem sodd (a b : XReg) : Statement (.sodd a b) :=
  ⟨⟨"SODD", 0xFF00FFFF, 0x34000000⟩, by decide, rfl,
    of_packR (ma := 0) (mb := 0) (mc := 15) (md := 15) (mi := 255) rfl rfl (by simp) (by simp) (by simp) (by simp) (by simp)⟩
theorem sodb (a b : XReg) : Statement (.sodb a b) :=
  ⟨⟨"SODB", 0xFF00FFFF, 0x35000000⟩, by decide, rfl,
    of_packR (ma := 0) (mb := 0) (mc := 15) (md := 15) (mi := 255) rfl rfl (by simp) (by simp) (by simp) (by simp) (by simp)⟩
theorem clz (a b : XReg) : Statement (.clz a b) :=
  ⟨⟨"CLZ", 0xFF00FFFF, 0x36000000⟩, by decide, rfl,
    of_packR (ma := 0) (mb := 0) (mc := 15) (md := 15) (mi := 255) rfl rfl (by simp) (by simp) (by simp) (by simp) (by simp)⟩
theorem cmp (b c : MReg) : Statement (.cmp b c) :=
  ⟨⟨"CMP", 0xFFF00FFF, 0x40000000⟩, by decide, rfl,
    of_packR (ma := 15) (mb := 0) (mc := 0) (md := 15) (mi := 255) rfl rfl (by simp) (by simp) (by simp) (by simp) (by simp)⟩
theorem cmpx (b : MReg) (c : XReg) : Statement (.cmpx b c) :=
  ⟨⟨"CMPX", 0xFFF00FFF, 0x41000000⟩, by decide, rfl,
    of_packR (ma := 15) (mb := 0) (mc := 0) (md := 15) (mi := 255) rfl rfl (by simp) (by simp) (by simp) (by simp) (by simp)⟩
theorem cmpf (b : MReg) (c : FReg) : Statement (.cmpf b c) :=
  ⟨⟨"CMPF", 0xFFF00FFF, 0x42000000⟩, by decide, rfl,
    of_packR (ma := 15) (mb := 0) (mc := 0) (md := 15) (mi := 255) rfl rfl (by simp) (by simp) (by simp) (by simp) (by simp)⟩
theorem add (a b c : MReg) : Statement (.add a b c) :=
  ⟨⟨"ADD", 0xFF000FFF, 0x48000000⟩, by decide, rfl,
    of_packR (ma := 0) (mb := 0) (mc := 0) (md := 15) (mi := 255) rfl rfl (by simp) (by simp) (by simp) (by simp) (by simp)⟩
theorem addx (a b : MReg) (c : XReg) : Statement (.addx a b c) :=
  ⟨⟨"ADDX", 0xFF000FFF, 0x49000000⟩, by decide, rfl,
    of_packR (ma := 0) (mb := 0) (mc := 0) (md := 15) (mi := 255) rfl rfl (by simp) (by simp) (by simp) (by simp) (by simp)⟩
theorem addf (a b : MReg) (c : FReg) : Statement (.addf a b c) :=
  ⟨⟨"ADDF", 0xFF000FFF, 0x4A000000⟩, by decide, rfl,
    of_packR (ma := 0) (mb := 0) (mc := 0) (md := 15) (mi := 255) rfl rfl (by simp) (by simp) (by simp) (by simp) (by simp)⟩
theorem sub (a b c : MReg) : Statement (.sub a b c) :=
  ⟨⟨"SUB", 0xFF000FFF, 0x4B000000⟩, by decide, rfl,
    of_packR (ma := 0) (mb := 0) (mc := 0) (md := 15) (mi := 255) rfl rfl (by simp) (by simp) (by simp) (by simp) (by simp)⟩
theorem mul (a b c : MReg) : Statement (.mul a b c) :=
  ⟨⟨"MUL", 0xFF000FFF, 0x50000000⟩, by decide, rfl,
    of_packR (ma := 0) (mb := 0) (mc := 0) (md := 15) (mi := 255) rfl rfl (by simp) (by simp) (by simp) (by simp) (by simp)⟩
theorem mull (a b c : MReg) : Statement (.mull a b c) :=
  ⟨⟨"MULL", 0xFF000FFF, 0x51000000⟩, by decide, rfl,
    of_packR (ma := 0) (mb := 0) (mc := 0) (md := 15) (mi := 255) rfl rfl (by simp) (by simp) (by simp) (by simp) (by simp)⟩
theorem div (a b c d : MReg) : Statement (.div a b c d) :=
  ⟨⟨"DIV", 0xFF0000FF, 0x58000000⟩, by decide, rfl,
    of_packR (ma := 0) (mb := 0) (mc := 0) (md := 0) (mi := 255) rfl rfl (by simp) (by simp) (by simp) (by simp) (by simp)⟩
theorem divl (a b c d : MReg) : Statement (.divl a b c d) :=
  ⟨⟨"DIVL", 0xFF0000FF, 0x59000000⟩, by decide, rfl,
    of_packR (ma := 0) (mb := 0) (mc := 0) (md := 0) (mi := 255) rfl rfl (by simp) (by simp) (by simp) (by simp) (by simp)⟩
theorem quo (a b c : MReg) : Statement (.quo a b c) :=
  ⟨⟨"QUO", 0xFF000FFF, 0x5A000000⟩, by decide, rfl,
    of_packR (ma := 0) (mb := 0) (mc := 0) (md := 15) (mi := 255) rfl rfl (by simp) (by simp) (by simp) (by simp) (by simp)⟩
theorem rem (a b c : MReg) : Statement (.rem a b c) :=
  ⟨⟨"REM", 0xFF000FFF, 0x5B000000⟩, by decide, rfl,
    of_packR (ma := 0) (mb := 0) (mc := 0) (md := 15) (mi := 255) rfl rfl (by simp) (by simp) (by simp) (by simp) (by simp)⟩
theorem divx (a b : MReg) (c d : XReg) : Statement (.divx a b c d) :=
  ⟨⟨"DIVX", 0xFF0000FF, 0x5C000000⟩, by decide, rfl,
    of_packR (ma := 0) (mb := 0) (mc := 0) (md := 0) (mi := 255) rfl rfl (by simp) (by simp) (by simp) (by simp) (by simp)⟩
theorem shl (a b : MReg) (c : XReg) : Statement (.shl a b c) :=
  ⟨⟨"SHL", 0xFF000FFF, 0x60000000⟩, by decide, rfl,
    of_packR (ma := 0) (mb := 0) (mc := 0) (md := 15) (mi := 255) rfl rfl (by simp) (by simp) (by simp) (by simp) (by simp)⟩
theorem shr (a b : MReg) (c : XReg) : Statement (.shr a b c) :=
  ⟨⟨"SHR", 0xFF000FFF, 0x61000000⟩, by decide, rfl,
    of_packR (ma := 0) (mb := 0) (mc := 0) (md := 15) (mi := 255) rfl rfl (by simp) (by simp) (by simp) (by simp) (by simp)⟩
theorem shli (a b : MReg) (imm : BitVec 16) : Statement (.shli a b imm) :=
  ⟨⟨"SHLI", 0xFF000000, 0x62000000⟩, by decide, rfl,
    of_packI (ma := 0) (mb := 0) (mi := 0) rfl rfl (by simp) (by simp) (by simp)⟩
theorem shri (a b : MReg) (imm : BitVec 16) : Statement (.shri a b imm) :=
  ⟨⟨"SHRI", 0xFF000000, 0x63000000⟩, by decide, rfl,
    of_packI (ma := 0) (mb := 0) (mi := 0) rfl rfl (by simp) (by simp) (by simp)⟩
theorem parse (a : MReg) (b c d : XReg) : Statement (.parse a b c d) :=
  ⟨⟨"PARSE", 0xFF0000FF, 0x68000000⟩, by decide, rfl,
    of_packR (ma := 0) (mb := 0) (mc := 0) (md := 0) (mi := 255) rfl rfl (by simp) (by simp) (by simp) (by simp) (by simp)⟩
theorem fmt (a : XReg) (b : MReg) (c d : XReg) : Statement (.fmt a b c d) :=
  ⟨⟨"FMT", 0xFF0000FF, 0x69000000⟩, by decide, rfl,
    of_packR (ma := 0) (mb := 0) (mc := 0) (md := 0) (mi := 255) rfl rfl (by simp) (by simp) (by simp) (by simp) (by simp)⟩
theorem rinf (a b c : XReg) : Statement (.rinf a b c) :=
  ⟨⟨"RINF", 0xFF000FFF, 0x6A000000⟩, by decide, rfl,
    of_packR (ma := 0) (mb := 0) (mc := 0) (md := 15) (mi := 255) rfl rfl (by simp) (by simp) (by simp) (by simp) (by simp)⟩
theorem rpfx (a b c d : XReg) : Statement (.rpfx a b c d) :=
  ⟨⟨"RPFX", 0xFF0000FF, 0x6B000000⟩, by decide, rfl,
    of_packR (ma := 0) (mb := 0) (mc := 0) (md := 0) (mi := 255) rfl rfl (by simp) (by simp) (by simp) (by simp) (by simp)⟩
theorem fcvt (a : MReg) (b : FReg) : Statement (.fcvt a b) :=
  ⟨⟨"FCVT", 0xFF00FFFF, 0x6C000000⟩, by decide, rfl,
    of_packR (ma := 0) (mb := 0) (mc := 15) (md := 15) (mi := 255) rfl rfl (by simp) (by simp) (by simp) (by simp) (by simp)⟩
theorem fdcnt (a : XReg) (b : FReg) : Statement (.fdcnt a b) :=
  ⟨⟨"FDCNT", 0xFF00FFFF, 0x6D000000⟩, by decide, rfl,
    of_packR (ma := 0) (mb := 0) (mc := 15) (md := 15) (mi := 255) rfl rfl (by simp) (by simp) (by simp) (by simp) (by simp)⟩

end Sys2Proof.Laws.TableRow
end

