-- ==== Sys2Proof/Laws/Words.lean ====
section
/-! SUPPORT. Laws/Words.lean: a word by the values of its fields is the packed word of those fields
(30_encoding.md R71). -/

namespace Sys2Proof.Machine

theorem toNat_append_add {m n : Nat} (x : BitVec m) (y : BitVec n) : (x ++ y).toNat = x.toNat * 2 ^ n + y.toNat := by
  rw [BitVec.toNat_append, ← Nat.shiftLeft_add_eq_or_of_lt y.isLt, Nat.shiftLeft_eq]

/-- Format N or R. -/
theorem wordR_eq_packR (op : Nat) (a b c d : BitVec 4) (imm8 : BitVec 8) :
    wordR op a b c d imm8 = packR (BitVec.ofNat 8 op) a b c d imm8 := by
  have ha := a.isLt
  have hb := b.isLt
  have hc := c.isLt
  have hd := d.isLt
  have hi := imm8.isLt
  apply BitVec.eq_of_toNat_eq
  rw [wordR, packR, BitVec.toNat_ofNat]
  refine Eq.trans ?_ (toNat_append_add (m := 24) (n := 8) _ _).symm
  rw [toNat_append_add (m := 20), toNat_append_add (m := 16), toNat_append_add (m := 12), toNat_append_add, BitVec.toNat_ofNat]
  omega

/-- Format B or I. -/
theorem wordI_eq_packI (op : Nat) (a b : BitVec 4) (imm16 : BitVec 16) :
    wordI op a b imm16 = packI (BitVec.ofNat 8 op) a b imm16 := by
  have ha := a.isLt
  have hb := b.isLt
  have hi := imm16.isLt
  apply BitVec.eq_of_toNat_eq
  rw [wordI, packI, BitVec.toNat_ofNat]
  refine Eq.trans ?_ (toNat_append_add (m := 16) (n := 16) _ _).symm
  rw [toNat_append_add (m := 12), toNat_append_add, BitVec.toNat_ofNat]
  omega

end Sys2Proof.Machine
end

