-- ==== Sys2Proof/Machine/Assembly.lean ====
section
/-! DEFINITION. Machine/Assembly.lean: the written form of a command (30_encoding.md R86, and the last column of R79).
It is a notation for reading; the command word is the ISA. -/

namespace Sys2Proof.Machine

/-- `x0` to `x15`. -/
def nameX (r : XReg) : String := "x" ++ toString r.toNat
/-- `m0` to `m15`. -/
def nameM (r : MReg) : String := "m" ++ toString r.toNat
/-- `e0` to `e15`. -/
def nameE (r : EReg) : String := "e" ++ toString r.toNat
/-- `f0` to `f15`. -/
def nameF (r : FReg) : String := "f" ++ toString r.toNat

/-- An unsigned immediate in decimal. -/
def unsignedText {n : Nat} (v : BitVec n) : String := toString v.toNat
/-- A signed immediate in decimal, with a leading `-` when negative. -/
def signedText {n : Nat} (v : BitVec n) : String := toString v.toInt

/-- The address form of LDB and STB, `simm(xb)`. -/
def addressText (b : XReg) (imm : BitVec 16) : String := signedText imm ++ "(" ++ nameX b ++ ")"

/-- The condition names (30_encoding.md R83). -/
def condName : Cond → String
  | .al => "AL"
  | .eq => "EQ"
  | .ne => "NE"
  | .lt => "LT"
  | .ge => "GE"
  | .gt => "GT"
  | .le => "LE"
  | .pe => "PE"
  | .npe => "NPE"

/-- The mnemonic, then the operands separated by commas. -/
def commandText (mnemonic : String) (operands : List String) : String :=
  if operands.isEmpty then mnemonic else mnemonic ++ " " ++ ", ".intercalate operands

/-- The written form of a command (30_encoding.md R86). -/
def asmText : Instr → String
  | .nop => commandText "NOP" []
  | .halt => commandText "HALT" []
  | .br cond off => commandText ("B" ++ condName cond) [signedText off]
  | .csrr a csr => commandText "CSRR" [nameX a, unsignedText (csrCode csr)]
  | .li a imm => commandText "LI" [nameX a, unsignedText imm]
  | .lih a imm => commandText "LIH" [nameX a, unsignedText imm]
  | .xaddi a b imm => commandText "XADDI" [nameX a, nameX b, signedText imm]
  | .xcmp b c => commandText "XCMP" [nameX b, nameX c]
  | .mov a b => commandText "MOV" [nameM a, nameM b]
  | .mfx a b => commandText "MFX" [nameM a, nameX b]
  | .len a b => commandText "LEN" [nameX a, nameM b]
  | .getd a b c => commandText "GETD" [nameX a, nameM b, nameX c]
  | .fmvx a b => commandText "FMVX" [nameF a, nameX b]
  | .ldb a b imm => commandText "LDB" [nameX a, addressText b imm]
  | .stb a b imm => commandText "STB" [nameX a, addressText b imm]
  | .digv a b => commandText "DIGV" [nameX a, nameX b]
  | .digvf a b => commandText "DIGVF" [nameX a, nameF b]
  | .emov a b c => commandText "EMOV" [nameE a, nameX b, nameX c]
  | .edl a b => commandText "EDL" [nameX a, nameE b]
  | .edm a b => commandText "EDM" [nameX a, nameE b]
  | .edh a b => commandText "EDH" [nameX a, nameE b]
  | .esz a b => commandText "ESZ" [nameX a, nameE b]
  | .emb a b => commandText "EMB" [nameE a, nameE b]
  | .emba a b c => commandText "EMBA" [nameE a, nameE b, nameX c]
  | .emuld a b c => commandText "EMULD" [nameE a, nameE b, nameX c]
  | .esub a b c => commandText "ESUB" [nameE a, nameE b, nameE c]
  | .eshr a b k => commandText "ESHR" [nameE a, nameE b, unsignedText k]
  | .ecmp b c => commandText "ECMP" [nameE b, nameE c]
  | .vlo a b => commandText "VLO" [nameX a, nameX b]
  | .vhi a b => commandText "VHI" [nameX a, nameX b]
  | .vsz a b => commandText "VSZ" [nameX a, nameX b]
  | .sodd a b => commandText "SODD" [nameX a, nameX b]
  | .sodb a b => commandText "SODB" [nameX a, nameX b]
  | .clz a b => commandText "CLZ" [nameX a, nameX b]
  | .cmp b c => commandText "CMP" [nameM b, nameM c]
  | .cmpx b c => commandText "CMPX" [nameM b, nameX c]
  | .cmpf b c => commandText "CMPF" [nameM b, nameF c]
  | .add a b c => commandText "ADD" [nameM a, nameM b, nameM c]
  | .addx a b c => commandText "ADDX" [nameM a, nameM b, nameX c]
  | .addf a b c => commandText "ADDF" [nameM a, nameM b, nameF c]
  | .sub a b c => commandText "SUB" [nameM a, nameM b, nameM c]
  | .mul a b c => commandText "MUL" [nameM a, nameM b, nameM c]
  | .mull a b c => commandText "MULL" [nameM a, nameM b, nameM c]
  | .div a b c d => commandText "DIV" [nameM a, nameM d, nameM b, nameM c]
  | .divl a b c d => commandText "DIVL" [nameM a, nameM d, nameM b, nameM c]
  | .quo a b c => commandText "QUO" [nameM a, nameM b, nameM c]
  | .rem a b c => commandText "REM" [nameM a, nameM b, nameM c]
  | .divx a b c d => commandText "DIVX" [nameM a, nameX d, nameM b, nameX c]
  | .shl a b c => commandText "SHL" [nameM a, nameM b, nameX c]
  | .shr a b c => commandText "SHR" [nameM a, nameM b, nameX c]
  | .shli a b imm => commandText "SHLI" [nameM a, nameM b, unsignedText imm]
  | .shri a b imm => commandText "SHRI" [nameM a, nameM b, unsignedText imm]
  | .parse a b c d => commandText "PARSE" [nameM a, nameX b, nameX c, nameX d]
  | .fmt a b c d => commandText "FMT" [nameX a, nameM b, nameX c, nameX d]
  | .rinf a b c => commandText "RINF" [nameX a, nameX b, nameX c]
  | .rpfx a b c d => commandText "RPFX" [nameX a, nameX b, nameX c, nameX d]
  | .fcvt a b => commandText "FCVT" [nameM a, nameF b]
  | .fdcnt a b => commandText "FDCNT" [nameX a, nameF b]

end Sys2Proof.Machine
end

