-- ==== Sys2Proof/Tests/Slice0.lean ====
section
/-! SUPPORT. Tests/Slice0.lean: the model's own tests. Words and expected results are the vectors V<n> of
spec/95_test_vectors.md, or written out from the rule named; the witnesses show states that meet the premises of the
obligations. -/

namespace Sys2Proof.Tests

open Sys2Proof.Machine

/-! ### Well-formedness: a command no word encodes, for each check (30_encoding.md R80 (5)) -/

theorem test_wellFormed_refuses_div : (Instr.div 3 1 2 3).wellFormed = false := by decide
theorem test_wellFormed_refuses_divl : (Instr.divl 3 1 2 3).wellFormed = false := by decide
theorem test_wellFormed_takes_divx : (Instr.divx 3 1 2 3).wellFormed = true := by decide

/-! ### Decoding: one word per command, from 30_encoding.md R78, R79 (most stand in spec/95_test_vectors.md) -/

theorem test_decode_nop : decodeTableWord 32 0x01000000 = some (.nop) := by decide
theorem test_decode_halt : decodeTableWord 32 0x02000000 = some (.halt) := by decide
theorem test_decode_br : decodeTableWord 32 0x0430FFFC = some (.br .lt (-4)) := by decide
theorem test_decode_csrr : decodeTableWord 32 0x05100018 = some (.csrr 1 .cfgId) := by decide
theorem test_decode_li : decodeTableWord 32 0x1010FFFF = some (.li 1 65535) := by decide
theorem test_decode_lih : decodeTableWord 32 0x1110ABCD = some (.lih 1 43981) := by decide
theorem test_decode_xaddi : decodeTableWord 32 0x1212FFFF = some (.xaddi 1 2 (-1)) := by decide
theorem test_decode_xcmp : decodeTableWord 32 0x13012000 = some (.xcmp 1 2) := by decide
theorem test_decode_mov : decodeTableWord 32 0x14120000 = some (.mov 1 2) := by decide
theorem test_decode_mfx : decodeTableWord 32 0x15120000 = some (.mfx 1 2) := by decide
theorem test_decode_len : decodeTableWord 32 0x16120000 = some (.len 1 2) := by decide
theorem test_decode_getd : decodeTableWord 32 0x17123000 = some (.getd 1 2 3) := by decide
theorem test_decode_fmvx : decodeTableWord 32 0x18120000 = some (.fmvx 1 2) := by decide
theorem test_decode_ldb : decodeTableWord 32 0x19120003 = some (.ldb 1 2 3) := by decide
theorem test_decode_stb : decodeTableWord 32 0x1A120001 = some (.stb 1 2 1) := by decide
theorem test_decode_digv : decodeTableWord 32 0x20120000 = some (.digv 1 2) := by decide
theorem test_decode_digvf : decodeTableWord 32 0x21120000 = some (.digvf 1 2) := by decide
theorem test_decode_emov : decodeTableWord 32 0x22123000 = some (.emov 1 2 3) := by decide
theorem test_decode_edl : decodeTableWord 32 0x23120000 = some (.edl 1 2) := by decide
theorem test_decode_edm : decodeTableWord 32 0x24120000 = some (.edm 1 2) := by decide
theorem test_decode_edh : decodeTableWord 32 0x25120000 = some (.edh 1 2) := by decide
theorem test_decode_esz : decodeTableWord 32 0x26120000 = some (.esz 1 2) := by decide
theorem test_decode_emb : decodeTableWord 32 0x27110000 = some (.emb 1 1) := by decide
theorem test_decode_emba : decodeTableWord 32 0x28123000 = some (.emba 1 2 3) := by decide
theorem test_decode_emuld : decodeTableWord 32 0x29123000 = some (.emuld 1 2 3) := by decide
theorem test_decode_esub : decodeTableWord 32 0x2A123000 = some (.esub 1 2 3) := by decide
theorem test_decode_eshr : decodeTableWord 32 0x2B120004 = some (.eshr 1 2 4) := by decide
theorem test_decode_ecmp : decodeTableWord 32 0x2C012000 = some (.ecmp 1 2) := by decide
theorem test_decode_vlo : decodeTableWord 32 0x30120000 = some (.vlo 1 2) := by decide
theorem test_decode_vhi : decodeTableWord 32 0x31120000 = some (.vhi 1 2) := by decide
theorem test_decode_vsz : decodeTableWord 32 0x32120000 = some (.vsz 1 2) := by decide
theorem test_decode_sodd : decodeTableWord 32 0x34120000 = some (.sodd 1 2) := by decide
theorem test_decode_sodb : decodeTableWord 32 0x35120000 = some (.sodb 1 2) := by decide
theorem test_decode_clz : decodeTableWord 32 0x36120000 = some (.clz 1 2) := by decide
theorem test_decode_cmp : decodeTableWord 32 0x40012000 = some (.cmp 1 2) := by decide
theorem test_decode_cmpx : decodeTableWord 32 0x41012000 = some (.cmpx 1 2) := by decide
theorem test_decode_cmpf : decodeTableWord 32 0x42012000 = some (.cmpf 1 2) := by decide
theorem test_decode_add : decodeTableWord 32 0x48123000 = some (.add 1 2 3) := by decide
theorem test_decode_addx : decodeTableWord 32 0x49123000 = some (.addx 1 2 3) := by decide
theorem test_decode_addf : decodeTableWord 32 0x4A123000 = some (.addf 1 2 3) := by decide
theorem test_decode_sub : decodeTableWord 32 0x4B123000 = some (.sub 1 2 3) := by decide
theorem test_decode_mul : decodeTableWord 32 0x50123000 = some (.mul 1 2 3) := by decide
theorem test_decode_mull : decodeTableWord 32 0x51123000 = some (.mull 1 2 3) := by decide
theorem test_decode_div : decodeTableWord 32 0x58134200 = some (.div 1 3 4 2) := by decide
theorem test_decode_divl : decodeTableWord 32 0x59134200 = some (.divl 1 3 4 2) := by decide
theorem test_decode_quo : decodeTableWord 32 0x5A123000 = some (.quo 1 2 3) := by decide
theorem test_decode_rem : decodeTableWord 32 0x5B123000 = some (.rem 1 2 3) := by decide
theorem test_decode_divx : decodeTableWord 32 0x5C134200 = some (.divx 1 3 4 2) := by decide
theorem test_decode_shl : decodeTableWord 32 0x60123000 = some (.shl 1 2 3) := by decide
theorem test_decode_shr : decodeTableWord 32 0x61123000 = some (.shr 1 2 3) := by decide
theorem test_decode_shli : decodeTableWord 32 0x62120021 = some (.shli 1 2 33) := by decide
theorem test_decode_shri : decodeTableWord 32 0x63120001 = some (.shri 1 2 1) := by decide
theorem test_decode_parse : decodeTableWord 32 0x68123400 = some (.parse 1 2 3 4) := by decide
theorem test_decode_fmt : decodeTableWord 32 0x69123400 = some (.fmt 1 2 3 4) := by decide
theorem test_decode_rinf : decodeTableWord 32 0x6A123000 = some (.rinf 1 2 3) := by decide
theorem test_decode_rpfx : decodeTableWord 32 0x6B123400 = some (.rpfx 1 2 3 4) := by decide
theorem test_decode_fcvt : decodeTableWord 32 0x6C120000 = some (.fcvt 1 2) := by decide
theorem test_decode_fdcnt : decodeTableWord 32 0x6D120000 = some (.fdcnt 1 2) := by decide

/-! ### Rejected words, by the case of 30_encoding.md R80 -/

theorem test_decode_unassigned : decode 0x00000000 = .error .unassignedOpcode ∧ decode 0x6E000000 = .error .unassignedOpcode := by
  decide
theorem test_decode_nonzero_field : decode 0x01000001 = .error .nonzeroField ∧ decode 0x04010000 = .error .nonzeroField := by
  decide
theorem test_decode_reserved_cond : decode 0x04900000 = .error .reservedCond := by decide
theorem test_decode_unassigned_csr : decode 0x05100019 = .error .unassignedCsr ∧ decode 0x05100005 = .error .unassignedCsr := by
  decide
theorem test_decode_same_destination : decode 0x58134100 = .error .sameDestination ∧
    decode 0x59134100 = .error .sameDestination := by decide

/-! ### One step of each command -/

/-- The step of the machine at a word: the word in IMEM at the pc and the core started there. -/
def at0 (s : State) (w : Nat) : Host.Outcome State Fault Refusal := step (s.withFetchWord 32 w)

/-- A part of the next state. -/
def got {α : Type} (o : Host.Outcome State Fault Refusal) (f : State → α) : Option α :=
  match o with
  | .next t => some (f t)
  | .fault _ => none
  | .refused _ => none

/-- The fault record, STATE and pc. -/
def record (t : State) : RunState × Nat × Nat × Nat := (t.runState, t.faultCause.toNat, t.faultInfo.toNat, t.pc.toNat)

/-- Text bytes from their ASCII codes. -/
def text (s : State) (addr : Nat) (codes : List Nat) : State := setBytes s addr (codes.map (BitVec.ofNat 8))

/-- `DIGV x1, x2` (V1). -/
theorem test_digv_V1 :
    got (at0 (setX State.reset 2 0x123456789) 0x20120000) (fun t => (getX t 1, t.pc)) =
      some (some 0x23456789, 1) := by decide
/-- `DIGV x1, x9` (V70). -/
theorem test_digv_V70 :
    got (at0 State.reset 0x20190000) record = some (.faulted, 2, 0x9, 0) := by decide
/-- `DIGVF x1, f2` (V3). -/
theorem test_digvf_V3 :
    got (at0 (setF State.reset 2 0x4270000000005C00) 0x21120000) (fun t => (getX t 1, t.pc)) =
      some (some 0x5, 1) := by decide
/-- `DIGVF x1, f2` (V8). -/
theorem test_digvf_V8 :
    got (at0 (setF State.reset 2 0xBFF0000000000000) 0x21120000) record = some (.faulted, 3, 0x6, 0) := by decide
/-- `EMOV e1, x2, x3` (V11). -/
theorem test_emov_V11 :
    got (at0 (setX (setX State.reset 2 0x5) 3 0x7) 0x22123000) (fun t => (getE t 1, t.pc)) =
      some (some 0x700000005, 1) := by decide
/-- `EMOV e1, x2, x3` (V12). -/
theorem test_emov_V12 :
    got (at0 (setX (setX State.reset 2 0x100000000) 3 0x7) 0x22123000) record = some (.faulted, 3, 0x1, 0) := by decide
/-- `EDL x1, e2` (V14). -/
theorem test_edl_V14 :
    got (at0 (setE State.reset 2 0x30000000200000001) 0x23120000) (fun t => (getX t 1, t.pc)) =
      some (some 0x1, 1) := by decide
/-- `EDM x1, e2` (V15). -/
theorem test_edm_V15 :
    got (at0 (setE State.reset 2 0x30000000200000001) 0x24120000) (fun t => (getX t 1, t.pc)) =
      some (some 0x2, 1) := by decide
/-- `EDH x1, e2` (V16). -/
theorem test_edh_V16 :
    got (at0 (setE State.reset 2 0x30000000200000001) 0x25120000) (fun t => (getX t 1, t.pc)) =
      some (some 0x3, 1) := by decide
/-- `ESZ x1, e2` (V19). -/
theorem test_esz_V19 :
    got (at0 (setE State.reset 2 0x100000000) 0x26120000) (fun t => (getX t 1, t.pc)) =
      some (some 0x2, 1) := by decide
/-- `ESZ x1, e2` (V20). -/
theorem test_esz_V20 :
    got (at0 (setE State.reset 2 0x10000000000000000) 0x26120000) (fun t => (getX t 1, t.pc)) =
      some (some 0x3, 1) := by decide
/-- `EMB e1, e1` (V22). -/
theorem test_emb_V22 :
    got (at0 (setE State.reset 1 0x100000002) 0x27110000) (fun t => (getE t 1, t.pc)) =
      some (some 0x10000000200000000, 1) := by decide
/-- `EMB e1, e2` (V24). -/
theorem test_emb_V24 :
    got (at0 (setE State.reset 2 0x10000000000000000) 0x27120000) record = some (.faulted, 3, 0x2, 0) := by decide
/-- `EMBA e1, e2, x3` (V26). -/
theorem test_emba_V26 :
    got (at0 (setX (setE State.reset 2 0x3) 3 0x9) 0x28123000) (fun t => (getE t 1, t.pc)) =
      some (some 0x300000009, 1) := by decide
/-- `EMBA e1, e2, x3` (V28). -/
theorem test_emba_V28 :
    got (at0 (setX (setE State.reset 2 0x3) 3 0x100000000) 0x28123000) record = some (.faulted, 3, 0x1, 0) := by decide
/-- `EMULD e1, e2, x3` (V29). -/
theorem test_emuld_V29 :
    got (at0 (setX (setE State.reset 2 0xFFFFFFFF) 3 0xFFFFFFFF) 0x29123000) (fun t => (getE t 1, t.pc)) =
      some (some 0xFFFFFFFE00000001, 1) := by decide
/-- `EMULD e1, e2, x3` (V31). -/
theorem test_emuld_V31 :
    got (at0 (setX (setE State.reset 2 0xFFFFFFFFFFFFFFFFFFFFFFFF) 3 0x2) 0x29123000) record = some (.faulted, 3, 0x2, 0) := by decide
/-- `ESUB e1, e2, e3` (V32). -/
theorem test_esub_V32 :
    got (at0 (setE (setE State.reset 2 0x10000000000000000) 3 0x1) 0x2A123000) (fun t => (getE t 1, t.pc)) =
      some (some 0xFFFFFFFFFFFFFFFF, 1) := by decide
/-- `ESUB e1, e2, e3` (V34). -/
theorem test_esub_V34 :
    got (at0 (setE (setE State.reset 2 0x1) 3 0x2) 0x2A123000) record = some (.faulted, 3, 0x3, 0) := by decide
/-- `ESHR e1, e2, 31` (V36). -/
theorem test_eshr_V36 :
    got (at0 (setE State.reset 2 0xFFFFFFFFFFFFFFFFFFFFFFFF) 0x2B12001F) (fun t => (getE t 1, t.pc)) =
      some (some 0x1FFFFFFFFFFFFFFFF, 1) := by decide
/-- `ESHR e1, e2, 32` (V37). -/
theorem test_eshr_V37 :
    got (at0 (setE State.reset 2 0x1) 0x2B120020) record = some (.faulted, 3, 0x4, 0) := by decide
/-- `ECMP e1, e2` (V40). -/
theorem test_ecmp_V40 :
    got (at0 (setSgn (setE (setE State.reset 1 0x6) 2 0x7) .positive) 0x2C012000) (fun t => (t.sgn, t.pc)) =
      some (.negative, 1) := by decide
/-- `ECMP e1, e2` (V41). -/
theorem test_ecmp_V41 :
    got (at0 (setE State.reset 2 0x7) 0x2C012000) record = some (.faulted, 2, 0x21, 0) := by decide
/-- `VLO x1, x2` (V42). -/
theorem test_vlo_V42 :
    got (at0 (setX State.reset 2 0x1FFFFFFFF) 0x30120000) (fun t => (getX t 1, t.pc)) =
      some (some 0xFFFFFFFF, 1) := by decide
/-- `VHI x1, x2` (V43). -/
theorem test_vhi_V43 :
    got (at0 (setX State.reset 2 0x1FFFFFFFF) 0x31120000) (fun t => (getX t 1, t.pc)) =
      some (some 0x1, 1) := by decide
/-- `VSZ x1, x2` (V44). -/
theorem test_vsz_V44 :
    got (at0 (setX State.reset 2 0x1FFFFFFFF) 0x32120000) (fun t => (getX t 1, t.pc)) =
      some (some 0x2, 1) := by decide
/-- `SODD x1, x2` (V54). -/
theorem test_sodd_V54 :
    got (at0 (setX State.reset 2 0x64) 0x34120000) (fun t => (getX t 1, t.pc)) =
      some (some 0x3, 1) := by decide
/-- `SODB x1, x2` (V55). -/
theorem test_sodb_V55 :
    got (at0 (setX State.reset 2 0x64) 0x35120000) (fun t => (getX t 1, t.pc)) =
      some (some 0x4, 1) := by decide
/-- `CLZ x1, x2` (V66). -/
theorem test_clz_V66 :
    got (at0 (setX State.reset 2 0x10000) 0x36120000) (fun t => (getX t 1, t.pc)) =
      some (some 0xF, 1) := by decide
/-- `CLZ x1, x2` (V68). -/
theorem test_clz_V68 :
    got (at0 (setX State.reset 2 0x0) 0x36120000) record = some (.faulted, 3, 0x5, 0) := by decide
/-- `CMP m1, m2` (V72). -/
theorem test_cmp_V72 :
    got (at0 (setM (setM State.reset 1 [5,1]) 2 [6,1]) 0x40012000) (fun t => (t.sgn, t.pc)) =
      some (.negative, 1) := by decide
/-- `CMP m1, m2` (V74). -/
theorem test_cmp_V74 :
    got (at0 (setM (setM State.reset 1 [0]) 2 [1]) 0x40012000) (fun t => (t.sgn, t.pc)) =
      some (.negative, 1) := by decide
/-- `CMPX m1, x2` (V76). -/
theorem test_cmpx_V76 :
    got (at0 (setX (setM State.reset 1 [4,1]) 2 0x100000005) 0x41012000) (fun t => (t.sgn, t.pc)) =
      some (.negative, 1) := by decide
/-- `CMPX m1, x2` (V77). -/
theorem test_cmpx_V77 :
    got (at0 (setX (setM State.reset 1 [0,0,1]) 2 0xFFFFFFFFFFFFFFFF) 0x41012000) (fun t => (t.sgn, t.pc)) =
      some (.positive, 1) := by decide
/-- `CMPF m1, f2` (V80). -/
theorem test_cmpf_V80 :
    got (at0 (setF (setM State.reset 1 [2]) 2 0x4004000000000000) 0x42012000) (fun t => (t.sgn, t.pc)) =
      some (.zero, 1) := by decide
/-- `CMPF m1, f2` (V84). -/
theorem test_cmpf_V84 :
    got (at0 (setF (setM State.reset 1 [1]) 2 0x7FF8000000000000) 0x42012000) record = some (.faulted, 3, 0x6, 0) := by decide
/-- `ADD m1, m2, m3` (V90). -/
theorem test_add_V90 :
    got (at0 (setM (setM State.reset 2 [4294967295,7]) 3 [1,4294967295]) 0x48123000) (fun t => (getM t 1, t.pc)) =
      some (some [0,7,1], 1) := by decide
/-- `ADD m1, m2, m3` (V91). -/
theorem test_add_V91 :
    got (at0 (setM (setM (State.resetWith { Config.Params.default with maxLen := some 2 } 0) 2 [4294967295,4294967295]) 3 [1]) 0x48123000) record = some (.faulted, 5, 0x3, 0) := by decide
/-- `ADDX m1, m2, x3` (V93). -/
theorem test_addx_V93 :
    got (at0 (setX (setM State.reset 2 [5]) 3 0xFFFFFFFFFFFFFFFF) 0x49123000) (fun t => (getM t 1, t.pc)) =
      some (some [4,0,1], 1) := by decide
/-- `ADDF m1, m2, f3` (V96). -/
theorem test_addf_V96 :
    got (at0 (setF (setM State.reset 2 [1]) 3 0x41F0000000080000) 0x4A123000) (fun t => (getM t 1, t.pc)) =
      some (some [1,1], 1) := by decide
/-- `ADDF m1, m2, f3` (V99). -/
theorem test_addf_V99 :
    got (at0 (setF (setM State.reset 2 [1]) 3 0xBFF0000000000000) 0x4A123000) record = some (.faulted, 3, 0x6, 0) := by decide
/-- `SUB m1, m2, m3` (V100). -/
theorem test_sub_V100 :
    got (at0 (setM (setM State.reset 2 [0,1]) 3 [1]) 0x4B123000) (fun t => (getM t 1, t.sgn, t.pc)) =
      some (some [4294967295], .positive, 1) := by decide
/-- `SUB m1, m2, m3` (V101). -/
theorem test_sub_V101 :
    got (at0 (setM (setM State.reset 2 [1]) 3 [0,1]) 0x4B123000) (fun t => (getM t 1, t.sgn, t.pc)) =
      some (some [4294967295], .negative, 1) := by decide
/-- `MUL m1, m2, m3` (V114). -/
theorem test_mul_V114 :
    got (at0 (setM (setM (State.resetWith { Config.Params.default with maxLen := some 2 } 0) 2 [0,1]) 3 [0,1]) 0x50123000) record = some (.faulted, 5, 0x3, 0) := by decide
/-- `MUL m1, m2, m3` (V119). -/
theorem test_mul_V119 :
    got (at0 (setM (setM (State.resetWith { Config.Params.default with karatsubaThreshold := 2 } 0) 2 [4294967295,4294967295,4294967295]) 3 [2,0,1]) 0x50123000) (fun t => (getM t 1, t.pc)) =
      some (some [4294967294,4294967295,4294967294,1,0,1], 1) := by decide
/-- `MULL m1, m2, m3` (V108). -/
theorem test_mull_V108 :
    got (at0 (setM (setM State.reset 2 [4294967295]) 3 [4294967295]) 0x51123000) (fun t => (getM t 1, t.pc)) =
      some (some [1,4294967294], 1) := by decide
/-- `DIV m1, m2, m3, m4` (V127). -/
theorem test_div_V127 :
    got (at0 (setM (setM State.reset 3 [0,0,2147483648]) 4 [1,2147483648]) 0x58134200) (fun t => (getM t 1, getM t 2, t.pc)) =
      some (some [4294967295], some [1,2147483647], 1) := by decide
/-- `DIV m1, m2, m3, m4` (V125). -/
theorem test_div_V125 :
    got (at0 (setM (setM State.reset 3 [5,6]) 4 [0]) 0x58134200) record = some (.faulted, 4, 0x0, 0) := by decide
/-- `DIVL m1, m2, m3, m4` (V121). -/
theorem test_divl_V121 :
    got (at0 (setM (setM State.reset 3 [0,0,1]) 4 [3]) 0x59134200) (fun t => (getM t 1, getM t 2, t.pc)) =
      some (some [1431655765,1431655765], some [1], 1) := by decide
/-- `QUO m1, m2, m3` (V129). -/
theorem test_quo_V129 :
    got (at0 (setM (setM State.reset 2 [0,0,1]) 3 [3]) 0x5A123000) (fun t => (getM t 1, t.pc)) =
      some (some [1431655765,1431655765], 1) := by decide
/-- `REM m1, m2, m3` (V130). -/
theorem test_rem_V130 :
    got (at0 (setM (setM State.reset 2 [0,0,1]) 3 [3]) 0x5B123000) (fun t => (getM t 1, t.pc)) =
      some (some [1], 1) := by decide
/-- `REM m1, m2, m3` (V131). -/
theorem test_rem_V131 :
    got (at0 (setM (setM State.reset 2 [0,0,1]) 3 [0]) 0x5B123000) record = some (.faulted, 4, 0x0, 0) := by decide
/-- `DIVX m1, x2, m3, x4` (V132). -/
theorem test_divx_V132 :
    got (at0 (setX (setM State.reset 3 [0,0,1]) 4 0x100000001) 0x5C134200) (fun t => (getX t 2, getM t 1, t.pc)) =
      some (some 0x1, some [4294967295], 1) := by decide
/-- `DIVX m1, x2, m3, x4` (V134). -/
theorem test_divx_V134 :
    got (at0 (setX (setM State.reset 3 [5]) 4 0x0) 0x5C134200) record = some (.faulted, 4, 0x0, 0) := by decide
/-- `SHL m1, m2, x3` (V138). -/
theorem test_shl_V138 :
    got (at0 (setX (setM State.reset 2 [2147483648]) 3 0x1) 0x60123000) (fun t => (getM t 1, t.pc)) =
      some (some [0,1], 1) := by decide
/-- `SHL m1, m2, x3` (V144). -/
theorem test_shl_V144 :
    got (at0 (setX (setM State.reset 2 [1]) 3 0xFFFFFFFFFFFFFFFF) 0x60123000) record = some (.faulted, 5, 0x800000000000000, 0) := by decide
/-- `SHR m1, m2, x3` (V146). -/
theorem test_shr_V146 :
    got (at0 (setX (setM State.reset 2 [4294967295,1]) 3 0x1) 0x61123000) (fun t => (getM t 1, t.pc)) =
      some (some [4294967295], 1) := by decide
/-- `SHLI m1, m2, 33` (V139). -/
theorem test_shli_V139 :
    got (at0 (setM State.reset 2 [1]) 0x62120021) (fun t => (getM t 1, t.pc)) =
      some (some [0,2], 1) := by decide
/-- `SHRI m1, m2, 36` (V149). -/
theorem test_shri_V149 :
    got (at0 (setM State.reset 2 [0,48]) 0x63120024) (fun t => (getM t 1, t.pc)) =
      some (some [3], 1) := by decide
/-- `PARSE m1, x2, x3, x4` (V150). -/
theorem test_parse_V150 :
    got (at0 (setX (setX (setX (text State.reset 0 [66,74,108,103,76,83]) 2 0x0) 3 0x6) 4 0x40) 0x68123400) (fun t => (getM t 1, t.pc)) =
      some (some [1234567890], 1) := by decide
/-- `PARSE m1, x2, x3, x4` (V163). -/
theorem test_parse_V163 :
    got (at0 (setX (setX (setX State.reset 2 0xFFA) 3 0xA) 4 0xA) 0x68123400) record = some (.faulted, 6, 0x1000, 0) := by decide
/-- `FMT x1, m2, x3, x4` (V166). -/
theorem test_fmt_V166 :
    got (at0 (setX (setX (setM State.reset 2 [57005]) 3 0x0) 4 0x10) 0x69123400) (fun t => (getX t 1, (tmemBytes t 0 4).map BitVec.toNat, t.pc)) =
      some (some 0x4, [100,101,97,100], 1) := by decide
/-- `FMT x1, m2, x3, x4` (V173). -/
theorem test_fmt_V173 :
    got (at0 (setX (setX (setM State.reset 2 [57005]) 3 0xFFE) 4 0x10) 0x69123400) record = some (.faulted, 6, 0x1000, 0) := by decide
/-- `RINF x1, x2, x3` (V174). -/
theorem test_rinf_V174 :
    got (at0 (setX (setX (text State.reset 0 [48,120,100,101,97,100]) 2 0x0) 3 0x6) 0x6A123000) (fun t => (getX t 1, t.pc)) =
      some (some 0x10, 1) := by decide
/-- `RINF x1, x2, x3` (V188). -/
theorem test_rinf_V188 :
    got (at0 (setX (setX State.reset 2 0xFFF) 3 0x5) 0x6A123000) record = some (.faulted, 6, 0x1000, 0) := by decide
/-- `RPFX x1, x2, x3, x4` (V181). -/
theorem test_rpfx_V181 :
    got (at0 (setX (setX (setX (text State.reset 0 [48,120,100,101,97,100]) 2 0x0) 3 0x6) 4 0x10) 0x6B123400) (fun t => (getX t 1, t.pc)) =
      some (some 0x2, 1) := by decide
/-- `RPFX x1, x2, x3, x4` (V185). -/
theorem test_rpfx_V185 :
    got (at0 (setX (setX (setX (text State.reset 0 [48,98,49]) 2 0x0) 3 0x3) 4 0x10) 0x6B123400) (fun t => (getX t 1, t.pc)) =
      some (some 0x0, 1) := by decide
/-- `FCVT m1, f2` (V189). -/
theorem test_fcvt_V189 :
    got (at0 (setF State.reset 2 0x41D26580B4B00000) 0x6C120000) (fun t => (getM t 1, t.pc)) =
      some (some [1234567890], 1) := by decide
/-- `FCVT m1, f2` (V195). -/
theorem test_fcvt_V195 :
    got (at0 (setF State.reset 2 0xFFF0000000000000) 0x6C120000) record = some (.faulted, 3, 0x6, 0) := by decide
/-- `FDCNT x1, f2` (V202). -/
theorem test_fdcnt_V202 :
    got (at0 (setF State.reset 2 0x41F0000000000000) 0x6D120000) (fun t => (getX t 1, t.pc)) =
      some (some 0x1, 1) := by decide
/-- `FDCNT x1, f2` (V203). -/
theorem test_fdcnt_V203 :
    got (at0 (setF State.reset 2 0x41F0000000100000) 0x6D120000) (fun t => (getX t 1, t.pc)) =
      some (some 0x2, 1) := by decide
/-- `NOP` (V216). -/
theorem test_nop_V216 :
    got (at0 State.reset 0x01000000) (fun t => (t.pc)) =
      some (1) := by decide
/-- `HALT` (V218). -/
theorem test_halt_V218 :
    got (at0 State.reset 0x02000000) (fun t => (t.runState, t.pc)) =
      some (.idle, 1) := by decide
/-- `BLT -4` (V219). -/
theorem test_blt_V219 :
    got (at0 (setSgn (setPc State.reset 10) .negative) 0x0430FFFC) (fun t => (t.pc)) =
      some (6) := by decide
/-- `BNPE 2` (V223). -/
theorem test_bnpe_V223 :
    got (at0 (setPerr State.reset .empty) 0x04800002) (fun t => (t.pc)) =
      some (1) := by decide
/-- `CSRR x1, 0x001` (V230). -/
theorem test_csrr_V230 :
    got (at0 (setPerr (setSgn State.reset .negative) .badChar) 0x05100001) (fun t => (getX t 1, t.pc)) =
      some (some 0xB, 1) := by decide
/-- `CSRR x1, 0x000` (V231). -/
theorem test_csrr_V231 :
    got (at0 State.reset 0x05100000) (fun t => (getX t 1, t.pc)) =
      some (some 0x1, 1) := by decide
/-- `LI x1, 0xFFFF` (V233). -/
theorem test_li_V233 :
    got (at0 State.reset 0x1010FFFF) (fun t => (getX t 1, t.pc)) =
      some (some 0xFFFF, 1) := by decide
/-- `LIH x1, 0xABCD` (V234). -/
theorem test_lih_V234 :
    got (at0 (setX State.reset 1 0x1234) 0x1110ABCD) (fun t => (getX t 1, t.pc)) =
      some (some 0x1234ABCD, 1) := by decide
/-- `XADDI x1, x2, -1` (V235). -/
theorem test_xaddi_V235 :
    got (at0 (setX State.reset 2 0x0) 0x1212FFFF) (fun t => (getX t 1, t.pc)) =
      some (some 0xFFFFFFFFFFFFFFFF, 1) := by decide
/-- `XCMP x1, x2` (V237). -/
theorem test_xcmp_V237 :
    got (at0 (setX (setX State.reset 1 0x3) 2 0x5) 0x13012000) (fun t => (t.sgn, t.pc)) =
      some (.negative, 1) := by decide
/-- `MOV m1, m2` (V239). -/
theorem test_mov_V239 :
    got (at0 (setM State.reset 2 [4,5]) 0x14120000) (fun t => (getM t 1, t.pc)) =
      some (some [4,5], 1) := by decide
/-- `MFX m1, x2` (V240). -/
theorem test_mfx_V240 :
    got (at0 (setX State.reset 2 0x100000002) 0x15120000) (fun t => (getM t 1, t.pc)) =
      some (some [2,1], 1) := by decide
/-- `LEN x1, m2` (V242). -/
theorem test_len_V242 :
    got (at0 (setM State.reset 2 [4,5,6]) 0x16120000) (fun t => (getX t 1, t.pc)) =
      some (some 0x3, 1) := by decide
/-- `GETD x1, m2, x3` (V243). -/
theorem test_getd_V243 :
    got (at0 (setX (setM State.reset 2 [4,5,6]) 3 0x2) 0x17123000) (fun t => (getX t 1, t.pc)) =
      some (some 0x6, 1) := by decide
/-- `GETD x1, m2, x3` (V244). -/
theorem test_getd_V244 :
    got (at0 (setX (setM State.reset 2 [4,5,6]) 3 0x3) 0x17123000) (fun t => (getX t 1, t.pc)) =
      some (some 0x0, 1) := by decide
/-- `FMVX f1, x2` (V245). -/
theorem test_fmvx_V245 :
    got (at0 (setX State.reset 2 0x3FF0000000000000) 0x18120000) (fun t => (getF t 1, t.pc)) =
      some (some 0x3FF0000000000000, 1) := by decide
/-- `LDB x1, 3(x2)` (V246). -/
theorem test_ldb_V246 :
    got (at0 (setX (text State.reset 0 [97,98,99,100,101,102]) 2 0x1) 0x19120003) (fun t => (getX t 1, t.pc)) =
      some (some 0x65, 1) := by decide
/-- `LDB x1, -1(x2)` (V247). -/
theorem test_ldb_V247 :
    got (at0 (setX State.reset 2 0x0) 0x1912FFFF) record = some (.faulted, 6, 0xFFFFFFFFFFFFFFFF, 0) := by decide
/-- `STB x1, 1(x2)` (V249). -/
theorem test_stb_V249 :
    got (at0 (setX (setX State.reset 1 0x141) 2 0x0) 0x1A120001) (fun t => ((tmemBytes t 1 1).map BitVec.toNat, t.pc)) =
      some ([65], 1) := by decide
/-- `STB x1, 0(x2)` (V250). -/
theorem test_stb_V250 :
    got (at0 (setX State.reset 2 0x0) 0x1A120000) record = some (.faulted, 2, 0x1, 0) := by decide
/-- `(word)` (V217). -/
theorem test_word_V217 :
    got (at0 State.reset 0x01000001) record = some (.faulted, 1, 0x1000001, 0) := by decide

/-! ### The step outside IMEM, and the host port -/

/-- Fetch past the last word (V253: IMEM_WORDS = 1024, pc 1024). -/
theorem test_step_pcrange :
    got (step (setRunState (setPc State.reset 1024) .running)) record = some (.faulted, 7, 1024, 1024) := by decide

/-- The host restarts after a fault and the record survives (60_exceptions.md R288, R301). -/
theorem test_host_start_after_fault :
    (hostMove (.start 5) (takeFault State.reset .divZero)).1.faultCause = 4 ∧
    (hostMove (.start 5) (takeFault State.reset .divZero)).1.runState = .running := by decide

/-- A magnitude with a redundant top zero is refused, and so is B^3 in an accumulator (60_exceptions.md R298). -/
theorem test_host_write_reg_refused :
    (hostMove (.writeReg 1 (.m [5, 0])) State.reset).2 = .refused ∧
    (hostMove (.writeReg 1 (.e (2 ^ 96))) State.reset).2 = .refused ∧
    (hostMove (.writeReg 1 (.e (2 ^ 96 - 1))) State.reset).2 = .done := by decide

/-- While RUNNING the host may poll STATUS, and nothing else but reset (60_exceptions.md R302). -/
theorem test_host_while_running :
    (hostMove (.readCsr 0) (setRunState State.reset .running)).2 = .csr 1 ∧
    (hostMove (.readTmem 0) (setRunState State.reset .running)).2 = .refused := by decide

/-- The host reads the true STATE of a faulted core (2), and CFG_ID (10_state.md R31, R39, 60_exceptions.md R300). -/
theorem test_host_read_csr :
    (hostMove (.readCsr 0) (takeFault State.reset .divZero)).2 = .csr 2 ∧
    (hostMove (.readCsr 0x18) State.reset).2 = .csr 0x7A570001 := by decide

/-- `LI64 x1, 0x0123456789ABCDEF` (30_encoding.md R87). -/
theorem test_li64 :
    got (execAll (pseudoLi64 1 0x0123456789ABCDEF) State.reset) (fun t => (getX t 1, t.pc)) =
      some (some 0x0123456789ABCDEF, 4) := by decide

/-- A word that no row matches, and one that matches a row but fails its extra condition (30_encoding.md R84). -/
theorem test_table_rejects :
    (opcodeRows.any fun row => row.matches 0x01000001) = false ∧
    (opcodeRows.any fun row => row.matches 0x58134100) = true ∧ extraConditions 0x58134100 = false := by decide

/-- [0] in radix 64 is character 0 of the alphabet, 'A', and in radix 36 '0' (by hand from the pseudocode of 46_radix.md
R233 and from R231; log entry 13). -/
theorem test_format_zero : formatMag 32 32 [0] 64 = .ok [0x41] ∧ formatMag 32 32 [0] 36 = .ok [0x30] := by decide

/-! ### Written forms (30_encoding.md R86) -/

theorem test_asm_branch : asmText (.br .lt (-4)) = "BLT -4" := by decide
theorem test_asm_store : asmText (.stb 1 2 (-8)) = "STB x1, -8(x2)" := by decide
theorem test_asm_div : asmText (.div 3 1 2 4) = "DIV m3, m4, m1, m2" := by decide
/-- V1's word as bytes, little-endian (20_memory.md R53). -/
theorem test_word_bytes : wordBytes 0x20120000 = [0x00, 0x00, 0x12, 0x20] ∧ wordOfBytes 0x00 0x00 0x12 0x20 = 0x20120000 := by
  decide

/-! ### Witnesses: states that meet the premises of the obligations -/

/-- Legal parameters with W = 32 and B = 2^32, the core running, and values in some registers of every file. -/
def demoX (s : State) : State :=
  setX (setX (setX (setX (setX (setX (setX (setX s 1 5) 2 0x100000000) 3 0) 4 10) 5 4095) 6 0xFFFFFFFFFFFFFFFF) 7 65) 8 0xFFFFFFFF

/-- See `demoX`. -/
def demoM (s : State) : State := setM (setM (setM s 1 [5]) 2 [0, 1]) 3 [0]

/-- See `demoX`. -/
def demoE (s : State) : State := setE (setE (setE s 1 7) 2 (2 ^ 96 - 1)) 3 (2 ^ 64)

/-- See `demoX`: 2.75, NaN, −1.0, −0.0. -/
def demoF (s : State) : State :=
  setF (setF (setF (setF s 1 0x4006000000000000) 2 0x7FF8000000000000) 3 0xBFF0000000000000) 4 0x8000000000000000

/-- The witness state: TMEM[0..2] is "12a", TMEM[3..4] is "0x". -/
def demo : State :=
  setRunState (setBytes (demoF (demoE (demoM (demoX State.reset)))) 0 [0x31, 0x32, 0x61, 0x30, 0x78]) .running

/-- The witness state with a command word at pc 0. -/
def demoAt (w : Word) : State := setImem demo 0 w

theorem canonical_demo : canonical Config.Params.default.base [5] = true ∧
    canonical Config.Params.default.base [0, 1] = true ∧ canonical Config.Params.default.base [0] = true := by decide

theorem witness_InvReset : Inv State.reset ∧ RecordOk State.reset :=
  ⟨inv_resetWith default_legal 0, ⟨by decide, by decide, by decide⟩⟩

theorem demo_inv : Inv demo := by
  have h1 : Inv (demoX State.reset) := by
    unfold demoX
    exact (((((((witness_InvReset.1.setX _ _).setX _ _).setX _ _).setX _ _).setX _ _).setX _ _).setX _ _).setX _ _
  have h2 : Inv (demoM (demoX State.reset)) := by
    refine Inv.setM (Inv.setM (Inv.setM h1 _ ?_ ?_) _ ?_ ?_) _ ?_ ?_ <;> decide
  have h3 : Inv (demoE (demoM (demoX State.reset))) := by
    refine Inv.setE (Inv.setE (Inv.setE h2 _ ?_) _ ?_) _ ?_ <;> decide
  exact (Inv.setBytes ((((h3.setF _ _).setF _ _).setF _ _).setF _ _) 0 (by decide)).setRunState _

/-- InvStep, InvMove, MemoryFrame, AssertNeverRaised, ThresholdsAreInvisible: the invariant holds of a running state. -/
theorem witness_Inv : Inv demo ∧ demo.runState = .running ∧ demo.params.Legal := ⟨demo_inv, by decide, default_legal⟩

/-- DecodeOfEncode, UninitComesFirst: a well-formed command. -/
theorem witness_wellFormed : (Instr.div 1 2 3 4).wellFormed = true := by decide

/-- EncodeOfDecode: a word that decodes. -/
theorem witness_EncodeOfDecode : decode 0x58134200 = .ok (.div 1 3 4 2) := by decide

/-- LegalWordsAreTheTable: a row, a word it matches, the extra conditions met at the last legal values. -/
theorem witness_LegalWords :
    (opcodeRows.any fun row => row.matches 0x04800000) = true ∧ extraConditions 0x04800000 = true ∧
    extraConditions 0x05100018 = true ∧ extraConditions 0x05100004 = true ∧ extraConditions 0x58134200 = true := by decide

/-- StepRunsTheCommand. -/
theorem witness_StepRuns : (demoAt 0x01000000).runState = .running ∧
    (demoAt 0x01000000).pc.toNat < (demoAt 0x01000000).params.imemWords ∧
    decode (imemWord (demoAt 0x01000000) (demoAt 0x01000000).pc.toNat) = .ok .nop := by decide

/-- StepFetchFaults: the first pc outside IMEM, and an illegal word at the last one inside. -/
theorem witness_StepFetchFaults :
    (setPc demo 1024).params.imemWords ≤ (setPc demo 1024).pc.toNat ∧
    (setPc (setImem demo 1023 0) 1023).pc.toNat < (setPc (setImem demo 1023 0) 1023).params.imemWords ∧
    decode (imemWord (setPc (setImem demo 1023 0) 1023) 1023) = .error .unassignedOpcode := by decide

/-- FaultsArePrecise: a running step that ends FAULTED. -/
theorem witness_FaultsArePrecise :
    demo.runState = .running ∧ got (step (demoAt 0)) (fun t => t.runState) = some .faulted := by decide

/-- UninitComesFirst: the first unwritten register of STB is the base, then the data. -/
theorem witness_Uninit :
    (readsOf (.stb 15 14 0)).find? (unwritten demo) = some (.x, 14) ∧
    (readsOf (.stb 15 1 0)).find? (unwritten demo) = some (.x, 15) ∧
    got (exec (.stb 15 1 0) demo) record = some (.faulted, 2, 15, 0) := by decide

/-- RegisterFrame, FlagFrame, MemoryFrame, ControlFrame: a command that completes, and a register it does not write. -/
theorem witness_Frames :
    got (exec (.add 4 1 2) demo) (fun t => getM t 4) = some (some [5, 1]) ∧
    (RegFile.m, (1 : BitVec 4)) ∉ writesOf (.add 4 1 2) ∧ writesSgn (.add 4 1 2) = false ∧
    writesPerr (.add 4 1 2) = false ∧ storeRange (.stb 1 3 4) demo = (4, 1) := by decide

/-- FaultRecordMove: a record before and after a fault. -/
theorem witness_RecordOk : RecordOk demo ∧ RecordOk (takeFault demo .divZero) :=
  ⟨⟨by decide, by decide, by decide⟩, ⟨by decide, by decide, by decide⟩⟩

/-- ThresholdsAreInvisible: thresholds of 1, and a command that reads neither CSR. -/
theorem witness_Thresholds : 1 ≤ 1 ∧ ∀ a, Instr.mul 1 2 3 ≠ .csrr a .cfgKt ∧ Instr.mul 1 2 3 ≠ .csrr a .cfgDt :=
  ⟨le_rfl, fun _ => ⟨nofun, nofun⟩⟩

/-- ResetState: a state to reset. -/
theorem witness_ResetState : (hostMove .reset demo).2 = .done ∧ (hostMove .reset demo).1.memEpoch = 1 := by decide

/-- HostStart, HostWriteReg, HostWriteMemory, HostReadsAndRefusals: not running, running; the last index inside. -/
theorem witness_Host : State.reset.runState ≠ .running ∧ demo.runState = .running ∧
    1023 < State.reset.params.imemWords ∧ 4095 < State.reset.params.tmemSize ∧
    canonical State.reset.params.base [5] = true ∧ State.reset.params.fits 1 = true ∧
    2 ^ 96 - 1 < State.reset.params.base ^ 3 ∧ ¬ 2 ^ 96 < State.reset.params.base ^ 3 := by decide

/-- NativeRegisters, Moves, DigitView, PseudoInstructions: the X operands hold values. -/
theorem witness_X : getX demo 1 = some 5 ∧ getX demo 6 = some 0xFFFFFFFFFFFFFFFF ∧
    ([(RegFile.x, (9 : BitVec 4))].find? (unwritten demo)) = some (.x, 9) := by decide

/-- ReadCsr: the CSR numbers next to the assigned ones. -/
theorem witness_ReadCsr : demo.runState = .running ∧ (4 < (5 : BitVec 16).toNat ∧ (5 : BitVec 16).toNat < 0x10) ∧
    (4 < (15 : BitVec 16).toNat ∧ (15 : BitVec 16).toNat < 0x10) ∧ 0x18 < (0x19 : BitVec 16).toNat := by decide

/-- Branch: the first reserved condition. -/
theorem witness_Branch : 9 ≤ (9 : BitVec 4).toNat ∧ demo.sgn = .zero ∧ demo.perr = .none := by decide

/-- LengthAndDigit: the last digit and the first index past it. -/
theorem witness_LengthAndDigit : getM demo 2 = some [0, 1] ∧ getX demo 3 = some 0 ∧
    (0 : Nat) < ([0, 1] : Magnitude).length ∧ ¬ (5 : Nat) < ([0, 1] : Magnitude).length := by decide

/-- TextBytes: the last byte of TMEM, the address after it, and the address −1. -/
theorem witness_TextBytes : getX demo 5 = some 4095 ∧
    ((4095 : Nat) : Int) = ((4095 : Native).toNat : Int) + (0 : BitVec 16).toInt ∧ 4095 < demo.params.tmemSize ∧
    (demo.params.tmemSize : Int) ≤ ((4095 : Native).toNat : Int) + (1 : BitVec 16).toInt ∧
    ((0 : Native).toNat : Int) + (-1 : BitVec 16).toInt < 0 := by decide

/-- AccumulatorReads: the three digit counts. -/
theorem witness_AccumulatorReads : getE demo 1 = some 7 ∧ getE demo 2 = some (2 ^ 96 - 1) ∧ getE demo 3 = some (2 ^ 64) ∧
    7 < demo.params.base ∧ ¬ 2 ^ 64 < demo.params.base ^ 2 := by decide

/-- AccumulatorWrites: both sides of the digit range and of the accumulator range. -/
theorem witness_AccumulatorWrites : getX demo 8 = some 0xFFFFFFFF ∧ getX demo 2 = some 0x100000000 ∧
    (0xFFFFFFFF : Native).toNat < demo.params.base ∧ demo.params.base ≤ (0x100000000 : Native).toNat ∧
    7 * demo.params.base < demo.params.base ^ 3 ∧ demo.params.base ^ 3 ≤ 2 ^ 64 * demo.params.base ∧
    7 * demo.params.base + (0xFFFFFFFF : Native).toNat < demo.params.base ^ 3 ∧
    demo.params.base ^ 3 ≤ 2 ^ 64 * demo.params.base + (0xFFFFFFFF : Native).toNat ∧
    2 ^ 64 * (0xFFFFFFFF : Native).toNat < demo.params.base ^ 3 ∧
    demo.params.base ^ 3 ≤ (2 ^ 96 - 1) * (0xFFFFFFFF : Native).toNat := by decide

/-- AccumulatorArithmetic: equal and smaller minuends, the last legal and the first illegal shift. -/
theorem witness_AccumulatorArithmetic : getE demo 1 = some 7 ∧ 7 ≤ 7 ∧ 7 < 2 ^ 64 ∧
    (31 : BitVec 8).toNat < demo.params.w ∧ demo.params.w ≤ (32 : BitVec 8).toNat := by decide

/-- LeadingZeros: zero, the greatest digit, the least value that is no digit. -/
theorem witness_LeadingZeros : getX demo 3 = some 0 ∧ getX demo 8 = some 0xFFFFFFFF ∧ getX demo 2 = some 0x100000000 ∧
    (0xFFFFFFFF : Native).toNat < demo.params.base ∧ demo.params.base ≤ (0x100000000 : Native).toNat := by decide

/-- Compare, AddExact, Subtract, Multiply, QuotientRemainder: the M operands hold values, zero and not zero; a result that
fits and one that does not. -/
theorem witness_M : getM demo 1 = some [5] ∧ getM demo 2 = some [0, 1] ∧ getM demo 3 = some [0] ∧
    val demo.params.base [0] = 0 ∧ val demo.params.base [0, 1] ≠ 0 ∧
    demo.params.fits (digits demo.params.base (val demo.params.base [5] + val demo.params.base [0, 1])).length = true ∧
    Config.Params.fits { demo.params with maxLen := some 2 } 3 = false := by decide

/-- AddThenSubtract. -/
theorem witness_AddThenSubtract : getM demo 1 = some [5] ∧ getM demo 2 = some [0, 1] ∧ (4 : MReg) ≠ 2 ∧
    demo.params.fits (digits demo.params.base (val demo.params.base [5] + val demo.params.base [0, 1])).length = true := by
  decide

/-- Divide, DivIsDivl: two destinations, a divisor that is zero and one that is not. -/
theorem witness_Divide : (3 : MReg) ≠ 4 ∧ getM demo 2 = some [0, 1] ∧ val demo.params.base [0] = 0 ∧
    val demo.params.base [5] ≠ 0 := by decide

/-- DivideByNative: a divisor that is zero and one that is not. -/
theorem witness_DivideByNative : getM demo 2 = some [0, 1] ∧ getX demo 3 = some 0 ∧ getX demo 1 = some 5 ∧
    (0 : Native).toNat = 0 ∧ (5 : Native).toNat ≠ 0 := by decide

/-- ShiftLeft, ShiftRight: a count that fits and the greatest count. -/
theorem witness_Shift : getM demo 1 = some [5] ∧ getX demo 4 = some 10 ∧ getX demo 6 = some 0xFFFFFFFFFFFFFFFF ∧
    demo.params.fits (digits demo.params.base (val demo.params.base [5] * 2 ^ (10 : Native).toNat)).length = true := by
  decide

/-- FloatOperands, FloatCommands: a value in the domain, −0.0, a negative value, NaN. -/
theorem witness_Float : getF demo 1 = some 0x4006000000000000 ∧ getF demo 2 = some 0x7FF8000000000000 ∧
    getF demo 3 = some 0xBFF0000000000000 ∧ getF demo 4 = some 0x8000000000000000 := by decide
/-- See `witness_Float`: 2.75. -/
theorem witness_floatRat_finite : floatRat 0x4006000000000000 = some (11 / 4) := by
  norm_num [floatRat, show (0x4006000000000000 : Native).toNat = 0x4006000000000000 from rfl]
/-- See `witness_Float`: NaN and −1.0. -/
theorem witness_floatRat_domain : floatRat 0x7FF8000000000000 = none ∧ floatRat 0xBFF0000000000000 = some (-1) := by
  constructor
  · norm_num [floatRat, show (0x7FF8000000000000 : Native).toNat = 0x7FF8000000000000 from rfl]
  · norm_num [floatRat, show (0xBFF0000000000000 : Native).toNat = 0xBFF0000000000000 from rfl]
/-- See `witness_Float`: −0.0. -/
theorem witness_floatRat_negative_zero : floatRat 0x8000000000000000 = some 0 := by
  norm_num [floatRat, show (0x8000000000000000 : Native).toNat = 0x8000000000000000 from rfl]

/-- Alphabets: both alphabets, at the greatest radix of the first and the least of the second. -/
theorem witness_Alphabets : charValue 0x7A 36 = some 35 ∧ charValue 0x5A 36 = some 35 ∧ charValue 0x7A 35 = none ∧
    charValue 0x41 37 = some 0 ∧ charValue 0x2F 64 = some 63 ∧ charValue 0x2F 63 = none ∧ outputChar 36 35 = 0x7A ∧
    outputChar 37 36 = 0x6B := by decide

/-- ParseNumber: "12" in radix 10. -/
theorem witness_ParseNumber :
    getX (setX demo 9 2) 3 = some 0 ∧ getX (setX demo 9 2) 9 = some 2 ∧ getX (setX demo 9 2) 4 = some 10 ∧
    charValue (tmemByte (setX demo 9 2) 0) 10 = some 1 ∧ charValue (tmemByte (setX demo 9 2) 1) 10 = some 2 ∧
    textNumber 10 [1, 2] = 12 := by decide

/-- ParseErrors: each clause, at the boundary: the text one byte past TMEM, radix 1 and 65, no character, "12a". -/
theorem witness_ParseErrors :
    (0 < (2 : Native).toNat ∧ demo.params.tmemSize < (4095 : Native).toNat + (2 : Native).toNat) ∧
    ¬ (0 < (1 : Native).toNat ∧ demo.params.tmemSize < (4095 : Native).toNat + (1 : Native).toNat) ∧
    (1 : Native).toNat < 2 ∧ 64 < (65 : Native).toNat ∧ (0 : Native).toNat = 0 ∧
    charValue (tmemByte demo 2) 10 = none := by decide

/-- FormatNumber, FormatThenParse: 5 in radix 10 is one character, written to the last byte of TMEM. -/
theorem witness_FormatNumber : getM demo 1 = some [5] ∧ getX demo 5 = some 4095 ∧ getX demo 4 = some 10 ∧
    (4095 : Native).toNat + 1 ≤ demo.params.tmemSize := by decide
/-- See `witness_FormatNumber`. -/
theorem witness_TextLength : IsTextLength 10 (val demo.params.base [5]) 1 ∧ IsTextLength 10 (val demo.params.base [0]) 1 := by
  refine ⟨⟨by decide, fun k hk => ?_⟩, rfl⟩
  rcases k with _ | k
  · exact absurd hk (by decide)
  · omega

/-- FormatErrors: radix 1 and 65; 2^32 in radix 10 takes ten characters, which do not fit at address 4095. -/
theorem witness_FormatErrors : (1 : Native).toNat < 2 ∧ 64 < (65 : Native).toNat ∧ fmtLen 10 (2 ^ 32) = 10 ∧
    demo.params.tmemSize < (4095 : Native).toNat + 10 := by decide

/-- RadixPrefix: the two bytes at the end of TMEM fit, at the last address they do not. -/
theorem witness_RadixPrefix : getX demo 5 = some 4095 ∧
    (0 < min 2 2 ∧ demo.params.tmemSize < (4095 : Native).toNat + min 2 2) ∧
    ¬ (0 < min 2 2 ∧ demo.params.tmemSize < 4094 + min 2 2) ∧
    inferred (tmemByte demo 3) (tmemByte demo 4) 2 = 16 ∧ inferred (tmemByte demo 3) (tmemByte demo 4) 1 = 10 ∧
    matchedPrefix 16 16 = 2 ∧ matchedPrefix 8 8 = 1 ∧ matchedPrefix 10 10 = 0 ∧ matchedPrefix 2 16 = 0 := by decide

end Sys2Proof.Tests
end

section
/-! PROOF. The invariant (00_scope.md R11, 10_state.md R22, R23, 20_memory.md R50): every command, every step and every
move of either agent keeps it. -/

namespace Sys2Proof.Machine

/-! ### What a checked computation answers when it completes -/

/-- Whatever the computation answers when it completes satisfies `Q`. -/
def OnOk {α : Type} (Q : α → Prop) (r : Except Trap α) : Prop := ∀ a, r = .ok a → Q a

section
variable {α β : Type} {P : α → Prop} {Q : β → Prop} {x : Except Trap α} {f : α → Except Trap β}

theorem onOk_ok {b : β} (h : Q b) : OnOk Q (.ok b) := fun _ e => Except.ok.inj e ▸ h

theorem onOk_error {e : Trap} : OnOk Q (.error e) := nofun

/-- A sequence, where the rest needs to know `P` of the first answer. -/
theorem OnOk.bind (hx : OnOk P x) (hf : ∀ a, P a → OnOk Q (f a)) : OnOk Q (x >>= f) := by
  intro b hb
  obtain ⟨a, ha, hfa⟩ := bind_eq_ok.1 hb
  exact hf a (hx a ha) b hfa

/-- A sequence, where the rest needs to know nothing of the first answer. -/
theorem onOk_seq (hf : ∀ a, OnOk Q (f a)) : OnOk Q (x >>= f) :=
  OnOk.bind (P := fun _ => True) (fun _ _ => trivial) fun a _ => hf a

end

theorem onOk_require {c : Bool} {t : Trap} : OnOk (fun _ => c = true) (require c t) := fun _ => require_eq_ok.1

theorem onOk_checkAcc {B v : Nat} : OnOk (fun _ => v < B ^ 3) (checkAcc B v) :=
  fun _ h => of_decide_eq_true (require_eq_ok.1 h)

/-! ### Magnitudes that an M register may hold (10_state.md R22) -/

/-- A canonical magnitude of at most MAXLEN digits. -/
structure Storable (p : Config.Params) (m : Magnitude) : Prop where
  canonical : canonical p.base m = true
  fits : p.fits m.length = true

variable {s : State}

theorem Inv.onOk_readM (h : Inv s) (r : MReg) : OnOk (Storable s.params) (readM s r) := fun m hm =>
  have hr := h.magnitudes r m (readM_eq_ok.1 hm)
  ⟨hr.1, hr.2⟩

theorem Inv.onOk_readE (h : Inv s) (r : EReg) : OnOk (· < s.params.base ^ 3) (readE s r) :=
  fun v hv => h.accumulators r v (readE_eq_ok.1 hv)

theorem Inv.setStorable (h : Inv s) (a : MReg) {m : Magnitude} (hm : Storable s.params m) : Inv (Machine.setM s a m) :=
  h.setM a hm.canonical hm.fits

theorem Inv.onOk_writeChecked (h : Inv s) (a : MReg) {m : Magnitude} (hm : canonical s.params.base m = true) :
    OnOk Inv (writeChecked s a m) := by
  intro t ht
  obtain ⟨hfits, rfl⟩ := writeChecked_eq_ok.1 ht
  exact h.setM a hm hfits

theorem Inv.one_le_w (h : Inv s) : 1 ≤ s.params.w := le_trans (by norm_num) h.params.1.1

theorem Inv.two_pow_64_le_base_mul_base (h : Inv s) : 2 ^ 64 ≤ s.params.base * s.params.base := by
  rw [Config.Params.base, ← pow_add]
  exact Nat.pow_le_pow_right (by norm_num) (by have := h.params.1.1; omega)

theorem legalRadix_iff {r : Nat} : legalRadix r = true ↔ 2 ≤ r ∧ r ≤ 64 := by
  rw [legalRadix, Bool.and_eq_true_iff, decide_eq_true_eq, decide_eq_true_eq]

theorem Inv.radix_lt_base (h : Inv s) {r : Nat} (hr : r ≤ 64) : r < s.params.base :=
  calc r < 2 ^ 32 := by omega
    _ ≤ 2 ^ s.params.w := Nat.pow_le_pow_right (by norm_num) h.params.1.1

/-- A value that is not above a storable one is storable: it has no more digits. -/
theorem Inv.storable_digits (h : Inv s) {m : Magnitude} (hm : Storable s.params m) {v : Nat}
    (hv : v ≤ val s.params.base m) : Storable s.params (digits s.params.base v) := by
  have hB := h.two_le_base
  refine ⟨canonical_digits hB v, fits_mono hm.fits ?_⟩
  refine length_le_of_val_lt hB (canonical_digits hB v) (length_pos_of_canonical hm.canonical) ?_
  rw [val_digits hB]
  exact lt_of_le_of_lt hv (val_lt_pow (canonical_allBelow hm.canonical))

theorem Inv.canonical_view (h : Inv s) (x : Native) : canonical s.params.base (view s.params.base x) = true := by
  rw [view_eq h.two_le_base h.two_pow_64_le_base_mul_base]
  exact canonical_digits h.two_le_base _

/-- A digit view has at most two digits, which always fit (00_scope.md R5). -/
theorem Inv.storable_view (h : Inv s) (x : Native) : Storable s.params (view s.params.base x) where
  canonical := h.canonical_view x
  fits := fits_mono (fits_two h.params) (by unfold view; split <;> simp)

theorem Inv.canonical_floatDigits (h : Inv s) (x : Dyadic) :
    canonical s.params.base (floatDigits s.params.w x) = true := by
  rw [floatDigits_eq h.one_le_w]
  exact canonical_digits h.two_le_base _

/-! ### Results of the datapaths -/

theorem Inv.canonical_addMag (h : Inv s) {p q : Magnitude} (hp : canonical s.params.base p = true)
    (hq : canonical s.params.base q = true) : canonical s.params.base (addMag s.params.base p q) = true := by
  rw [addMag_eq_digits h.two_le_base (canonical_allBelow hp) (canonical_allBelow hq)]
  exact canonical_digits h.two_le_base _

/-- The difference is not above the greater operand. -/
theorem Inv.storable_subMag (h : Inv s) {p q : Magnitude} (hp : Storable s.params p) (hq : Storable s.params q) :
    Storable s.params (subMag s.params.base p q).2 := by
  rw [subMag_eq h.two_le_base hp.canonical hq.canonical]
  split
  · exact h.storable_digits hp (Nat.sub_le _ _)
  · exact h.storable_digits hq (Nat.sub_le _ _)

theorem Inv.storable_shrMag (h : Inv s) {m : Magnitude} (hm : Storable s.params m) (k : Nat) :
    Storable s.params (shrMag s.params.w m k) := by
  rw [shrMag_eq_digits h.one_le_w hm.canonical]
  exact h.storable_digits hm (Nat.div_le_self _ _)

theorem Inv.onOk_writeShl (h : Inv s) (a : MReg) {m : Magnitude} (hm : Storable s.params m) (k : Nat) :
    OnOk Inv (writeShl s a m k) := by
  refine OnOk.bind (fun _ => checkCapacity_eq_ok.1) fun _ hfits => onOk_ok (h.setM a ?_ ?_)
  · rw [shlMag_eq_digits h.one_le_w hm.canonical]
    exact canonical_digits h.two_le_base _
  · rwa [shlMag_length (canonical_ne_nil hm.canonical)]

/-- Neither the quotient nor the remainder is above the dividend. -/
theorem Inv.onOk_divideM (h : Inv s) {n dv : Magnitude} (forceLong : Bool) (hn : Storable s.params n)
    (hdv : canonical s.params.base dv = true) :
    OnOk (fun qr => Storable s.params qr.1 ∧ Storable s.params qr.2) (divideM s n dv forceLong) := by
  rw [divideM_eq h.params forceLong hn.canonical hdv]
  split
  · exact onOk_error
  · exact onOk_ok ⟨h.storable_digits hn (Nat.div_le_self _ _), h.storable_digits hn (Nat.mod_le _ _)⟩

/-- The text of a magnitude has the length announced for it (46_radix.md R232, R233). -/
theorem Inv.onOk_formatMag (h : Inv s) {m : Magnitude} (hm : canonical s.params.base m = true) {r : Nat}
    (hr : 2 ≤ r) : OnOk (fun text => text.length = fmtLen r (val s.params.base m))
      (formatMag s.params.w s.params.dcThreshold m r) := by
  rw [formatMag_eq h.one_le_w _ hm hr, fmtLen_eq]
  exact onOk_ok (by simp [Config.Params.base])

/-! ### Commands -/

/-- Every next state of the outcome meets the invariant. -/
def NextInv (o : Host.Outcome State Fault Refusal) : Prop := ∀ t, o = .next t → Inv t

theorem nextInv_next {t : State} (h : Inv t) : NextInv (.next t) := by rintro _ ⟨⟩; exact h

/-- A command keeps the invariant if what it writes does: a fault writes the fault record only. -/
theorem Inv.nextInv_finish (h : Inv s) {r : Except Trap State} (hr : OnOk Inv r) : NextInv (finish s r) := by
  intro u hu
  obtain ⟨t, ht, rfl⟩ | ⟨e, -, rfl⟩ := finish_eq_next.1 hu
  · exact (hr t ht).advancePc
  · exact h.takeFault e

theorem Inv.nextInv_br (h : Inv s) (cond : Cond) (off : BitVec 16) : NextInv (execBr cond off s) := by
  unfold execBr
  split
  · exact nextInv_next (h.setPc _)
  · exact nextInv_next h.advancePc

/-- Two digits make an accumulator value below B^2 (40_digit_accumulator.md R96). -/
theorem Inv.nextInv_emov (h : Inv s) (a : EReg) (b c : XReg) : NextInv (execEmov a b c s) := by
  refine h.nextInv_finish <| onOk_seq fun lo => onOk_seq fun mid => onOk_require.bind fun _ hd => onOk_ok (h.setE a ?_)
  obtain ⟨hlo, hmid⟩ : lo.toNat < s.params.base ∧ mid.toNat < s.params.base := by simpa using hd
  have hB := h.two_le_base
  calc mid.toNat * s.params.base + lo.toNat < (mid.toNat + 1) * s.params.base := by rw [Nat.succ_mul]; omega
    _ ≤ s.params.base * s.params.base := Nat.mul_le_mul_right _ hmid
    _ = s.params.base ^ 2 := (sq _).symm
    _ ≤ s.params.base ^ 3 := Nat.pow_le_pow_right (by omega) (by norm_num)

theorem Inv.nextInv_stb (h : Inv s) (a b : XReg) (imm : BitVec 16) : NextInv (execStb a b imm s) := by
  refine h.nextInv_finish <| onOk_seq fun _ => onOk_seq fun _ => OnOk.bind (fun _ => checkByte_eq_ok.1) fun _ hin =>
    onOk_ok (h.setBytes _ ?_)
  rw [List.length_singleton]
  omega

theorem Inv.nextInv_divTwo (h : Inv s) (w : Word) (a b c d : MReg) (forceLong : Bool) :
    NextInv (divTwo w a b c d forceLong s) :=
  h.nextInv_finish <| onOk_seq fun _ => (h.onOk_readM b).bind fun _ hn => (h.onOk_readM c).bind fun _ hdv =>
    (h.onOk_divideM forceLong hn hdv.canonical).bind fun _ hqr =>
      onOk_ok ((h.setStorable a hqr.1).setStorable d hqr.2)

/-- A text that is no number writes PERR only; a number is written as far as it fits (46_radix.md R230). -/
theorem Inv.onOk_parseText (h : Inv s) (a : MReg) (addr len r : Nat) : OnOk Inv (parseText s a addr len r) := by
  unfold parseText
  split
  · exact onOk_ok (h.setPerr _)
  next hr =>
    split
    · exact onOk_ok (h.setPerr _)
    split
    · exact onOk_ok (h.setPerr _)
    next vs _ =>
      have hr64 : r ≤ 64 := (legalRadix_iff.1 (by simpa using hr)).2
      refine (h.onOk_writeChecked a ?_).bind fun _ ht => onOk_ok (ht.setPerr _)
      rw [horner_eq h.two_le_base (h.radix_lt_base hr64)]
      exact canonical_digits h.two_le_base _

/-- The text is stored inside the range that was checked for it (46_radix.md R234). -/
theorem Inv.onOk_formatText (h : Inv s) (a : XReg) {m : Magnitude} (hm : Storable s.params m) (addr r : Nat) :
    OnOk Inv (formatText s a m addr r) := by
  unfold formatText
  split
  · exact onOk_ok (h.setPerr _)
  next hr =>
    have hr2 : 2 ≤ r := (legalRadix_iff.1 (by simpa using hr)).1
    have hpos : 0 < fmtLen r (val s.params.base m) := by
      rw [fmtLen_eq]
      exact length_pos_of_canonical (canonical_digits hr2 _)
    refine OnOk.bind (fun _ => checkRange_eq_ok.1) fun _ hin => (h.onOk_formatMag hm.canonical hr2).bind
      fun text hlen => onOk_ok (((h.setBytes addr ?_).setX _ _).setPerr _)
    omega

/-- Every command keeps the invariant. The arms that read any operands and write an X register, or SGN, come first. -/
theorem Inv.nextInv_exec (h : Inv s) (i : Instr) : NextInv (exec i s) := by
  cases i with
  | nop => exact nextInv_next h.advancePc
  | halt => exact nextInv_next (h.advancePc.setRunState _)
  | br cond off => exact h.nextInv_br cond off
  | csrr a _ | li a _ => exact h.nextInv_finish <| onOk_ok (h.setX a _)
  | lih a _ | xaddi a _ _ | len a _ | digv a _ | digvf a _ | edl a _ | edm a _ | edh a _ | esz a _ | vlo a _ | vhi a _
  | vsz a _ | sodd a _ | sodb a _ | fdcnt a _ => exact h.nextInv_finish <| onOk_seq fun _ => onOk_ok (h.setX a _)
  | getd a _ _ | ldb a _ _ => exact h.nextInv_finish <| onOk_seq fun _ => onOk_seq fun _ => onOk_ok (h.setX a _)
  | clz a _ | rinf a _ _ =>
    exact h.nextInv_finish <| onOk_seq fun _ => onOk_seq fun _ => onOk_seq fun _ => onOk_ok (h.setX a _)
  | rpfx a _ _ _ =>
    exact h.nextInv_finish <| onOk_seq fun _ => onOk_seq fun _ => onOk_seq fun _ => onOk_seq fun _ =>
      onOk_ok (h.setX a _)
  | xcmp _ _ | ecmp _ _ | cmp _ _ | cmpx _ _ | cmpf _ _ =>
    exact h.nextInv_finish <| onOk_seq fun _ => onOk_seq fun _ => onOk_ok (h.setSgn _)
  | fmvx a _ => exact h.nextInv_finish <| onOk_seq fun _ => onOk_ok (h.setF a _)
  | stb a b imm => exact h.nextInv_stb a b imm
  | mov a b => exact h.nextInv_finish <| (h.onOk_readM b).bind fun _ hm => onOk_ok (h.setStorable a hm)
  | mfx a _ => exact h.nextInv_finish <| onOk_seq fun x => onOk_ok (h.setStorable a (h.storable_view x))
  | emov a b c => exact h.nextInv_emov a b c
  | emb a _ => exact h.nextInv_finish <| onOk_seq fun _ => onOk_checkAcc.bind fun _ hv => onOk_ok (h.setE a hv)
  | emba a _ _ | emuld a _ _ =>
    exact h.nextInv_finish <| onOk_seq fun _ => onOk_seq fun _ => onOk_seq fun _ =>
      onOk_checkAcc.bind fun _ hv => onOk_ok (h.setE a hv)
  | esub a b _ =>
    exact h.nextInv_finish <| (h.onOk_readE b).bind fun _ hu => onOk_seq fun _ => onOk_seq fun _ =>
      onOk_ok (h.setE a (lt_of_le_of_lt (Nat.sub_le _ _) hu))
  | eshr a b _ =>
    exact h.nextInv_finish <| (h.onOk_readE b).bind fun _ hv => onOk_seq fun _ =>
      onOk_ok (h.setE a (lt_of_le_of_lt (Nat.div_le_self _ _) hv))
  | add a b c =>
    exact h.nextInv_finish <| (h.onOk_readM b).bind fun _ hp => (h.onOk_readM c).bind fun _ hq =>
      h.onOk_writeChecked a (h.canonical_addMag hp.canonical hq.canonical)
  | addx a b _ =>
    exact h.nextInv_finish <| (h.onOk_readM b).bind fun _ hp => onOk_seq fun x =>
      h.onOk_writeChecked a (h.canonical_addMag hp.canonical (h.canonical_view x))
  | addf a b _ =>
    exact h.nextInv_finish <| (h.onOk_readM b).bind fun _ hp => onOk_seq fun x =>
      h.onOk_writeChecked a (h.canonical_addMag hp.canonical (h.canonical_floatDigits x))
  | sub a b c =>
    exact h.nextInv_finish <| (h.onOk_readM b).bind fun _ hp => (h.onOk_readM c).bind fun _ hq =>
      onOk_ok ((h.setStorable a (h.storable_subMag hp hq)).setSgn _)
  | mul a b c =>
    exact h.nextInv_finish <| (h.onOk_readM b).bind fun _ hp => (h.onOk_readM c).bind fun _ hq =>
      h.onOk_writeChecked a (karatsubaAux_spec h.two_le_base _ _ hp.canonical hq.canonical).2
  | mull a b c =>
    exact h.nextInv_finish <| (h.onOk_readM b).bind fun _ hp => (h.onOk_readM c).bind fun _ hq =>
      h.onOk_writeChecked a (longMultiply_spec h.two_le_base hp.canonical hq.canonical).2
  | div a b c d => exact h.nextInv_divTwo _ a b c d false
  | divl a b c d => exact h.nextInv_divTwo _ a b c d true
  | quo a b c =>
    exact h.nextInv_finish <| (h.onOk_readM b).bind fun _ hn => (h.onOk_readM c).bind fun _ hdv =>
      (h.onOk_divideM false hn hdv.canonical).bind fun _ hqr => onOk_ok (h.setStorable a hqr.1)
  | rem a b c =>
    exact h.nextInv_finish <| (h.onOk_readM b).bind fun _ hn => (h.onOk_readM c).bind fun _ hdv =>
      (h.onOk_divideM false hn hdv.canonical).bind fun _ hqr => onOk_ok (h.setStorable a hqr.2)
  | divx a b _ d =>
    exact h.nextInv_finish <| (h.onOk_readM b).bind fun _ hn => onOk_seq fun x =>
      (h.onOk_divideM false hn (h.canonical_view x)).bind fun _ hqr =>
        onOk_ok ((h.setStorable a hqr.1).setX d _)
  | shl a b _ =>
    exact h.nextInv_finish <| (h.onOk_readM b).bind fun _ hm => onOk_seq fun _ => h.onOk_writeShl a hm _
  | shr a b _ =>
    exact h.nextInv_finish <| (h.onOk_readM b).bind fun _ hm => onOk_seq fun _ =>
      onOk_ok (h.setStorable a (h.storable_shrMag hm _))
  | shli a b _ => exact h.nextInv_finish <| (h.onOk_readM b).bind fun _ hm => h.onOk_writeShl a hm _
  | shri a b _ =>
    exact h.nextInv_finish <| (h.onOk_readM b).bind fun _ hm => onOk_ok (h.setStorable a (h.storable_shrMag hm _))
  | parse a _ _ _ =>
    exact h.nextInv_finish <| onOk_seq fun _ => onOk_seq fun _ => onOk_seq fun _ => onOk_seq fun _ =>
      h.onOk_parseText a _ _ _
  | fmt a b _ _ =>
    exact h.nextInv_finish <| (h.onOk_readM b).bind fun _ hm => onOk_seq fun _ => onOk_seq fun _ =>
      h.onOk_formatText a hm _ _
  | fcvt a _ => exact h.nextInv_finish <| onOk_seq fun x => h.onOk_writeChecked a (h.canonical_floatDigits x)

/-! ### Steps and host operations -/

/-- A step of a running core ends in fetch's fault, in ILLEGAL, or in a command. -/
theorem Inv.nextInv_runStep (h : Inv s) : NextInv (runStep s) := by
  unfold runStep
  split
  · exact nextInv_next (h.takeFault _)
  · split
    · exact nextInv_next (h.takeFault _)
    · exact h.nextInv_exec _

theorem Inv.nextInv_step (h : Inv s) : NextInv (step s) := by
  unfold step
  split
  · exact h.nextInv_runStep
  · exact nextInv_next h
  · exact nextInv_next h

/-- A refused operation changes nothing (60_exceptions.md R302). -/
theorem Inv.allowedIf (h : Inv s) {c : Bool} {r : State × HostReply} (hr : c = true → Inv r.1) :
    Inv (allowedIf c s r).1 := by
  unfold Machine.allowedIf
  split
  · next hc => exact hr hc
  · exact h

/-- The host may write only what the register can hold (60_exceptions.md R298). -/
theorem Inv.setReg (h : Inv s) (i : BitVec 4) {v : RegValue} (hv : regValueAllowed s v = true) :
    Inv (setReg s i v) := by
  cases v with
  | x v => exact h.setX i v
  | m v =>
    obtain ⟨hc, hf⟩ := Bool.and_eq_true_iff.1 hv
    exact h.setM i hc hf
  | e v => exact h.setE i (of_decide_eq_true hv)
  | f v => exact h.setF i v

theorem Inv.hostEffect (h : Inv s) (op : HostOp) : Inv (hostEffect s op).1 := by
  cases op with
  | reset => exact inv_resetWith h.params _
  | writeReg i v => exact h.allowedIf fun hv => h.setReg i hv
  | writeImem i w => exact h.allowedIf fun hi => h.setImem i w (of_decide_eq_true hi)
  | writeTmem addr byte => exact h.allowedIf fun ha => h.setBytes addr (of_decide_eq_true ha)
  | start pc => exact (h.setPc _).setRunState _
  | readReg file i => exact h
  | readCsr n =>
    simp only [Machine.hostEffect, hostReadCsr]
    split <;> exact h
  | readImem i => exact h.allowedIf fun _ => h
  | readTmem addr => exact h.allowedIf fun _ => h

theorem Inv.nextInv_move (h : Inv s) (agent : Agent) : NextInv (move agent s) := by
  cases agent with
  | core => exact h.nextInv_step
  | host op => exact nextInv_next (h.allowedIf fun _ => h.hostEffect op)

/-! ### The obligations -/

/-- Settles O16: no register holds a value and both memories are empty, and the default parameters are legal. -/
theorem invReset : Obligations.InvReset :=
  ⟨inv_resetWith default_legal 0, ⟨by decide, by decide, by decide⟩⟩

/-- Settles O17: by cases on the command a running core executes. -/
theorem invStep : Obligations.InvStep := fun _ t h ht => h.nextInv_step t ht

/-- Settles O18: a step of the core (O17), or a host operation, which writes only what it has checked. -/
theorem invMove : Obligations.InvMove := fun agent _ t h ht => h.nextInv_move agent t ht

end Sys2Proof.Machine
end

section
/-! PROOF. The thresholds change no result (00_scope.md R7, 43_multiply.md R166, 44_divide.md R187). -/

namespace Sys2Proof.Machine

variable {s : State} {kt dt : Nat}

/-! ### Computations that do not see the thresholds

`withThresholds kt dt s` has the registers, memories and other parameters of `s`, so the two runs of a command agree part
by part by `rfl`; only a product, a quotient and a text need the laws of their datapaths. -/

section
variable {α β : Type} {x x' : Except Trap α} {f f' : α → Except Trap β} {g : β → β}

/-- Two sequences with the same first part agree up to `g` if their rests do, where the rests need to know `P` of the first
answer. -/
theorem OnOk.bind_map {P : α → Prop} (hx : OnOk P x) (hf : ∀ a, P a → f' a = (f a).map g) :
    (x >>= f') = (x >>= f).map g := by
  cases x with
  | error e => rfl
  | ok a => exact hf a (hx a rfl)

/-- The same where the rests need to know nothing of the first answer. -/
theorem seq_map (hf : ∀ a, f' a = (f a).map g) : (x >>= f') = (x >>= f).map g :=
  OnOk.bind_map (P := fun _ => True) (fun _ _ => trivial) fun a _ => hf a

/-- The same for first parts that are equal by a law. -/
theorem seq_map_of_eq (hx : x' = x) (hf : ∀ a, f' a = (f a).map g) : (x' >>= f') = (x >>= f).map g := hx ▸ seq_map hf

/-- The same for first parts that agree up to `k`. -/
theorem map_seq_map {k : α → α} (hx : x' = x.map k) (hf : ∀ a, f' (k a) = (f a).map g) :
    (x' >>= f') = (x >>= f).map g := by
  subst hx
  cases x with
  | error e => rfl
  | ok a => exact hf a

end

/-- A command that sets no pc commutes with a change of thresholds if what it writes does. -/
theorem finish_withThresholds {r r' : Except Trap State} (h : r' = r.map (withThresholds kt dt)) :
    finish (withThresholds kt dt s) r' = mapNext (withThresholds kt dt) (finish s r) := by
  subst h
  cases r <;> rfl

theorem writeChecked_withThresholds (a : MReg) (m : Magnitude) :
    writeChecked (withThresholds kt dt s) a m = (writeChecked s a m).map (withThresholds kt dt) :=
  seq_map fun _ => rfl

theorem writeShl_withThresholds (a : MReg) (m : Magnitude) (k : Nat) :
    writeShl (withThresholds kt dt s) a m k = (writeShl s a m k).map (withThresholds kt dt) :=
  seq_map fun _ => rfl

/-! ### The datapaths that have a threshold -/

/-- Both products are the digits of the same number (43_multiply.md R166). -/
theorem Inv.karatsuba_threshold (h : Inv s) (kt kt' : Nat) {p q : Magnitude} (hp : Storable s.params p)
    (hq : Storable s.params q) : karatsuba s.params.base kt p q = karatsuba s.params.base kt' p q := by
  rw [karatsuba_eq_digits h.two_le_base kt hp.canonical hq.canonical,
    karatsuba_eq_digits h.two_le_base kt' hp.canonical hq.canonical]

theorem Inv.divideM_withThresholds (h : Inv s) {n dv : Magnitude} (forceLong : Bool) (hn : Storable s.params n)
    (hdv : canonical s.params.base dv = true) :
    divideM (withThresholds kt dt s) n dv forceLong = divideM s n dv forceLong :=
  divide_path_eq h.one_le_w _ _ _ _ hn.canonical hdv

/-- The divisions of a text answer the same at every threshold (46_radix.md R233). -/
theorem Inv.formatMag_threshold (h : Inv s) (dt dt' : Nat) {m : Magnitude} (hm : Storable s.params m) {r : Nat}
    (hr : 2 ≤ r) : formatMag s.params.w dt m r = formatMag s.params.w dt' m r := by
  rw [formatMag_eq h.one_le_w dt hm.canonical hr, formatMag_eq h.one_le_w dt' hm.canonical hr]

/-! ### Commands -/

theorem parseText_withThresholds (a : MReg) (addr len r : Nat) :
    parseText (withThresholds kt dt s) a addr len r =
      (parseText s a addr len r).map (withThresholds kt dt) := by
  have hbytes : tmemBytes (withThresholds kt dt s) addr len = tmemBytes s addr len := rfl
  unfold parseText
  rw [hbytes]
  split
  · rfl
  split
  · rfl
  cases textValues r (tmemBytes s addr len) with
  | none => rfl
  | some vs => exact map_seq_map (writeChecked_withThresholds a _) fun _ => rfl

theorem Inv.formatText_withThresholds (h : Inv s) (a : XReg) {m : Magnitude} (hm : Storable s.params m) (addr r : Nat) :
    formatText (withThresholds kt dt s) a m addr r = (formatText s a m addr r).map (withThresholds kt dt) := by
  unfold formatText
  split
  · rfl
  next hr =>
    have hr2 : 2 ≤ r := (legalRadix_iff.1 (by simpa using hr)).1
    exact seq_map fun _ => seq_map_of_eq (h.formatMag_threshold dt s.params.dcThreshold hm hr2) fun _ => rfl

theorem Inv.divTwo_withThresholds (h : Inv s) (w : Word) (a b c d : MReg) (forceLong : Bool) :
    divTwo w a b c d forceLong (withThresholds kt dt s) =
      mapNext (withThresholds kt dt) (divTwo w a b c d forceLong s) :=
  finish_withThresholds <| seq_map fun _ => (h.onOk_readM b).bind_map fun _ hn =>
    (h.onOk_readM c).bind_map fun _ hdv =>
      seq_map_of_eq (h.divideM_withThresholds forceLong hn hdv.canonical) fun _ => rfl

theorem execBr_withThresholds (cond : Cond) (off : BitVec 16) :
    execBr cond off (withThresholds kt dt s) = mapNext (withThresholds kt dt) (execBr cond off s) := by
  have htaken : taken cond (withThresholds kt dt s) = taken cond s := rfl
  unfold execBr
  rw [htaken]
  split <;> rfl

/-- Only the two CSRs that show the thresholds see them (10_state.md R38). -/
theorem csrValue_withThresholds {csr : Csr} (hkt : csr ≠ .cfgKt) (hdt : csr ≠ .cfgDt) :
    csrValue (withThresholds kt dt s) csr = csrValue s csr := by
  cases csr with
  | cfgKt => exact absurd rfl hkt
  | cfgDt => exact absurd rfl hdt
  | _ => rfl

theorem execCsrr_withThresholds (a : XReg) {csr : Csr} (hkt : csr ≠ .cfgKt) (hdt : csr ≠ .cfgDt) :
    execCsrr a csr (withThresholds kt dt s) = mapNext (withThresholds kt dt) (execCsrr a csr s) := by
  unfold execCsrr
  rw [csrValue_withThresholds hkt hdt]
  rfl

/-- Every command but a read of the two CSRs commutes with a change of thresholds. The arms whose datapath has none are
`rfl` after their reads and checks. -/
theorem Inv.exec_withThresholds (h : Inv s) {i : Instr} (hi : ∀ a, i ≠ .csrr a .cfgKt ∧ i ≠ .csrr a .cfgDt) :
    exec i (withThresholds kt dt s) = mapNext (withThresholds kt dt) (exec i s) := by
  cases i with
  | nop | halt | li _ _ => rfl
  | br cond off => exact execBr_withThresholds cond off
  | csrr a csr =>
    exact execCsrr_withThresholds a (fun e => (hi a).1 (e ▸ rfl)) (fun e => (hi a).2 (e ▸ rfl))
  | lih _ _ | xaddi _ _ _ | mov _ _ | mfx _ _ | len _ _ | fmvx _ _ | digv _ _ | digvf _ _ | edl _ _ | edm _ _ | edh _ _
  | esz _ _ | vlo _ _ | vhi _ _ | vsz _ _ | sodd _ _ | sodb _ _ | shri _ _ _ | fdcnt _ _ =>
    exact finish_withThresholds <| seq_map fun _ => rfl
  | xcmp _ _ | getd _ _ _ | ldb _ _ _ | emb _ _ | eshr _ _ _ | ecmp _ _ | cmp _ _ | cmpx _ _ | cmpf _ _ | sub _ _ _
  | shr _ _ _ => exact finish_withThresholds <| seq_map fun _ => seq_map fun _ => rfl
  | stb _ _ _ | emov _ _ _ | esub _ _ _ | clz _ _ | rinf _ _ _ =>
    exact finish_withThresholds <| seq_map fun _ => seq_map fun _ => seq_map fun _ => rfl
  | emba _ _ _ | emuld _ _ _ | rpfx _ _ _ _ =>
    exact finish_withThresholds <| seq_map fun _ => seq_map fun _ => seq_map fun _ => seq_map fun _ => rfl
  | add _ _ _ | addx _ _ _ | addf _ _ _ | mull _ _ _ =>
    exact finish_withThresholds <| seq_map fun _ => seq_map fun _ => writeChecked_withThresholds _ _
  | fcvt _ _ => exact finish_withThresholds <| seq_map fun _ => writeChecked_withThresholds _ _
  | shl _ _ _ => exact finish_withThresholds <| seq_map fun _ => seq_map fun _ => writeShl_withThresholds _ _ _
  | shli _ _ _ => exact finish_withThresholds <| seq_map fun _ => writeShl_withThresholds _ _ _
  | parse a _ _ _ =>
    exact finish_withThresholds <| seq_map fun _ => seq_map fun _ => seq_map fun _ => seq_map fun _ =>
      parseText_withThresholds a _ _ _
  | mul a b c =>
    refine finish_withThresholds <| (h.onOk_readM b).bind_map fun p hp => (h.onOk_readM c).bind_map fun q hq => ?_
    rw [h.karatsuba_threshold s.params.karatsubaThreshold kt hp hq]
    exact writeChecked_withThresholds a _
  | div a b c d => exact h.divTwo_withThresholds _ a b c d false
  | divl a b c d => exact h.divTwo_withThresholds _ a b c d true
  | quo _ b c | rem _ b c =>
    exact finish_withThresholds <| (h.onOk_readM b).bind_map fun _ hn => (h.onOk_readM c).bind_map fun _ hdv =>
      seq_map_of_eq (h.divideM_withThresholds false hn hdv.canonical) fun _ => rfl
  | divx _ b _ _ =>
    exact finish_withThresholds <| (h.onOk_readM b).bind_map fun _ hn => seq_map fun x =>
      seq_map_of_eq (h.divideM_withThresholds false hn (h.canonical_view x)) fun _ => rfl
  | fmt a b _ _ =>
    exact finish_withThresholds <| (h.onOk_readM b).bind_map fun _ hm => seq_map fun _ => seq_map fun _ =>
      h.formatText_withThresholds a hm _ _

/-! ### The obligations -/

/-- Settles O21: the datapaths with a threshold answer `digits` of a number that does not depend on it. -/
theorem thresholdsAreInvisible : Obligations.ThresholdsAreInvisible :=
  fun _ _ _ _ h _ _ hi => h.exec_withThresholds hi

end Sys2Proof.Machine
end

section
/-! PROOF. Every command follows its row of the operand table (30_encoding.md R79): which registers it reads, in which
order UNINIT is raised, and what it may write (10_state.md R25 to R31, 60_exceptions.md R286). -/

namespace Sys2Proof.Machine

variable {s t : State} {i : Instr}

/-! ### Computations that never raise UNINIT -/

/-- The computation raises no UNINIT: it reads no register. -/
def NeverUninit {α : Type} (r : Except Trap α) : Prop := ∀ file q, r ≠ .error (.uninit file q)

section
variable {α β : Type} {x : Except Trap α} {f : α → Except Trap β}

theorem neverUninit_ok {a : α} : NeverUninit (.ok a) := fun _ _ h => nomatch h

theorem neverUninit_error {e : Trap} (he : ∀ file q, e ≠ .uninit file q) :
    NeverUninit (.error e : Except Trap α) := fun file q h => he file q (Except.error.inj h)

theorem NeverUninit.bind (hx : NeverUninit x) (hf : ∀ a, NeverUninit (f a)) : NeverUninit (x >>= f) := by
  intro file q h
  obtain h | ⟨a, -, h⟩ := bind_eq_error.1 h
  · exact hx file q h
  · exact hf a file q h

/-- A branch of two computations. -/
theorem NeverUninit.ite {c : Prop} [Decidable c] {y : Except Trap α} (hx : NeverUninit x) (hy : NeverUninit y) :
    NeverUninit (if c then x else y) := by
  split
  · exact hx
  · exact hy

end

theorem neverUninit_require {c : Bool} {e : Trap} (he : ∀ file q, e ≠ .uninit file q) :
    NeverUninit (require c e) := .ite neverUninit_ok (neverUninit_error he)

theorem neverUninit_checkFloat (v : FloatValue) : NeverUninit (checkFloat v) := by
  cases v with
  | nan | infinite _ => exact neverUninit_error nofun
  | finite _ _ _ => exact .ite (neverUninit_error nofun) neverUninit_ok

theorem neverUninit_readPrefix (addr len : Nat) : NeverUninit (readPrefix s addr len) :=
  .bind (neverUninit_require nofun) fun _ => neverUninit_ok

/-! ### Division raises no UNINIT: its checks raise DIVZERO and ASSERT (44_divide.md R180, R186, R193, R194) -/

theorem neverUninit_correctQuotient (D r budget qhat : Nat) : NeverUninit (correctQuotient D r budget qhat) := by
  induction budget generalizing qhat with
  | zero => exact .ite (neverUninit_error nofun) neverUninit_ok
  | succ budget ih => exact .ite (ih _) neverUninit_ok

theorem neverUninit_quotientDigit (B D r : Nat) : NeverUninit (quotientDigit B D r) :=
  .ite neverUninit_ok <| (neverUninit_correctQuotient _ _ _ _).bind fun _ => neverUninit_ok

theorem neverUninit_longDivideLoop (B D : Nat) (ns : List Nat) (r : Nat) (qd : Magnitude) :
    NeverUninit (longDivideLoop B D ns r qd) := by
  induction ns generalizing r qd with
  | nil => exact neverUninit_ok
  | cons n ns ih => exact (neverUninit_quotientDigit _ _ _).bind fun _ => ih _ _

theorem neverUninit_longDivide (B N D : Nat) : NeverUninit (longDivide B N D) :=
  (neverUninit_longDivideLoop _ _ _ _ _).bind fun _ => neverUninit_ok

theorem neverUninit_correctRemainder (b budget qhat : Nat) (rhat : Int) :
    NeverUninit (correctRemainder b budget qhat rhat) := by
  induction budget generalizing qhat rhat with
  | zero => exact .ite (neverUninit_error nofun) neverUninit_ok
  | succ budget ih => exact .ite (ih _ _) neverUninit_ok

theorem neverUninit_d3n2n {d21 : Nat → Nat → Nat → Except Trap (Nat × Nat)} (h : ∀ a b n, NeverUninit (d21 a b n))
    (B a b n : Nat) : NeverUninit (d3n2n d21 B a b n) :=
  .ite ((h _ _ _).bind fun _ => neverUninit_correctRemainder _ _ _ _) (neverUninit_correctRemainder _ _ _ _)

theorem neverUninit_d2n1n (B dt fuel a b n : Nat) : NeverUninit (d2n1n B dt fuel a b n) := by
  induction fuel generalizing a b n with
  | zero => exact neverUninit_longDivide _ _ _
  | succ fuel ih =>
    exact .ite (neverUninit_longDivide _ _ _) <| (neverUninit_d3n2n ih _ _ _ _).bind fun _ =>
      (neverUninit_d3n2n ih _ _ _ _).bind fun _ => neverUninit_ok

theorem neverUninit_blockLoop (B dt D n : Nat) (cs : List Nat) (q r : Nat) :
    NeverUninit (blockLoop B dt D n cs q r) := by
  induction cs generalizing q r with
  | nil => exact neverUninit_ok
  | cons c cs ih => exact (neverUninit_d2n1n _ _ _ _ _ _).bind fun _ => ih _ _

theorem neverUninit_blockDivide (B dt N D n t : Nat) : NeverUninit (blockDivide B dt N D n t) := by
  unfold blockDivide
  split
  · exact neverUninit_ok
  · exact neverUninit_blockLoop _ _ _ _ _ _ _

theorem neverUninit_dcDivide (W dt N D : Nat) : NeverUninit (dcDivide W dt N D) :=
  (neverUninit_blockDivide _ _ _ _ _ _).bind fun _ => neverUninit_ok

theorem neverUninit_normalizedLongDivide (W N D top : Nat) : NeverUninit (normalizedLongDivide W N D top) :=
  (neverUninit_longDivide _ _ _).bind fun _ => neverUninit_ok

theorem neverUninit_divide (W dt : Nat) (n dv : Magnitude) (forceLong : Bool) :
    NeverUninit (divide W dt n dv forceLong) :=
  .ite (neverUninit_error nofun) <| .ite neverUninit_ok <| .ite
    ((neverUninit_dcDivide _ _ _ _).bind fun _ => .bind (neverUninit_require nofun) fun _ => neverUninit_ok)
    ((neverUninit_normalizedLongDivide _ _ _ _).bind fun _ => .bind (neverUninit_require nofun) fun _ => neverUninit_ok)

theorem neverUninit_formatLoop (W dt r fuel : Nat) (cur : Magnitude) : NeverUninit (formatLoop W dt r fuel cur) := by
  induction fuel generalizing cur with
  | zero => exact neverUninit_ok
  | succ fuel ih =>
    exact (neverUninit_divide _ _ _ _ _).bind fun _ => .ite neverUninit_ok <| (ih _).bind fun _ => neverUninit_ok

theorem neverUninit_formatMag (W dt : Nat) (m : Magnitude) (r : Nat) : NeverUninit (formatMag W dt m r) :=
  (neverUninit_formatLoop _ _ _ _ _).bind fun _ => neverUninit_ok

/-! ### What a command may write -/

/-- The command's row allows the difference from `s` to `t`: every register but those the row writes is unchanged
(10_state.md R26), and so is a flag it does not write (R28). -/
structure RowFrame (i : Instr) (s t : State) : Prop where
  x : ∀ r, (RegFile.x, r) ∉ writesOf i → getX t r = getX s r
  m : ∀ r, (RegFile.m, r) ∉ writesOf i → getM t r = getM s r
  e : ∀ r, (RegFile.e, r) ∉ writesOf i → getE t r = getE s r
  f : ∀ r, (RegFile.f, r) ∉ writesOf i → getF t r = getF s r
  sgn : writesSgn i = false → t.sgn = s.sgn
  perr : writesPerr i = false → t.perr = s.perr

theorem RowFrame.refl : RowFrame i s s :=
  ⟨fun _ _ => rfl, fun _ _ => rfl, fun _ _ => rfl, fun _ _ => rfl, fun _ => rfl, fun _ => rfl⟩

/-- An update that touches neither registers nor flags is in every row's frame. -/
theorem RowFrame.congr (h : RowFrame i s t) {u : State} (hx : u.x = t.x) (hm : u.m = t.m) (he : u.e = t.e)
    (hf : u.f = t.f) (hs : u.sgn = t.sgn) (hp : u.perr = t.perr) : RowFrame i s u where
  x r hr := by simpa [getX, hx] using h.x r hr
  m r hr := by simpa [getM, hm] using h.m r hr
  e r hr := by simpa [getE, he] using h.e r hr
  f r hr := by simpa [getF, hf] using h.f r hr
  sgn hi := hs.trans (h.sgn hi)
  perr hi := hp.trans (h.perr hi)

theorem RowFrame.takeFault (e : Trap) : RowFrame i s (takeFault s e) := RowFrame.refl.congr rfl rfl rfl rfl rfl rfl
theorem RowFrame.advancePc (h : RowFrame i s t) : RowFrame i s (advancePc t) := h.congr rfl rfl rfl rfl rfl rfl
theorem RowFrame.setBytes (h : RowFrame i s t) (addr : Nat) (vs : List Byte) : RowFrame i s (setBytes t addr vs) :=
  h.congr rfl rfl rfl rfl rfl rfl

theorem RowFrame.setX (h : RowFrame i s t) {a : XReg} (ha : (RegFile.x, a) ∈ writesOf i) (v : Native) :
    RowFrame i s (setX t a v) :=
  { h with x := fun r hr => (getX_setX t a r v).trans ((if_neg fun e : r = a => hr (e ▸ ha)).trans (h.x r hr)) }

theorem RowFrame.setM (h : RowFrame i s t) {a : MReg} (ha : (RegFile.m, a) ∈ writesOf i) (v : Magnitude) :
    RowFrame i s (setM t a v) :=
  { h with m := fun r hr => (getM_setM t a r v).trans ((if_neg fun e : r = a => hr (e ▸ ha)).trans (h.m r hr)) }

theorem RowFrame.setE (h : RowFrame i s t) {a : EReg} (ha : (RegFile.e, a) ∈ writesOf i) (v : Nat) :
    RowFrame i s (setE t a v) :=
  { h with e := fun r hr => (getE_setE t a r v).trans ((if_neg fun e : r = a => hr (e ▸ ha)).trans (h.e r hr)) }

theorem RowFrame.setF (h : RowFrame i s t) {a : FReg} (ha : (RegFile.f, a) ∈ writesOf i) (v : Native) :
    RowFrame i s (setF t a v) :=
  { h with f := fun r hr => (getF_setF t a r v).trans ((if_neg fun e : r = a => hr (e ▸ ha)).trans (h.f r hr)) }

theorem RowFrame.setSgn (h : RowFrame i s t) (hi : writesSgn i = true) (v : Sign) : RowFrame i s (setSgn t v) :=
  { h with sgn := fun hn => absurd (hi.symm.trans hn) nofun }

theorem RowFrame.setPerr (h : RowFrame i s t) (hi : writesPerr i = true) (v : ParseError) :
    RowFrame i s (setPerr t v) :=
  { h with perr := fun hn => absurd (hi.symm.trans hn) nofun }

/-! ### How a command may end -/

/-- The command completes in `u`: besides what its row writes, the pc advances unless it is BR, and STATE stays unless
it is HALT; IMEM, the parameters and the fault record are unchanged (10_state.md R27, R31, R35, 20_memory.md R64). -/
structure Completed (i : Instr) (s u : State) : Prop where
  frame : RowFrame i s u
  code : KeepsCode s u
  record : KeepsRecord s u
  pc : (∀ c off, i ≠ .br c off) → u.pc = s.pc + 1
  runState : i = .halt ∧ u.runState = .idle ∨ u.runState = s.runState

/-- A command that sets neither the pc nor STATE, and neither IMEM, the parameters nor the fault record. -/
theorem RowFrame.completed (h : RowFrame i s t) (ha : Advances s (Machine.advancePc t)) :
    Completed i s (Machine.advancePc t) :=
  ⟨h.advancePc, ha.code, ha.record, fun _ => ha.pc, .inr ha.runState⟩

/-- What a command's computation answers, when the registers `ps` of its row are still to be read: a completion its row
allows, or a fault, which for a well-formed command is UNINIT exactly at the first of `ps` that holds no value. -/
structure FollowsRow (i : Instr) (s : State) (ps : List (RegFile × BitVec 4)) (r : Except Trap State) : Prop where
  completed : OnOk (fun t => Completed i s (advancePc t)) r
  uninit : i.wellFormed = true → ∀ file q, r = .error (.uninit file q) ↔ ps.find? (unwritten s) = some (file, q)

section
variable {ps : List (RegFile × BitVec 4)} {α : Type} {f : α → Except Trap State}

/-- The end of a command: its writes, all of registers of its row, of flags of its row or of TMEM. -/
theorem followsRow_ok (h : RowFrame i s t)
    (ha : Advances s (advancePc t) := by exact ⟨rfl, rfl, ⟨rfl, rfl, rfl⟩, ⟨rfl, rfl, fun _ => rfl⟩⟩) :
    FollowsRow i s [] (.ok t) :=
  ⟨onOk_ok (h.completed ha), fun _ _ _ => ⟨nofun, nofun⟩⟩

/-- A check or a datapath after every register has been read. -/
theorem NeverUninit.followsRow {x : Except Trap α} (hx : NeverUninit x) (hf : ∀ a, FollowsRow i s [] (f a)) :
    FollowsRow i s [] (x >>= f) where
  completed := onOk_seq fun a => (hf a).completed
  uninit hw file q :=
    ⟨fun h => absurd h (hx.bind (fun a file q e => nomatch ((hf a).uninit hw file q).1 e) file q), nofun⟩

theorem followsRow_require {c : Bool} {e : Trap} {f : Unit → Except Trap State} (he : ∀ file q, e ≠ .uninit file q)
    (hf : ∀ a, FollowsRow i s [] (f a)) : FollowsRow i s [] (require c e >>= f) :=
  (neverUninit_require he).followsRow hf

/-- The check of two destinations comes before the reads, and passes for a well-formed command (30_encoding.md R80). -/
theorem followsRow_require_wellFormed {c : Bool} {e : Trap} {f : Unit → Except Trap State}
    (hc : i.wellFormed = true → c = true) (hf : ∀ a, FollowsRow i s ps (f a)) :
    FollowsRow i s ps (require c e >>= f) where
  completed := onOk_seq fun a => (hf a).completed
  uninit hw := by
    rw [hc hw, require_true, bind_ok_eq]
    exact (hf ()).uninit hw

/-- A read raises UNINIT when its register holds no value, and hands on to the others when it does. -/
theorem followsRow_orTrap {v : Option α} {p : RegFile × BitVec 4} (hv : unwritten s p = true ↔ v = none)
    (hf : ∀ a, FollowsRow i s ps (f a)) : FollowsRow i s (p :: ps) (orTrap v (.uninit p.1 p.2) >>= f) := by
  cases v with
  | none =>
    refine ⟨onOk_error, fun _ file q => ?_⟩
    rw [List.find?_cons_of_pos (hv.2 rfl)]
    simp [Prod.ext_iff]
  | some a =>
    refine ⟨(hf a).completed, fun hw file q => ?_⟩
    rw [List.find?_cons_of_neg fun hp => nomatch hv.1 hp]
    exact (hf a).uninit hw file q

end

section
variable {ps : List (RegFile × BitVec 4)}

theorem followsRow_readX {r : XReg} {f : Native → Except Trap State} (hf : ∀ v, FollowsRow i s ps (f v)) :
    FollowsRow i s ((.x, r) :: ps) (readX s r >>= f) :=
  followsRow_orTrap (p := (.x, r)) decide_eq_true_iff hf

theorem followsRow_readM {r : MReg} {f : Magnitude → Except Trap State} (hf : ∀ v, FollowsRow i s ps (f v)) :
    FollowsRow i s ((.m, r) :: ps) (readM s r >>= f) :=
  followsRow_orTrap (p := (.m, r)) decide_eq_true_iff hf

theorem followsRow_readE {r : EReg} {f : Nat → Except Trap State} (hf : ∀ v, FollowsRow i s ps (f v)) :
    FollowsRow i s ((.e, r) :: ps) (readE s r >>= f) :=
  followsRow_orTrap (p := (.e, r)) decide_eq_true_iff hf

theorem followsRow_readF {r : FReg} {f : Native → Except Trap State} (hf : ∀ v, FollowsRow i s ps (f v)) :
    FollowsRow i s ((.f, r) :: ps) (readF s r >>= f) :=
  followsRow_orTrap (p := (.f, r)) decide_eq_true_iff hf

end

/-- A float operand is the last one read; its domain is checked then (46_radix.md R240). -/
theorem followsRow_readFloat {r : FReg} {f : Dyadic → Except Trap State} (hf : ∀ v, FollowsRow i s [] (f v)) :
    FollowsRow i s [(.f, r)] (readFloat s r >>= f) := by
  rw [readFloat, bind_assoc]
  exact followsRow_readF fun _ => (neverUninit_checkFloat _).followsRow hf

theorem followsRow_writeChecked {a : MReg} (ha : (RegFile.m, a) ∈ writesOf i) (v : Magnitude) :
    FollowsRow i s [] (writeChecked s a v) :=
  followsRow_require nofun fun _ => followsRow_ok (RowFrame.refl.setM ha v)

theorem followsRow_writeShl {a : MReg} (ha : (RegFile.m, a) ∈ writesOf i) (m : Magnitude) (k : Nat) :
    FollowsRow i s [] (writeShl s a m k) :=
  followsRow_require nofun fun _ => followsRow_ok (RowFrame.refl.setM ha _)

theorem followsRow_parseText (a : MReg) (b c d : XReg) (addr len r : Nat) :
    FollowsRow (.parse a b c d) s [] (parseText s a addr len r) := by
  have hperr (e : ParseError) : FollowsRow (.parse a b c d) s [] (.ok (setPerr s e)) :=
    followsRow_ok (RowFrame.refl.setPerr rfl e)
  unfold parseText
  split
  · exact hperr _
  split
  · exact hperr _
  split
  · exact hperr _
  · rw [writeChecked, bind_assoc]
    exact followsRow_require nofun fun _ => followsRow_ok ((RowFrame.refl.setM (.head _) _).setPerr rfl _)

theorem followsRow_formatText (a : XReg) (b : MReg) (c d : XReg) (m : Magnitude) (addr r : Nat) :
    FollowsRow (.fmt a b c d) s [] (formatText s a m addr r) := by
  unfold formatText
  split
  · exact followsRow_ok (RowFrame.refl.setPerr rfl _)
  · exact followsRow_require nofun fun _ => (neverUninit_formatMag _ _ _ _).followsRow fun _ =>
      followsRow_ok (((RowFrame.refl.setBytes _ _).setX (.head _) _).setPerr rfl _)

/-! ### Commands -/

/-- What a command does: a computation that follows its row, or (HALT, BR) a completion without reading a register. -/
inductive Execution (i : Instr) (s : State) : Host.Outcome State Fault Refusal → Prop
  | body {r : Except Trap State} (h : FollowsRow i s (readsOf i) r) : Execution i s (finish s r)
  | control {u : State} (hreads : readsOf i = []) (h : Completed i s u) : Execution i s (.next u)

theorem execution_halt : Execution .halt s (exec .halt s) :=
  .control rfl ⟨RowFrame.refl.congr rfl rfl rfl rfl rfl rfl, ⟨rfl, rfl, fun _ => rfl⟩, ⟨rfl, rfl, rfl⟩, fun _ => rfl,
    .inl ⟨rfl, rfl⟩⟩

theorem execution_br (cond : Cond) (off : BitVec 16) : Execution (.br cond off) s (exec (.br cond off) s) := by
  refine .control rfl ?_
  split
  · exact ⟨RowFrame.refl.congr rfl rfl rfl rfl rfl rfl, ⟨rfl, rfl, fun _ => rfl⟩, ⟨rfl, rfl, rfl⟩,
      fun h => absurd rfl (h cond off), .inr rfl⟩
  · exact RowFrame.refl.completed ⟨rfl, rfl, ⟨rfl, rfl, rfl⟩, ⟨rfl, rfl, fun _ => rfl⟩⟩

/-- DIV and DIVL check their destinations first (44_divide.md R195). -/
theorem execution_divTwo (w : Word) {a b c d : MReg} (forceLong : Bool) (hw : i.wellFormed = true → a ≠ d)
    (ha : (RegFile.m, a) ∈ writesOf i) (hd : (RegFile.m, d) ∈ writesOf i) (hr : readsOf i = [(.m, b), (.m, c)]) :
    Execution i s (divTwo w a b c d forceLong s) := by
  refine .body ?_
  rw [hr]
  exact followsRow_require_wellFormed (fun h => decide_eq_true (hw h)) fun _ =>
    followsRow_readM fun _ => followsRow_readM fun _ => (neverUninit_divide _ _ _ _ _).followsRow fun _ =>
      followsRow_ok ((RowFrame.refl.setM ha _).setM hd _)

/-- Every command follows its row: its reads in the order of the row, its checks, its writes. -/
theorem execution_exec (i : Instr) (s : State) : Execution i s (exec i s) := by
  cases i with
  | nop => exact .body (r := .ok s) <| followsRow_ok RowFrame.refl
  | halt => exact execution_halt
  | br cond off => exact execution_br cond off
  | csrr _ _ | li _ _ => exact .body (r := .ok _) <| followsRow_ok (RowFrame.refl.setX (.head _) _)
  | lih _ _ | xaddi _ _ _ | digv _ _ | vlo _ _ | vhi _ _ | vsz _ _ | sodd _ _ | sodb _ _ =>
    exact .body <| followsRow_readX fun _ => followsRow_ok (RowFrame.refl.setX (.head _) _)
  | edl _ _ | edm _ _ | edh _ _ | esz _ _ =>
    exact .body <| followsRow_readE fun _ => followsRow_ok (RowFrame.refl.setX (.head _) _)
  | len _ _ => exact .body <| followsRow_readM fun _ => followsRow_ok (RowFrame.refl.setX (.head _) _)
  | digvf _ _ | fdcnt _ _ =>
    exact .body <| followsRow_readFloat fun _ => followsRow_ok (RowFrame.refl.setX (.head _) _)
  | getd _ _ _ =>
    exact .body <| followsRow_readM fun _ => followsRow_readX fun _ => followsRow_ok (RowFrame.refl.setX (.head _) _)
  | ldb _ _ _ =>
    exact .body <| followsRow_readX fun _ => followsRow_require nofun fun _ =>
      followsRow_ok (RowFrame.refl.setX (.head _) _)
  | clz _ _ =>
    exact .body <| followsRow_readX fun _ => followsRow_require nofun fun _ => followsRow_require nofun fun _ =>
      followsRow_ok (RowFrame.refl.setX (.head _) _)
  | rinf _ _ _ =>
    exact .body <| followsRow_readX fun _ => followsRow_readX fun _ => (neverUninit_readPrefix _ _).followsRow fun _ =>
      followsRow_ok (RowFrame.refl.setX (.head _) _)
  | rpfx _ _ _ _ =>
    exact .body <| followsRow_readX fun _ => followsRow_readX fun _ => followsRow_readX fun _ =>
      (neverUninit_readPrefix _ _).followsRow fun _ => followsRow_ok (RowFrame.refl.setX (.head _) _)
  | xcmp _ _ =>
    exact .body <| followsRow_readX fun _ => followsRow_readX fun _ => followsRow_ok (RowFrame.refl.setSgn rfl _)
  | ecmp _ _ =>
    exact .body <| followsRow_readE fun _ => followsRow_readE fun _ => followsRow_ok (RowFrame.refl.setSgn rfl _)
  | cmp _ _ =>
    exact .body <| followsRow_readM fun _ => followsRow_readM fun _ => followsRow_ok (RowFrame.refl.setSgn rfl _)
  | cmpx _ _ =>
    exact .body <| followsRow_readM fun _ => followsRow_readX fun _ => followsRow_ok (RowFrame.refl.setSgn rfl _)
  | cmpf _ _ =>
    exact .body <| followsRow_readM fun _ => followsRow_readFloat fun _ => followsRow_ok (RowFrame.refl.setSgn rfl _)
  | fmvx _ _ => exact .body <| followsRow_readX fun _ => followsRow_ok (RowFrame.refl.setF (.head _) _)
  | stb _ _ _ =>
    exact .body <| followsRow_readX fun _ => followsRow_readX fun _ => followsRow_require nofun fun _ =>
      followsRow_ok (RowFrame.refl.setBytes _ _)
  | emov _ _ _ =>
    exact .body <| followsRow_readX fun _ => followsRow_readX fun _ => followsRow_require nofun fun _ =>
      followsRow_ok (RowFrame.refl.setE (.head _) _)
  | emb _ _ | eshr _ _ _ =>
    exact .body <| followsRow_readE fun _ => followsRow_require nofun fun _ =>
      followsRow_ok (RowFrame.refl.setE (.head _) _)
  | emba _ _ _ | emuld _ _ _ =>
    exact .body <| followsRow_readE fun _ => followsRow_readX fun _ => followsRow_require nofun fun _ =>
      followsRow_require nofun fun _ => followsRow_ok (RowFrame.refl.setE (.head _) _)
  | esub _ _ _ =>
    exact .body <| followsRow_readE fun _ => followsRow_readE fun _ => followsRow_require nofun fun _ =>
      followsRow_ok (RowFrame.refl.setE (.head _) _)
  | mov _ _ => exact .body <| followsRow_readM fun _ => followsRow_ok (RowFrame.refl.setM (.head _) _)
  | mfx _ _ => exact .body <| followsRow_readX fun _ => followsRow_ok (RowFrame.refl.setM (.head _) _)
  | add _ _ _ | mul _ _ _ | mull _ _ _ =>
    exact .body <| followsRow_readM fun _ => followsRow_readM fun _ => followsRow_writeChecked (.head _) _
  | addx _ _ _ =>
    exact .body <| followsRow_readM fun _ => followsRow_readX fun _ => followsRow_writeChecked (.head _) _
  | addf _ _ _ =>
    exact .body <| followsRow_readM fun _ => followsRow_readFloat fun _ => followsRow_writeChecked (.head _) _
  | fcvt _ _ => exact .body <| followsRow_readFloat fun _ => followsRow_writeChecked (.head _) _
  | sub _ _ _ =>
    exact .body <| followsRow_readM fun _ => followsRow_readM fun _ =>
      followsRow_ok ((RowFrame.refl.setM (.head _) _).setSgn rfl _)
  | div a b c d => exact execution_divTwo _ false bne_iff_ne.1 (.head _) (.tail _ (.head _)) rfl
  | divl a b c d => exact execution_divTwo _ true bne_iff_ne.1 (.head _) (.tail _ (.head _)) rfl
  | quo _ _ _ | rem _ _ _ =>
    exact .body <| followsRow_readM fun _ => followsRow_readM fun _ =>
      (neverUninit_divide _ _ _ _ _).followsRow fun _ => followsRow_ok (RowFrame.refl.setM (.head _) _)
  | divx _ _ _ _ =>
    exact .body <| followsRow_readM fun _ => followsRow_readX fun _ =>
      (neverUninit_divide _ _ _ _ _).followsRow fun _ =>
        followsRow_ok ((RowFrame.refl.setM (.head _) _).setX (.tail _ (.head _)) _)
  | shl _ _ _ => exact .body <| followsRow_readM fun _ => followsRow_readX fun _ => followsRow_writeShl (.head _) _ _
  | shr _ _ _ =>
    exact .body <| followsRow_readM fun _ => followsRow_readX fun _ => followsRow_ok (RowFrame.refl.setM (.head _) _)
  | shli _ _ _ => exact .body <| followsRow_readM fun _ => followsRow_writeShl (.head _) _ _
  | shri _ _ _ => exact .body <| followsRow_readM fun _ => followsRow_ok (RowFrame.refl.setM (.head _) _)
  | parse a b c d =>
    exact .body <| followsRow_readX fun _ => followsRow_readX fun _ => followsRow_readX fun _ =>
      followsRow_require nofun fun _ => followsRow_parseText a b c d _ _ _
  | fmt a b c d =>
    exact .body <| followsRow_readM fun _ => followsRow_readX fun _ => followsRow_readX fun _ =>
      followsRow_formatText a b c d _ _ _

/-- A command completes or takes a fault from the state before it (60_exceptions.md R280, R285). -/
theorem completed_or_fault_of_exec {u : State} (h : exec i s = .next u) :
    Completed i s u ∨ ∃ e, u = takeFault s e := by
  have hexec := execution_exec i s
  rw [h] at hexec
  generalize ho : Host.Outcome.next u = o at hexec
  cases hexec with
  | body hrow =>
    obtain ⟨t, ht, rfl⟩ | ⟨e, -, rfl⟩ := finish_eq_next.1 ho.symm
    · exact .inl (hrow.completed t ht)
    · exact .inr ⟨e, rfl⟩
  | control _ hu => cases ho; exact .inl hu

theorem rowFrame_of_exec {u : State} (h : exec i s = .next u) : RowFrame i s u := by
  obtain hu | ⟨e, rfl⟩ := completed_or_fault_of_exec h
  · exact hu.frame
  · exact .takeFault e

/-- A completion leaves the core not FAULTED, if it was not before. -/
theorem Completed.ne_takeFault {u : State} (h : Completed i s u) (hs : s.runState = .running) (e : Trap) :
    u ≠ takeFault s e := by
  rintro rfl
  obtain ⟨-, hu⟩ | hu := h.runState
  · cases hu
  · cases hu.trans hs

theorem regFileCode_injective {p q : RegFile} (h : (regFileCode p).toNat = (regFileCode q).toNat) : p = q := by
  cases p <;> cases q <;> simp [regFileCode] at h ⊢

/-- FAULT_INFO of UNINIT is the file's code above the register's number (60_exceptions.md R284). -/
theorem trapInfo_uninit_toNat (file : RegFile) (r : BitVec 4) :
    (trapInfo (.uninit file r)).toNat = 16 * (regFileCode file).toNat + r.toNat := by
  have hf := (regFileCode file).isLt
  have hr := r.isLt
  rw [trapInfo, BitVec.toNat_setWidth, BitVec.toNat_append, Nat.shiftLeft_eq, ← Nat.mul_comm (2 ^ 4),
    ← Nat.two_pow_add_eq_or_of_lt hr]
  omega

/-- UNINIT entry tells the register: the cause code is UNINIT's own and FAULT_INFO holds the file and the number
(60_exceptions.md R282, R284). -/
theorem eq_uninit_of_takeFault_eq {e : Trap} {file : RegFile} {r : BitVec 4}
    (h : takeFault s e = takeFault s (.uninit file r)) : e = .uninit file r := by
  have hcause : trapCause e = trapCause (.uninit file r) := congrArg State.faultCause h
  have hinfo : trapInfo e = trapInfo (.uninit file r) := congrArg State.faultInfo h
  cases e with
  | uninit file' r' =>
    have hnat := congrArg BitVec.toNat hinfo
    rw [trapInfo_uninit_toNat, trapInfo_uninit_toNat] at hnat
    have hr := r.isLt
    have hr' := r'.isLt
    obtain rfl : file' = file := regFileCode_injective (by omega)
    obtain rfl : r' = r := BitVec.eq_of_toNat_eq (by omega)
    rfl
  | _ => simp [trapCause] at hcause

/-! ### The fault record (10_state.md R35 to R37) -/

theorem recordOk_takeFault (s : State) (e : Trap) : RecordOk (takeFault s e) := by
  have hcode : (trapCause e).toNat ≤ 8 ∧ trapCause e ≠ 0 := by cases e <;> simp [trapCause]
  exact ⟨hcode.1, fun h => absurd h hcode.2, fun _ => ⟨hcode.2, rfl⟩⟩

/-- A record that was kept is still one when the core is not FAULTED. -/
theorem RecordOk.of_keepsRecord (h : RecordOk s) (hk : KeepsRecord s t) (ht : t.runState ≠ .faulted) : RecordOk t where
  code := hk.cause ▸ h.code
  clear hc := by
    rw [hk.pc, hk.info]
    exact h.clear (hk.cause ▸ hc)
  faulted hf := absurd hf ht

theorem Completed.recordOk {u : State} (hu : Completed i s u) (h : RecordOk s) (hs : s.runState = .running) :
    RecordOk u := by
  refine h.of_keepsRecord hu.record ?_
  obtain ⟨-, hi⟩ | hr := hu.runState
  · rw [hi]; nofun
  · rw [hr, hs]; nofun

theorem RecordOk.runStep (h : RecordOk s) (hs : s.runState = .running) (ht : runStep s = .next t) : RecordOk t := by
  unfold Machine.runStep at ht
  split at ht
  · cases ht; exact recordOk_takeFault s _
  · split at ht
    · cases ht; exact recordOk_takeFault s _
    · obtain hu | ⟨e, rfl⟩ := completed_or_fault_of_exec ht
      · exact hu.recordOk h hs
      · exact recordOk_takeFault s e

theorem RecordOk.step (h : RecordOk s) (ht : step s = .next t) : RecordOk t := by
  unfold Machine.step at ht
  split at ht
  · next hs => exact h.runStep hs ht
  · cases ht; exact h
  · cases ht; exact h

/-- A property of the state before an operation and of its effect holds after it, allowed or not (R302). -/
theorem allowedIf_induction {P : State → Prop} {c : Bool} {r : State × HostReply} (hs : P s) (hr : P r.1) :
    P (allowedIf c s r).1 := by
  unfold allowedIf
  split
  · exact hr
  · exact hs

theorem allowedIf_fst {c : Bool} {r : State × HostReply} (hr : r.1 = s) : (allowedIf c s r).1 = s :=
  allowedIf_induction (P := (· = s)) rfl hr

theorem RecordOk.setReg (h : RecordOk s) (q : BitVec 4) (v : RegValue) : RecordOk (setReg s q v) := by
  cases v <;> exact ⟨h.code, h.clear, h.faulted⟩

theorem hostReadCsr_fst (n : BitVec 16) : (hostReadCsr s n).1 = s := by
  unfold hostReadCsr
  split <;> rfl

/-- Reset clears the record and start leaves FAULTED (60_exceptions.md R297, R301); nothing else the host does
touches the record, the pc or STATE. -/
theorem RecordOk.hostEffect (h : RecordOk s) (op : HostOp) : RecordOk (hostEffect s op).1 := by
  cases op with
  | reset => exact ⟨Nat.zero_le _, fun _ => ⟨rfl, rfl⟩, nofun⟩
  | writeReg q v => exact allowedIf_induction h (h.setReg q v)
  | writeImem q w => exact allowedIf_induction h ⟨h.code, h.clear, h.faulted⟩
  | writeTmem addr byte => exact allowedIf_induction h ⟨h.code, h.clear, h.faulted⟩
  | start pc => exact ⟨h.code, h.clear, nofun⟩
  | readReg file q => exact h
  | readCsr n => exact (hostReadCsr_fst n).symm ▸ h
  | readImem q => exact allowedIf_induction h h
  | readTmem addr => exact allowedIf_induction h h

/-! ### The host's reads -/

/-- The STATUS poll is always allowed, and reads RUNNING while the core runs (10_state.md R31, R33). -/
theorem hostMove_poll_of_running (hs : s.runState = .running) : hostMove (.readCsr 0) s = (s, .csr 1) :=
  calc hostMove (.readCsr 0) s = hostReadCsr s (csrCode .status) := rfl
    _ = (s, .csr (csrValue s .status)) := hostReadCsr_csrCode .status
    _ = (s, .csr 1) := by rw [csrValue, hs]; rfl

/-! ### The obligations -/

/-- Settles O10: every command reads the registers of its row first, in its order, and nothing after the reads raises
UNINIT. -/
theorem uninitComesFirst : Obligations.UninitComesFirst := by
  intro i s hw
  have hexec := execution_exec i s
  unfold RaisesUninit Raises
  generalize exec i s = o at hexec
  cases hexec with
  | body hrow =>
    have huninit := hrow.uninit hw
    refine ⟨fun p hp => ?_, fun file r hs h => ?_⟩
    · rw [(huninit p.1 p.2).2 hp, finish_error]
    · obtain ⟨t, ht, hu⟩ | ⟨e, he, hu⟩ := finish_eq_next.1 h
      · exact absurd hu.symm ((hrow.completed t ht).ne_takeFault hs _)
      · exact (huninit file r).1 (eq_uninit_of_takeFault_eq hu.symm ▸ he)
  | control hreads hu =>
    rw [hreads]
    exact ⟨nofun, fun file r hs h => absurd (Host.Outcome.next.inj h) (hu.ne_takeFault hs _)⟩

/-- Settles O12: the registers' part of the row's frame. -/
theorem registerFrame : Obligations.RegisterFrame := by
  intro i s t h
  obtain ⟨hx, hm, he, hf, -, -⟩ := rowFrame_of_exec h
  exact ⟨hx, hm, he, hf⟩

/-- Settles O13: the flags' part of the row's frame. -/
theorem flagFrame : Obligations.FlagFrame := fun _ _ _ h => ⟨(rowFrame_of_exec h).sgn, (rowFrame_of_exec h).perr⟩

/-- Settles O15: a completion keeps what `Completed` says, and fault entry keeps IMEM and the parameters. -/
theorem controlFrame : Obligations.ControlFrame := by
  intro i s t hs h
  obtain hu | ⟨e, rfl⟩ := completed_or_fault_of_exec h
  · refine ⟨hu.code, fun _ => ⟨hu.record, hu.pc, fun hi => ?_⟩⟩
    obtain ⟨hhalt, -⟩ | hr := hu.runState
    · exact absurd hhalt hi
    · exact hr.trans hs
  · exact ⟨⟨rfl, rfl, fun _ => rfl⟩, fun hf => absurd rfl hf⟩

/-- Settles O19: fault entry writes a record, a completion and a host operation keep it, and reset clears it. -/
theorem faultRecordMove : Obligations.FaultRecordMove := by
  intro agent s t h ht
  cases agent with
  | core => exact h.step ht
  | host op =>
    cases ht
    exact allowedIf_induction h (h.hostEffect op)

/-- Settles O24: while the core runs only the poll and reset take effect; while it does not, each read has its effect,
under the conditions the statement gives. -/
theorem hostReadsAndRefusals : Obligations.HostReadsAndRefusals := by
  refine ⟨fun op s hs => ⟨hostMove_of_running hs, hostMove_poll_of_running hs⟩, fun s hp hs => ?_,
    fun s file q n k => ?_⟩
  · simp only [hostMove_of_stopped hs, hostEffect]
    refine ⟨fun csr => ⟨_, hostReadCsr_csrCode csr, csrValue_of_stopped hp hs csr⟩,
      fun q => ⟨rfl, rfl, rfl, rfl⟩, fun q hq => ?_, fun a ha => ?_⟩
    · rw [hostReadImem, decide_eq_true hq]; rfl
    · rw [hostReadTmem, decide_eq_true ha]; rfl
  · exact ⟨allowedIf_fst rfl, allowedIf_fst (hostReadCsr_fst n), allowedIf_fst (allowedIf_fst rfl),
      allowedIf_fst (allowedIf_fst rfl)⟩

end Sys2Proof.Machine
end

section
/-! PROOF. TMEM, the text alphabets and the fetch: what a command stores (20_memory.md R52, R55), which character stands
for which value (R66, 46_radix.md R226 to R231), and the faults of a step before it executes anything (20_memory.md
R51, 30_encoding.md R80). -/

namespace Sys2Proof.Machine

variable {s : State}

/-! ### A step of a running core (47_control_move.md R250) -/

theorem step_of_running (hs : s.runState = .running) : step s = runStep s := by rw [step, hs]

theorem runStep_of_fetch_error {e : Trap} (h : fetch s = .error e) : runStep s = .next (takeFault s e) := by
  rw [runStep, h]

theorem runStep_of_decode_error {w : Word} {e : DecodeError} (hf : fetch s = .ok w) (hd : decode w = .error e) :
    runStep s = .next (takeFault s (.illegal w)) := by
  simp only [runStep, hf, hd]

/-! ### Alphabets as runs of character codes (20_memory.md R66) -/

theorem inRun_eq_some {ch first last base v : Nat} :
    inRun ch first last base = some v ↔ (first ≤ ch ∧ ch ≤ last) ∧ ch + base = first + v := by
  simp only [inRun, Option.ite_none_right_eq_some, Option.some.injEq]
  omega

theorem inRun_eq_none {ch first last base : Nat} :
    inRun ch first last base = none ↔ ¬ (first ≤ ch ∧ ch ≤ last) := by
  simp [inRun]

/-- The code of value `v`, when the values from `base` on begin with a run of `n` characters from `first`. -/
theorem getElem?_run_append {first n base v c : Nat} {rest : List Nat} :
    base ≤ v ∧ (List.range' first n ++ rest)[v - base]? = some c ↔
      (base ≤ v ∧ v < base + n) ∧ c + base = first + v ∨
        base + n ≤ v ∧ rest[v - (base + n)]? = some c := by
  rw [List.getElem?_append, List.length_range', Nat.sub_sub]
  split
  · rw [List.getElem?_range' (by assumption), Option.some.injEq]
    omega
  · rw [or_iff_right (by omega)]
    exact and_congr_left fun _ => by omega

/-- The character at an index by its code, in the form in which `getElem?_run_append` walks along the runs. -/
theorem isCharAt_iff {alphabet : List Char} {v : Nat} {ch : Byte} :
    IsCharAt alphabet v ch ↔ 0 ≤ v ∧ (alphabet.map Char.toNat)[v - 0]? = some ch.toNat := by
  rw [IsCharAt, Nat.sub_zero, List.getElem?_map, and_iff_right v.zero_le]

theorem lowerAlphabet_codes : lowerAlphabet.map Char.toNat = List.range' 0x30 10 ++ (List.range' 0x61 26 ++ []) := by
  decide

theorem upperAlphabet_codes : upperAlphabet.map Char.toNat = List.range' 0x30 10 ++ (List.range' 0x41 26 ++ []) := by
  decide

theorem wideAlphabet_codes : wideAlphabet.map Char.toNat =
    List.range' 0x41 26 ++ (List.range' 0x61 26 ++ (List.range' 0x30 10 ++ (List.range' 0x2B 1 ++
      (List.range' 0x2F 1 ++ [])))) := by
  decide

/-- The value of a character in an alphabet of radix ≤ 36, in either case (46_radix.md R226). -/
theorem alphabetLow_eq_some {ch : Byte} {v : Nat} :
    alphabetLow ch.toNat = some v ↔ IsCharAt lowerAlphabet v ch ∨ IsCharAt upperAlphabet v ch := by
  rw [isCharAt_iff, isCharAt_iff, lowerAlphabet_codes, upperAlphabet_codes]
  simp only [alphabetLow, Option.orElse_eq_some, inRun_eq_some, inRun_eq_none, getElem?_run_append,
    List.getElem?_nil, reduceCtorEq, and_false, or_false]
  omega

/-- The value of a character in the alphabet of radix 37 to 64 (46_radix.md R227), run by run. -/
theorem alphabetHigh_eq_some {ch : Byte} {v : Nat} :
    alphabetHigh ch.toNat = some v ↔ IsCharAt wideAlphabet v ch := by
  rw [isCharAt_iff, wideAlphabet_codes]
  simp only [alphabetHigh, Option.orElse_eq_some, inRun_eq_some, inRun_eq_none, getElem?_run_append,
    List.getElem?_nil, reduceCtorEq, and_false, or_false]
  constructor
  · rintro (h | ⟨-, h | ⟨-, h | ⟨-, h | ⟨-, h⟩⟩⟩⟩) <;> omega
  · rintro (h | h | h | h | h) <;> omega

theorem charValue_eq_some {ch : Byte} {r v : Nat} :
    charValue ch r = some v ↔
      v < r ∧ (if r ≤ 36 then IsCharAt lowerAlphabet v ch ∨ IsCharAt upperAlphabet v ch
        else IsCharAt wideAlphabet v ch) := by
  rw [charValue, Option.filter_eq_some_iff, decide_eq_true_eq, and_comm]
  split
  · rw [alphabetLow_eq_some]
  · rw [alphabetHigh_eq_some]

/-- Up to radix 36 FMT writes lower case (46_radix.md R231). -/
theorem isCharAt_lowerAlphabet_outputChar {r v : Nat} (hr : r ≤ 36) (hv : v < 36) :
    IsCharAt lowerAlphabet v (outputChar r v) := by
  rw [isCharAt_iff, lowerAlphabet_codes, outputChar, if_pos hr, BitVec.toNat_ofNat]
  simp only [getElem?_run_append]
  split <;> omega

/-- From radix 37 on the alphabet has one case, so FMT's character is the one PARSE reads (46_radix.md R247). -/
theorem isCharAt_wideAlphabet_outputChar {r v : Nat} (h36 : ¬ r ≤ 36) (hr : r ≤ 64) (hv : v < r) :
    IsCharAt wideAlphabet v (outputChar r v) := by
  have hchar := (charValue_eq_some.1 (charValue_outputChar hr hv)).2
  rwa [if_neg h36] at hchar

/-! ### What a command may store (20_memory.md R52, R55) -/

section
variable {addr n : Nat}

theorem keepsTmemOutside_setBytes (h : Memory.wf s.tmem) {vs : List Byte} (hn : vs.length = n) :
    KeepsTmemOutside addr n s (setBytes s addr vs) := fun a ha => by
  rw [tmemByte_setBytes s addr vs a h, hn, if_pos ha]

/-- Every next state of the outcome keeps TMEM outside the range. -/
def NextStoresIn (addr n : Nat) (s : State) (o : Host.Outcome State Fault Refusal) : Prop :=
  ∀ t, o = .next t → KeepsTmemOutside addr n s t

theorem nextStoresIn_next {t : State} (h : KeepsTmemOutside addr n s t) : NextStoresIn addr n s (.next t) := by
  rintro _ ⟨⟩; exact h

/-- A command stores in a range if what it writes does: neither fault entry nor the pc is in TMEM. -/
theorem nextStoresIn_finish {r : Except Trap State} (hr : OnOk (KeepsTmemOutside addr n s) r) :
    NextStoresIn addr n s (finish s r) := by
  intro u hu
  obtain ⟨t, ht, rfl⟩ | ⟨e, -, rfl⟩ := finish_eq_next.1 hu
  · exact hr t ht
  · exact fun _ _ => rfl

/-- A command that ends in writes to registers and flags stores nothing. -/
theorem onOk_keepsTmem {t : State} (h : KeepsTmem s t := by exact fun _ => rfl) :
    OnOk (KeepsTmemOutside addr n s) (.ok t) := onOk_ok fun a _ => h a

theorem nextStoresIn_br (cond : Cond) (off : BitVec 16) : NextStoresIn addr n s (execBr cond off s) := by
  unfold execBr
  split
  · exact nextStoresIn_next fun _ _ => rfl
  · exact nextStoresIn_next fun _ _ => rfl

/-- PARSE writes M[a] and PERR only, whatever the text (46_radix.md R230). -/
theorem onOk_parseText_keepsTmem (a : MReg) (start len r : Nat) :
    OnOk (KeepsTmemOutside addr n s) (parseText s a start len r) := by
  unfold parseText
  split
  · exact onOk_keepsTmem
  split
  · exact onOk_keepsTmem
  split
  · exact onOk_keepsTmem
  · rw [writeChecked, bind_assoc]
    exact onOk_seq fun _ => onOk_keepsTmem

end

theorem nextStoresIn_stb (h : Memory.wf s.tmem) (a b : XReg) (imm : BitVec 16) :
    NextStoresIn (storeRange (.stb a b imm) s).1 (storeRange (.stb a b imm) s).2 s (execStb a b imm s) := by
  refine nextStoresIn_finish <| OnOk.bind (fun _ => readX_eq_ok.1) fun base hb => onOk_seq fun _ => onOk_seq fun _ =>
    onOk_ok ?_
  rw [storeRange, hb]
  exact keepsTmemOutside_setBytes h rfl

/-- FMT stores the text of the announced length from X[c], or only writes PERR (46_radix.md R232 to R234). -/
theorem Inv.onOk_formatText_storesIn (h : Inv s) (a : XReg) {m : Magnitude} (hm : canonical s.params.base m = true)
    (addr r : Nat) :
    OnOk (KeepsTmemOutside addr (fmtLen r (val s.params.base m)) s) (formatText s a m addr r) := by
  unfold formatText
  split
  · exact onOk_keepsTmem
  next hr =>
    have hr2 : 2 ≤ r := (legalRadix_iff.1 (by simpa using hr)).1
    exact onOk_seq fun _ => (h.onOk_formatMag hm hr2).bind fun text hlen =>
      onOk_ok (keepsTmemOutside_setBytes h.tmem hlen)

theorem Inv.nextStoresIn_fmt (h : Inv s) (a : XReg) (b : MReg) (c d : XReg) :
    NextStoresIn (storeRange (.fmt a b c d) s).1 (storeRange (.fmt a b c d) s).2 s (execFmt a b c d s) := by
  refine nextStoresIn_finish <| OnOk.bind (fun _ => readM_eq_ok.1) fun m hb => OnOk.bind (fun _ => readX_eq_ok.1)
    fun addr hc => OnOk.bind (fun _ => readX_eq_ok.1) fun r hd => ?_
  rw [storeRange, hb, hc, hd]
  exact h.onOk_formatText_storesIn a (h.magnitudes b m hb).1 _ _

/-- Every command stores in its store range: STB and FMT have one, and every other command ends, after its reads and
checks, in writes to registers and flags. The arms stand by the number of those reads and checks. -/
theorem Inv.nextStoresIn_exec (h : Inv s) (i : Instr) :
    NextStoresIn (storeRange i s).1 (storeRange i s).2 s (exec i s) := by
  cases i with
  | stb a b imm => exact nextStoresIn_stb h.tmem a b imm
  | fmt a b c d => exact h.nextStoresIn_fmt a b c d
  | nop | halt => exact nextStoresIn_next fun _ _ => rfl
  | br cond off => exact nextStoresIn_br cond off
  | csrr _ _ | li _ _ => exact nextStoresIn_finish onOk_keepsTmem
  | lih _ _ | xaddi _ _ _ | mov _ _ | mfx _ _ | len _ _ | fmvx _ _ | digv _ _ | digvf _ _ | edl _ _ | edm _ _ | edh _ _
  | esz _ _ | vlo _ _ | vhi _ _ | vsz _ _ | sodd _ _ | sodb _ _ | shri _ _ _ | fdcnt _ _ =>
    exact nextStoresIn_finish <| onOk_seq fun _ => onOk_keepsTmem
  | xcmp _ _ | getd _ _ _ | ldb _ _ _ | emb _ _ | eshr _ _ _ | ecmp _ _ | cmp _ _ | cmpx _ _ | cmpf _ _ | sub _ _ _
  | shli _ _ _ | shr _ _ _ | fcvt _ _ =>
    exact nextStoresIn_finish <| onOk_seq fun _ => onOk_seq fun _ => onOk_keepsTmem
  | emov _ _ _ | esub _ _ _ | clz _ _ | add _ _ _ | addx _ _ _ | addf _ _ _ | mul _ _ _ | mull _ _ _ | quo _ _ _
  | rem _ _ _ | divx _ _ _ _ | shl _ _ _ | rinf _ _ _ =>
    exact nextStoresIn_finish <| onOk_seq fun _ => onOk_seq fun _ => onOk_seq fun _ => onOk_keepsTmem
  | emba _ _ _ | emuld _ _ _ | div _ _ _ _ | divl _ _ _ _ | rpfx _ _ _ _ =>
    exact nextStoresIn_finish <| onOk_seq fun _ => onOk_seq fun _ => onOk_seq fun _ => onOk_seq fun _ => onOk_keepsTmem
  | parse a _ _ _ =>
    exact nextStoresIn_finish <| onOk_seq fun _ => onOk_seq fun _ => onOk_seq fun _ => onOk_seq fun _ =>
      onOk_parseText_keepsTmem a _ _ _

/-! ### The obligations -/

/-- Settles O6: outside IMEM the fetch faults, and inside it answers the word, which does not decode. -/
theorem stepFetchFaults : Obligations.StepFetchFaults := by
  intro s hs
  rw [step_of_running hs]
  exact ⟨fun hpc => runStep_of_fetch_error (fetch_eq_error.2 ⟨hpc, rfl⟩),
    fun _ hpc hd => runStep_of_decode_error (fetch_eq_ok.2 ⟨hpc, rfl⟩) hd⟩

/-- Settles O14: by cases on the command, whose stores go through `setBytes`. -/
theorem memoryFrame : Obligations.MemoryFrame := fun i _ t h ht => h.nextStoresIn_exec i t ht

/-- Settles O52: the model's runs of character codes are the alphabets, and `outputChar` picks from the same runs. -/
theorem alphabets : Obligations.Alphabets := by
  refine fun r v _ hr => ⟨fun ch => charValue_eq_some, fun hv => ?_⟩
  split
  next h => exact isCharAt_lowerAlphabet_outputChar h (hv.trans_le h)
  next h => exact isCharAt_wideAlphabet_outputChar h hr hv

end Sys2Proof.Machine
end

section
/-! PROOF. The decoder, the encoder and the opcode table (30_encoding.md R71 to R88): every arm of the decoder answers
what the row of its opcode says, and both directions of the round trip follow. Then BR and the pseudo-instructions. -/

namespace Sys2Proof.Machine

variable {w : Word} {i : Instr} {s t : State}

/-! ### Conditions and CSR numbers (30_encoding.md R83, 10_state.md R32) -/

theorem condOf_eq_none {n : BitVec 4} : condOf n = none ↔ 9 ≤ n.toNat := by
  revert n
  decide

theorem csrOf_eq_none {n : BitVec 16} : csrOf n = none ↔ ¬ (n.toNat ≤ 4 ∨ 0x10 ≤ n.toNat ∧ n.toNat ≤ 0x18) := by
  unfold csrOf
  split <;> grind

theorem condCode_of_condOf {n : BitVec 4} {c : Cond} (h : condOf n = some c) : condCode c = n := by
  unfold condOf at h
  split at h <;> cases h <;> exact BitVec.eq_of_toNat_eq (Eq.symm ‹_›)

theorem csrCode_of_csrOf {n : BitVec 16} {c : Csr} (h : csrOf n = some c) : csrCode c = n := by
  unfold csrOf at h
  split at h <;> cases h <;> exact BitVec.eq_of_toNat_eq (Eq.symm ‹_›)

theorem condCode_assigned (c : Cond) : (condCode c).toNat ≤ 8 := by
  have h := mt condOf_eq_none.2 (condOf_condCode c ▸ Option.some_ne_none c)
  omega

theorem csrCode_assigned (c : Csr) :
    (csrCode c).toNat ≤ 4 ∨ 0x10 ≤ (csrCode c).toNat ∧ (csrCode c).toNat ≤ 0x18 :=
  of_not_not (mt csrOf_eq_none.2 (csrOf_csrCode c ▸ Option.some_ne_none c))

/-! ### Words by their fields (30_encoding.md R71) -/

theorem toNat_fieldOp (w : Word) : (fieldOp w).toNat = w.toNat / 2 ^ 24 := by
  rw [fieldOp, BitVec.extractLsb'_toNat, Nat.shiftRight_eq_div_pow]
  omega

theorem toNat_fieldA (w : Word) : (fieldA w).toNat = w.toNat / 2 ^ 20 % 2 ^ 4 := by
  rw [fieldA, BitVec.extractLsb'_toNat, Nat.shiftRight_eq_div_pow]

theorem toNat_fieldD (w : Word) : (fieldD w).toNat = w.toNat / 2 ^ 8 % 2 ^ 4 := by
  rw [fieldD, BitVec.extractLsb'_toNat, Nat.shiftRight_eq_div_pow]

theorem toNat_fieldImm16 (w : Word) : (fieldImm16 w).toNat = w.toNat % 2 ^ 16 := by
  rw [fieldImm16, BitVec.extractLsb'_toNat, Nat.shiftRight_zero]

/-- Format N: the bits below the opcode are 0 when every field of format R is (R72, R75). -/
theorem extract_below_op_eq_zero : w.extractLsb' 0 24 = 0#24 ↔
    fieldA w = 0 ∧ fieldB w = 0 ∧ fieldC w = 0 ∧ fieldD w = 0 ∧ fieldImm8 w = 0 := by
  simp only [← BitVec.toNat_inj, fieldA, fieldB, fieldC, fieldD, fieldImm8, BitVec.extractLsb'_toNat,
    Nat.shiftRight_eq_div_pow, BitVec.ofNat_eq_ofNat, BitVec.toNat_zero]
  omega

theorem packR_eq_iff {o : BitVec 8} {a b c d : BitVec 4} {k : BitVec 8} :
    packR o a b c d k = w ↔
      fieldOp w = o ∧ fieldA w = a ∧ fieldB w = b ∧ fieldC w = c ∧ fieldD w = d ∧ fieldImm8 w = k := by
  constructor
  · rintro rfl
    simp
  · rintro ⟨rfl, rfl, rfl, rfl, rfl, rfl⟩
    exact packR_fields w

theorem packI_eq_iff {o : BitVec 8} {a b : BitVec 4} {k : BitVec 16} :
    packI o a b k = w ↔ fieldOp w = o ∧ fieldA w = a ∧ fieldB w = b ∧ fieldImm16 w = k := by
  constructor
  · rintro rfl
    simp
  · rintro ⟨rfl, rfl, rfl, rfl⟩
    exact packI_fields w

/-! ### The extra conditions (30_encoding.md R80 (3), (4), (5)) -/

theorem extraConditions_iff : extraConditions w = true ↔
    ((fieldOp w).toNat = 0x04 → (fieldA w).toNat ≤ 8) ∧
    ((fieldOp w).toNat = 0x05 →
      (fieldImm16 w).toNat ≤ 4 ∨ 0x10 ≤ (fieldImm16 w).toNat ∧ (fieldImm16 w).toNat ≤ 0x18) ∧
    ((fieldOp w).toNat = 0x58 ∨ (fieldOp w).toNat = 0x59 → fieldA w ≠ fieldD w) := by
  simp only [extraConditions, ← toNat_fieldOp, ← toNat_fieldA, ← toNat_fieldD, ← toNat_fieldImm16, ne_eq,
    BitVec.toNat_inj]
  generalize (fieldOp w).toNat = op
  split
  · simp [*]
  split
  · simp [*]
  · simp [*, imp_iff_not_or]

/-- An Instr holds only assigned conditions and CSRs, so of its encoding they ask its well-formedness. -/
theorem extraConditions_encode (i : Instr) : extraConditions (encode i) = i.wellFormed := by
  rw [Bool.eq_iff_iff, extraConditions_iff]
  cases i with
  | br c _ => simp [encode, Instr.wellFormed, condCode_assigned c]
  | csrr _ csr => simp [encode, Instr.wellFormed, csrCode_assigned csr]
  | _ => simp [encode, Instr.wellFormed]

/-! ### The rows of the table (30_encoding.md R88) -/

/-- The row of opcode `n` whose mask covers the opcode and these bits of the other fields, which its words have 0. -/
def rowOf (name : String) (n : Nat) (ma mb mc md : BitVec 4) (mi : BitVec 8) : OpcodeRow :=
  ⟨name, packR 0xFF ma mb mc md mi, packR (BitVec.ofNat 8 n) 0 0 0 0 0⟩

@[simp] theorem and_allOnes_four (x : BitVec 4) : x &&& 15#4 = x := BitVec.and_allOnes
@[simp] theorem and_allOnes_eight (x : BitVec 8) : x &&& 255#8 = x := BitVec.and_allOnes

theorem matches_rowOf {name : String} {n : Nat} {ma mb mc md : BitVec 4} {mi : BitVec 8} :
    (rowOf name n ma mb mc md mi).matches w = true ↔
      fieldOp w = BitVec.ofNat 8 n ∧ fieldA w &&& ma = 0 ∧ fieldB w &&& mb = 0 ∧ fieldC w &&& mc = 0 ∧
        fieldD w &&& md = 0 ∧ fieldImm8 w &&& mi = 0 := by
  have hand := packR_and (fieldOp w) 0xFF (fieldA w) (fieldB w) (fieldC w) (fieldD w) ma mb mc md (fieldImm8 w) mi
  rw [packR_fields w] at hand
  rw [OpcodeRow.matches, rowOf, decide_eq_true_iff, hand, eq_comm, packR_eq_iff]
  simp

theorem opcodeRows_opcode_nodup : (opcodeRows.map fun row => fieldOp row.pattern).Nodup := by decide

theorem opcodeRows_mask_opcode : ∀ row ∈ opcodeRows, fieldOp row.mask = 0xFF := by decide

/-- A row is known by its opcode. -/
theorem row_eq_of_opcode {p q : OpcodeRow} (hp : p ∈ opcodeRows) (hq : q ∈ opcodeRows)
    (h : fieldOp p.pattern = fieldOp q.pattern) : p = q :=
  List.inj_on_of_nodup_map opcodeRows_opcode_nodup hp hq h

theorem fieldOp_of_matches {row : OpcodeRow} (hrow : row ∈ opcodeRows) (h : row.matches w = true) :
    fieldOp row.pattern = fieldOp w := by
  have hpattern : w &&& row.mask = row.pattern := of_decide_eq_true h
  calc fieldOp row.pattern = fieldOp w &&& fieldOp row.mask := by
        rw [← hpattern, fieldOp, BitVec.extractLsb'_and]; rfl
    _ = fieldOp w := by rw [opcodeRows_mask_opcode row hrow]; exact and_allOnes_eight _

/-! ### The decoder against the table (30_encoding.md R79, R84) -/

/-- An arm of the decoder answers a command only for a word of the row's form, and that word is the command's encoding;
and it answers a command for every such word that meets the extra conditions. -/
structure DecodesRow (row : OpcodeRow) (w : Word) (r : Except DecodeError Instr) : Prop where
  sound : ∀ i, r = .ok i → row.matches w = true ∧ mnemonicOf i = row.mnemonic ∧ encode i = w
  accepts : row.matches w = true → extraConditions w = true → ∃ i, r = .ok i

/-- The word's opcode is of no row and is refused (R80 (1)), or the answer is that of the row of its opcode. -/
inductive DecodesTable (w : Word) (r : Except DecodeError Instr) : Prop
  | unassigned (hop : ∀ row ∈ opcodeRows, fieldOp row.pattern ≠ fieldOp w) (hr : r = .error .unassignedOpcode)
  | row {row : OpcodeRow} (hrow : row ∈ opcodeRows) (hop : fieldOp row.pattern = fieldOp w) (h : DecodesRow row w r)

/-- An arm that answers one command under a condition which says both that the word has the row's form and that it is
the command's encoding. -/
theorem decodesRow_ite {row : OpcodeRow} {c : Prop} [Decidable c] {e : DecodeError}
    (hname : mnemonicOf i = row.mnemonic) (hmatch : row.matches w = true ↔ c) (henc : encode i = w ↔ c) :
    DecodesRow row w (if c then .ok i else .error e) := by
  split
  next h => exact ⟨by rintro _ ⟨⟩; exact ⟨hmatch.2 h, hname, henc.2 h⟩, fun _ _ => ⟨i, rfl⟩⟩
  next h => exact ⟨nofun, fun hm => absurd (hmatch.1 hm) h⟩

/-- A word of the row's form that the extra conditions refuse. -/
theorem decodesRow_refused {row : OpcodeRow} {r : Except DecodeError Instr} (hr : ∀ i, r ≠ .ok i)
    (hx : ¬ extraConditions w = true) : DecodesRow row w r :=
  ⟨fun i h => absurd h (hr i), fun _ h => absurd h hx⟩

section
variable {n : Nat} (hn : (fieldOp w).toNat = n)
include hn

theorem fieldOp_of_toNat : fieldOp w = BitVec.ofNat 8 n := by
  rw [← hn, BitVec.ofNat_toNat, BitVec.setWidth_eq]

/-- An arm that checks the unused fields only, against the row whose mask covers these bits below the opcode. -/
theorem decodesTable_ite (ma mb mc md : BitVec 4) (mi : BitVec 8) {name : String} {c : Prop} [Decidable c]
    {e : DecodeError} (hrow : decide (rowOf name n ma mb mc md mi ∈ opcodeRows) = true) (hname : mnemonicOf i = name)
    (hc : fieldA w &&& ma = 0 ∧ fieldB w &&& mb = 0 ∧ fieldC w &&& mc = 0 ∧ fieldD w &&& md = 0 ∧
      fieldImm8 w &&& mi = 0 ↔ c) (henc : encode i = w ↔ c) : DecodesTable w (if c then .ok i else .error e) := by
  have hop := fieldOp_of_toNat hn
  refine .row (of_decide_eq_true hrow) (by rw [hop, rowOf, fieldOp_packR]) (decodesRow_ite hname ?_ henc)
  rw [matches_rowOf, hc, and_iff_right hop]

end

theorem decodesTable_shapeBranch (hn : (fieldOp w).toNat = 0x04) : DecodesTable w (shapeBranch w .br) := by
  unfold shapeBranch
  cases hc : condOf (fieldA w) with
  | some c =>
    exact decodesTable_ite hn 0 15 0 0 0 rfl rfl (by simp)
      (by simp [encode, packI_eq_iff, fieldOp_of_toNat hn, condCode_of_condOf hc])
  | none =>
    refine .row (row := rowOf "BR" 0x04 0 15 0 0 0) (by decide) (fieldOp_of_toNat hn).symm
      (decodesRow_refused (by split <;> nofun) fun hx => ?_)
    have hle := (extraConditions_iff.1 hx).1 hn
    have hge := condOf_eq_none.1 hc
    omega

theorem decodesTable_shapeCsr (hn : (fieldOp w).toNat = 0x05) : DecodesTable w (shapeCsr w .csrr) := by
  unfold shapeCsr
  cases hc : csrOf (fieldImm16 w) with
  | some c =>
    exact decodesTable_ite hn 0 15 0 0 0 rfl rfl (by simp)
      (by simp [encode, packI_eq_iff, fieldOp_of_toNat hn, csrCode_of_csrOf hc])
  | none =>
    refine .row (row := rowOf "CSRR" 0x05 0 15 0 0 0) (by decide) (fieldOp_of_toNat hn).symm
      (decodesRow_refused (by split <;> nofun) fun hx => ?_)
    exact csrOf_eq_none.1 hc ((extraConditions_iff.1 hx).2.1 hn)

/-- Every arm of the decoder by the fields its commands use (R79). The cases are numbered in the order of the opcode map
(R78); the last one is every other opcode. -/
theorem decodesTable (w : Word) : DecodesTable w (decodeByOpcode w) := by
  unfold decodeByOpcode
  split
  -- no operand (R72)
  case h_1 h | h_2 h =>
    exact decodesTable_ite h 15 15 15 15 255 rfl rfl (by simp [extract_below_op_eq_zero])
      (by simp [encode, packR_eq_iff, fieldOp_of_toNat h, extract_below_op_eq_zero])
  -- cond and offset (R73); a and a CSR number (R74)
  case h_3 h => exact decodesTable_shapeBranch h
  case h_4 h => exact decodesTable_shapeCsr h
  -- a, imm16
  case h_5 h | h_6 h =>
    exact decodesTable_ite h 0 15 0 0 0 rfl rfl (by simp)
      (by simp [encode, packI_eq_iff, fieldOp_of_toNat h])
  -- a, b, imm16: no field is unused, so the arm checks nothing
  case h_7 h | h_14 h | h_15 h | h_51 h | h_52 h =>
    exact decodesTable_ite (c := True) (e := .nonzeroField) h 0 0 0 0 0 rfl rfl (by simp)
      (by simp [encode, packI_eq_iff, fieldOp_of_toNat h])
  -- b, c (R75)
  case h_8 h | h_28 h | h_35 h | h_36 h | h_37 h =>
    exact decodesTable_ite h 15 0 0 15 255 rfl rfl (by simp)
      (by simp [encode, packR_eq_iff, fieldOp_of_toNat h])
  -- a, b
  case h_9 h | h_10 h | h_11 h | h_13 h | h_16 h | h_17 h | h_19 h | h_20 h | h_21 h | h_22 h | h_23 h | h_29 h
    | h_30 h | h_31 h | h_32 h | h_33 h | h_34 h | h_57 h | h_58 h =>
    exact decodesTable_ite h 0 0 15 15 255 rfl rfl (by simp)
      (by simp [encode, packR_eq_iff, fieldOp_of_toNat h])
  -- a, b, imm8
  case h_27 h =>
    exact decodesTable_ite h 0 0 15 15 0 rfl rfl (by simp)
      (by simp [encode, packR_eq_iff, fieldOp_of_toNat h])
  -- a, b, c
  case h_12 h | h_18 h | h_24 h | h_25 h | h_26 h | h_38 h | h_39 h | h_40 h | h_41 h | h_42 h | h_43 h | h_46 h
    | h_47 h | h_49 h | h_50 h | h_55 h =>
    exact decodesTable_ite h 0 0 0 15 255 rfl rfl (by simp)
      (by simp [encode, packR_eq_iff, fieldOp_of_toNat h])
  -- a, b, c, d
  case h_44 h | h_45 h | h_48 h | h_53 h | h_54 h | h_56 h =>
    exact decodesTable_ite h 0 0 0 0 255 rfl rfl (by simp)
      (by simp [encode, packR_eq_iff, fieldOp_of_toNat h])
  case h_59 =>
    refine .unassigned (fun row hrow hop => ?_) rfl
    have hmem := List.mem_map_of_mem (f := fun r : OpcodeRow => (fieldOp r.pattern).toNat) hrow
    rw [hop] at hmem
    generalize (fieldOp w).toNat = n at *
    simp [opcodeRows, opcodeRowsControl, opcodeRowsDigit, opcodeRowsArith, opcodeRowsRadix, fieldOp] at hmem
    grind

/-- The answer is that of any row the word has the opcode of. -/
theorem decodesRow_of_opcode {row : OpcodeRow} (hrow : row ∈ opcodeRows) (hop : fieldOp row.pattern = fieldOp w) :
    DecodesRow row w (decodeByOpcode w) := by
  cases decodesTable w with
  | unassigned hnone => exact absurd hop (hnone row hrow)
  | row hrow' hop' h => exact row_eq_of_opcode hrow' hrow (hop'.trans hop.symm) ▸ h

theorem exists_row_of_decodeByOpcode (h : decodeByOpcode w = .ok i) :
    ∃ row ∈ opcodeRows, row.matches w = true ∧ mnemonicOf i = row.mnemonic ∧ encode i = w := by
  cases decodesTable w with
  | unassigned _ hr => cases h.symm.trans hr
  | row hrow _ hd => exact ⟨_, hrow, hd.sound i h⟩

/-! ### The round trip (30_encoding.md R84) -/

theorem decode_eq_ok : decode w = .ok i ↔ decodeByOpcode w = .ok i ∧ i.wellFormed = true := by
  rw [decode]
  cases decodeByOpcode w with
  | error e => simp [checkWellFormed]
  | ok j => grind [checkWellFormed]

/-- By the command's format: the fields of its word are its operands, and the unused ones are 0 (R73 to R75). -/
theorem decodeByOpcode_encode (i : Instr) : decodeByOpcode (encode i) = .ok i := by
  cases i with
  | nop | halt => rfl
  | br _ _ | csrr _ _ | li _ _ | lih _ _ | xaddi _ _ _ | ldb _ _ _ | stb _ _ _ | shli _ _ _ | shri _ _ _ =>
    simp [encode, decodeByOpcode, shapeBranch, shapeCsr, shapeAImm, shapeABImm]
  | _ => simp [encode, decodeByOpcode, shapeAB, shapeABImm8, shapeBC, shapeABC, shapeABCD]

theorem decode_encode (h : i.wellFormed = true) : decode (encode i) = .ok i :=
  decode_eq_ok.2 ⟨decodeByOpcode_encode i, h⟩

theorem encode_of_decode (h : decode w = .ok i) : encode i = w := by
  obtain ⟨_, _, _, _, henc⟩ := exists_row_of_decodeByOpcode (decode_eq_ok.1 h).1
  exact henc

theorem encoded_of_encode_eq (h : encode i = w) (hw : i.wellFormed = true) : Encoded w i :=
  ⟨h ▸ decode_encode hw, h⟩

/-! ### BR (47_control_move.md R253) -/

theorem encoded_br (cond : Cond) (off : BitVec 16) : Encoded (wordI 0x04 (condCode cond) 0 off) (.br cond off) :=
  encoded_of_encode_eq (wordI_eq_packI _ _ _ _).symm rfl

theorem decode_reservedCond {n : BitVec 4} (hn : 9 ≤ n.toNat) (off : BitVec 16) :
    decode (wordI 0x04 n 0 off) = .error .reservedCond := by
  rw [wordI_eq_packI]
  simp [decode, decodeByOpcode, shapeBranch, condOf_eq_none.2 hn, checkWellFormed]

theorem branchTarget_eq_ofInt (pc : BitVec 32) (off : BitVec 16) :
    branchTarget pc off = BitVec.ofInt 32 ((pc.toNat : Int) + off.toInt) := by
  rw [BitVec.ofInt_add, BitVec.ofInt_natCast, BitVec.ofNat_toNat, BitVec.setWidth_eq]
  rfl

theorem exec_br (cond : Cond) (off : BitVec 16) (s : State) :
    exec (.br cond off) s =
      if taken cond s then .next { s with pc := BitVec.ofInt 32 ((s.pc.toNat : Int) + off.toInt) }
      else .next { s with pc := BitVec.ofNat 32 (s.pc.toNat + 1) } := by
  rw [← branchTarget_eq_ofInt, BitVec.ofNat_add, BitVec.ofNat_toNat, BitVec.setWidth_eq, ← apply_ite Host.Outcome.next]
  rfl

/-! ### LI, LIH and XADDI (47_control_move.md R255 to R257) -/

/-- `n` commands have loaded `v` into X[a] and changed no other register, no flag and no TMEM byte. -/
structure LoadsX (a : XReg) (v : Native) (n : BitVec 32) (s t : State) : Prop where
  value : getX t a = some v
  frame : Frame [a] [] [] [] s t
  flags : KeepsFlags s t
  tmem : KeepsTmem s t
  pc : t.pc = s.pc + n

theorem loadsX_setX (s : State) (a : XReg) (v : Native) : LoadsX a v 1 s (advancePc (setX s a v)) where
  value := by simp
  frame := ⟨fun r hr => by simp_all, fun _ _ => rfl, fun _ _ => rfl, fun _ _ => rfl⟩
  flags := ⟨rfl, rfl⟩
  tmem _ := rfl
  pc := rfl

section
variable {a b : XReg} {u v x : Native} {m n : BitVec 32} {r : State}

theorem LoadsX.trans (h : LoadsX a u m r s) (h' : LoadsX a v n s t) : LoadsX a v (m + n) r t where
  value := h'.value
  frame := ⟨fun q hq => (h'.frame.x q hq).trans (h.frame.x q hq), fun q hq => (h'.frame.m q hq).trans (h.frame.m q hq),
    fun q hq => (h'.frame.e q hq).trans (h.frame.e q hq), fun q hq => (h'.frame.f q hq).trans (h.frame.f q hq)⟩
  flags := ⟨h'.flags.sgn.trans h.flags.sgn, h'.flags.perr.trans h.flags.perr⟩
  tmem addr := (h'.tmem addr).trans (h.tmem addr)
  pc := by rw [h'.pc, h.pc, BitVec.add_assoc]

theorem exec_lih (h : getX s a = some x) (imm : BitVec 16) :
    exec (.lih a imm) s = .next (advancePc (setX s a (x * 2 ^ 16 + zextImm imm))) := by
  rw [exec, execLih, readX_of_some h, bind_ok_eq, pure_eq_ok, finish_ok]

theorem exec_xaddi (h : getX s b = some x) (a : XReg) (imm : BitVec 16) :
    exec (.xaddi a b imm) s = .next (advancePc (setX s a (x + imm.signExtend 64))) := by
  rw [exec, execXaddi, readX_of_some h, bind_ok_eq, pure_eq_ok, finish_ok]

/-! ### Pseudo-instructions (30_encoding.md R87) -/

/-- The highest group of a value is what is left of it above bit 48. -/
theorem zextImm_extract_high (v : Native) : zextImm (v.extractLsb' 48 16) = v >>> 48 := by
  apply BitVec.eq_of_toNat_eq
  simp [zextImm, Nat.shiftRight_eq_div_pow]
  omega

/-- A group shifted in below the groups above it. -/
theorem shift_in_extract (v : Native) (k : Nat) :
    v >>> (k + 16) * 2 ^ 16 + zextImm (v.extractLsb' k 16) = v >>> k := by
  have hv := v.isLt
  have hle : v.toNat / 2 ^ k ≤ v.toNat := Nat.div_le_self _ _
  apply BitVec.eq_of_toNat_eq
  simp [zextImm, Nat.shiftRight_eq_div_pow, pow_add, ← Nat.div_div_eq_div_mul]
  omega

theorem loadsX_li_high (s : State) (a : XReg) (v : Native) :
    ∃ t, exec (.li a (v.extractLsb' 48 16)) s = .next t ∧ LoadsX a (v >>> 48) 1 s t :=
  ⟨_, rfl, zextImm_extract_high v ▸ loadsX_setX s a _⟩

theorem loadsX_lih_group (k : Nat) (h : getX s a = some (v >>> (k + 16))) :
    ∃ t, exec (.lih a (v.extractLsb' k 16)) s = .next t ∧ LoadsX a (v >>> k) 1 s t :=
  ⟨_, exec_lih h _, shift_in_extract v k ▸ loadsX_setX s a _⟩

/-- Before each LIH, X[a] holds the groups loaded so far, the value shifted right by what is to come. -/
theorem loadsX_pseudoLi64 (s : State) (a : XReg) (v : Native) :
    ∃ t, execAll (pseudoLi64 a v) s = .next t ∧ LoadsX a v 4 s t := by
  obtain ⟨t1, he1, h1⟩ := loadsX_li_high s a v
  obtain ⟨t2, he2, h2⟩ := loadsX_lih_group 32 h1.value
  obtain ⟨t3, he3, h3⟩ := loadsX_lih_group 16 h2.value
  obtain ⟨t4, he4, h4⟩ := loadsX_lih_group 0 h3.value
  rw [BitVec.ushiftRight_zero] at h4
  exact ⟨t4, by simp [pseudoLi64, execAll, he1, he2, he3, he4], h1.trans (h2.trans (h3.trans h4))⟩

theorem loadsX_xaddi (h : getX s b = some x) (a : XReg) (imm : BitVec 16) (hv : x + imm.signExtend 64 = v) :
    ∃ t, execAll [.xaddi a b imm] s = .next t ∧ LoadsX a v 1 s t := by
  subst hv
  exact ⟨_, by simp [execAll, exec_xaddi h], loadsX_setX s a _⟩

end

/-! ### The obligations -/

/-- Settles O1: the fields of the encoding are the operands, and only well-formedness is checked beyond them. -/
theorem decodeOfEncode : Obligations.DecodeOfEncode := fun _ => decode_encode

/-- Settles O2: every arm of the decoder checks the fields its commands do not use. -/
theorem encodeOfDecode : Obligations.EncodeOfDecode := fun _ _ h => ⟨encode_of_decode h, (decode_eq_ok.1 h).2⟩

/-- Settles O3: the decoder answers by the row of the word's opcode, its extra conditions are those of the command it
answers, and the rows' opcodes differ. -/
theorem legalWordsAreTheTable : Obligations.LegalWordsAreTheTable := by
  refine ⟨fun w i h => ?_, fun w row hrow hm hx => ?_, fun p hp q hq w hpm hqm => ?_⟩
  · obtain ⟨hd, hwf⟩ := decode_eq_ok.1 h
    obtain ⟨row, hrow, hm, hname, rfl⟩ := exists_row_of_decodeByOpcode hd
    exact ⟨row, hrow, hm, hname.symm, (extraConditions_encode i).trans hwf⟩
  · have hdec := decodesRow_of_opcode hrow (fieldOp_of_matches hrow hm)
    obtain ⟨i, hi⟩ := hdec.accepts hm hx
    obtain ⟨-, hname, rfl⟩ := hdec.sound i hi
    exact ⟨i, decode_eq_ok.2 ⟨hi, (extraConditions_encode i).symm.trans hx⟩, hname⟩
  · exact row_eq_of_opcode hp hq ((fieldOp_of_matches hp hpm).trans (fieldOp_of_matches hq hqm).symm)

/-- Settles O28: each condition is `taken` on its flag. -/
theorem branch : Obligations.Branch := by
  intro s off go stay
  have hexec (cond : Cond) : exec (.br cond off) s = if taken cond s then go else stay := exec_br cond off s
  refine ⟨⟨encoded_br .al off, ?_⟩, ⟨encoded_br .eq off, ?_⟩, ⟨encoded_br .ne off, ?_⟩, ⟨encoded_br .lt off, ?_⟩,
    ⟨encoded_br .ge off, ?_⟩, ⟨encoded_br .gt off, ?_⟩, ⟨encoded_br .le off, ?_⟩, ⟨encoded_br .pe off, ?_⟩,
    ⟨encoded_br .npe off, ?_⟩, fun n hn => decode_reservedCond hn off⟩
  all_goals simp [hexec, taken]

/-- Settles O60: LI64 shifts in one group a command; the others are one XADDI with the offset 0, 1 or -1. -/
theorem pseudoInstructions : Obligations.PseudoInstructions := by
  refine fun s a b => ⟨fun v => ?_, fun x hx => ⟨?_, ?_, ?_⟩⟩
  · obtain ⟨t, ht, h⟩ := loadsX_pseudoLi64 s a v
    exact ⟨t, ht, h.value, h.frame, h.flags, h.tmem, h.pc⟩
  · obtain ⟨t, ht, h⟩ := loadsX_xaddi hx a 0 (BitVec.add_zero x)
    exact ⟨t, ht, h.value, h.frame, h.pc⟩
  · obtain ⟨t, ht, h⟩ := loadsX_xaddi hx b 1 rfl
    exact ⟨t, ht, h.value, h.frame, h.pc⟩
  · obtain ⟨t, ht, h⟩ := loadsX_xaddi hx b (-1) (BitVec.sub_eq_add_neg x 1).symm
    exact ⟨t, ht, h.value, h.frame, h.pc⟩

/-- Settles O4: the decoder evaluated on each word. -/
theorem sampleWords : Obligations.SampleWords :=
  ⟨rfl, rfl, rfl, rfl, rfl, rfl, rfl, rfl, rfl, rfl, rfl, rfl, rfl, rfl, rfl⟩

end Sys2Proof.Machine
end

section
/-! PROOF. The digit primitives, the extended accumulator, the digit view, the shift-offset descriptor and the
leading-zero counter (40_digit_accumulator.md R91 to R114), and the float commands (46_radix.md R239 to R246). -/

namespace Sys2Proof.Machine

variable {s : State} {i : Instr} {a b : BitVec 4} {e : Trap}

/-! ### A command's word and its operands (30_encoding.md R79) -/

theorem encoded_wordR {op : Nat} {c d : BitVec 4} {k : BitVec 8} (h : encode i = packR (BitVec.ofNat 8 op) a b c d k)
    (hw : i.wellFormed = true) : Encoded (wordR op a b c d k) i :=
  encoded_of_encode_eq (h.trans (wordR_eq_packR op a b c d k).symm) hw

theorem raisesUninit_readsOf (hw : i.wellFormed = true) : RaisesUninit i s (readsOf i) := (uninitComesFirst i s hw).1

/-! ### Checks -/

/-- A command whose first part faults takes that fault. -/
theorem raises_of_bind_error {α : Type} {x : Except Trap α} {f : α → Except Trap State}
    (h : exec i s = finish s (x >>= f)) (hx : x = .error e) : Raises i s e :=
  raises_of_error (by rw [h, hx, bind_error_eq])

theorem require_of_true {c : Bool} (h : c = true) : require c e = .ok () := require_eq_ok.2 h
theorem require_of_false {c : Bool} (h : c = false) : require c e = .error e := require_eq_error.2 ⟨h, rfl⟩

theorem checkDigit_of_lt {B x : Nat} (h : x < B) : checkDigit B x = .ok () := require_of_true (decide_eq_true h)
theorem checkDigit_of_le {B x : Nat} (h : B ≤ x) : checkDigit B x = .error (.contract .digitRange) :=
  require_of_false (decide_eq_false h.not_gt)

/-! ### One X or E operand, an X result -/

/-- A command `X[a] <- g(X[b])` whose result always fits a register. -/
theorem xFromX_row {op : Nat} {g : Nat → Nat} (henc : encode i = packR (BitVec.ofNat 8 op) a b 0 0 0)
    (hw : i.wellFormed = true) (hreads : readsOf i = [(.x, b)]) (hexec : exec i s = xFromX a b g s)
    (hg : ∀ x : Native, g x.toNat < 2 ^ 64) :
    Encoded (wordR op a b 0 0 0) i ∧ RaisesUninit i s [(.x, b)] ∧
      ∀ x, getX s b = some x → CompletesX i s a (g x.toNat) := by
  refine ⟨encoded_wordR henc hw, hreads ▸ raisesUninit_readsOf hw, fun x hx => completesX_of_ofNat (hg x) ?_⟩
  rw [hexec, xFromX, readX_of_some hx, bind_ok_eq, pure_eq_ok]

/-- A command `X[a] <- g(E[b])` whose result fits a register for every accumulator value. -/
theorem Inv.xFromE_row (h : Inv s) {op : Nat} {g : Nat → Nat} (henc : encode i = packR (BitVec.ofNat 8 op) a b 0 0 0)
    (hw : i.wellFormed = true) (hreads : readsOf i = [(.e, b)]) (hexec : exec i s = xFromE a b g s)
    (hg : ∀ v < s.params.base ^ 3, g v < 2 ^ 64) :
    Encoded (wordR op a b 0 0 0) i ∧ RaisesUninit i s [(.e, b)] ∧
      ∀ v, getE s b = some v → CompletesX i s a (g v) := by
  refine ⟨encoded_wordR henc hw, hreads ▸ raisesUninit_readsOf hw,
    fun v hv => completesX_of_ofNat (hg v (h.accumulators b v hv)) ?_⟩
  rw [hexec, xFromE, readE_of_some hv, bind_ok_eq, pure_eq_ok]

/-! ### Checked writes of E[a] -/

section
variable {n x : Nat}

/-- A command that writes E[a] under a condition, and faults without it. -/
theorem require_setE {p : Prop} [Decidable p]
    (h : exec i s = finish s (require (decide p) e >>= fun _ => .ok (setE s a n))) :
    (p → CompletesE i s a n) ∧ (¬ p → Raises i s e) :=
  ⟨fun hp => completesE_of_ok (by rw [h, require_of_true (decide_eq_true hp), bind_ok_eq]),
    fun hp => raises_of_bind_error h (require_of_false (decide_eq_false hp))⟩

/-- A command that ends in an accumulator result, which must be below B^3 (40_digit_accumulator.md R92). -/
theorem checkAcc_setE (h : exec i s = finish s (checkAcc s.params.base n >>= fun _ => .ok (setE s a n))) :
    (n < s.params.base ^ 3 → CompletesE i s a n) ∧ (s.params.base ^ 3 ≤ n → Raises i s (.contract .accRange)) :=
  (require_setE h).imp_right fun herr hn => herr hn.not_gt

/-- The same for a result computed with a digit operand, which is checked first. -/
theorem checkDigit_checkAcc_setE
    (h : exec i s = finish s (checkDigit s.params.base x >>= fun _ =>
      checkAcc s.params.base n >>= fun _ => .ok (setE s a n))) :
    (s.params.base ≤ x → Raises i s (.contract .digitRange)) ∧
    (x < s.params.base → n < s.params.base ^ 3 → CompletesE i s a n) ∧
    (x < s.params.base → s.params.base ^ 3 ≤ n → Raises i s (.contract .accRange)) :=
  have hacc (hx : x < s.params.base) := checkAcc_setE (h.trans (by rw [checkDigit_of_lt hx, bind_ok_eq]))
  ⟨fun hx => raises_of_bind_error h (checkDigit_of_le hx), fun hx => (hacc hx).1, fun hx => (hacc hx).2⟩

end

/-! ### What a command does once its operands are read -/

theorem exec_emov (a : EReg) {b c : XReg} {lo mid : Native} (hlo : getX s b = some lo) (hmid : getX s c = some mid) :
    exec (.emov a b c) s = finish s
      (require (lo.toNat < s.params.base ∧ mid.toNat < s.params.base) (.contract .digitRange) >>= fun _ =>
        .ok (setE s a (mid.toNat * s.params.base + lo.toNat))) := by
  rw [exec, execEmov, readX_of_some hlo, readX_of_some hmid, Bool.decide_and]
  rfl

theorem exec_esub (a : EReg) {b c : EReg} {u v : Nat} (hu : getE s b = some u) (hv : getE s c = some v) :
    exec (.esub a b c) s =
      finish s (require (v ≤ u) (.contract .accNegative) >>= fun _ => .ok (setE s a (u - v))) := by
  rw [exec, execEsub, readE_of_some hu, readE_of_some hv]
  rfl

theorem exec_eshr (a : EReg) {b : EReg} {v : Nat} (hv : getE s b = some v) (k : BitVec 8) :
    exec (.eshr a b k) s =
      finish s (require (k.toNat < s.params.w) (.contract .shiftRange) >>= fun _ =>
        .ok (setE s a (v / 2 ^ k.toNat))) := by
  rw [exec, execEshr, readE_of_some hv]
  rfl

theorem exec_clz (a : XReg) {b : XReg} {x : Native} (hx : getX s b = some x) :
    exec (.clz a b) s = finish s (checkDigit s.params.base x.toNat >>= fun _ =>
      require (x.toNat ≠ 0) (.contract .clzZero) >>= fun _ =>
        .ok (setX s a (BitVec.ofNat 64 (clzDigit s.params.w x.toNat)))) := by
  rw [exec, execClz, readX_of_some hx]
  rfl

/-! ### The leading-zero counter (40_digit_accumulator.md R114) -/

theorem clzLoop_le (x : Nat) : ∀ bit, clzLoop x bit ≤ bit
  | 0 => le_rfl
  | bit + 1 => by
    rw [clzLoop]
    split
    · exact Nat.zero_le _
    · exact Nat.succ_le_succ (clzLoop_le x bit)

theorem lt_two_pow_of_testBit_eq_false {x bit : Nat} (h : x < 2 ^ (bit + 1)) (hb : x.testBit bit = false) :
    x < 2 ^ bit := by
  refine Nat.lt_pow_two_of_testBit x fun j hj => ?_
  obtain rfl | hj := hj.eq_or_lt
  · exact hb
  · exact Nat.testBit_lt_two_pow (h.trans_le (Nat.pow_le_pow_right (by norm_num) hj))

/-- Shifted left by its count, a value of at most `bit` bits has its leading bit at position `bit - 1`. -/
theorem mul_two_pow_clzLoop {x bit : Nat} (hx : x ≠ 0) (h : x < 2 ^ bit) :
    2 ^ (bit - 1) ≤ x * 2 ^ clzLoop x bit ∧ x * 2 ^ clzLoop x bit < 2 ^ bit := by
  induction bit with
  | zero => omega
  | succ bit ih =>
    rw [clzLoop]
    cases hb : x.testBit bit with
    | true => simpa using ⟨Nat.ge_two_pow_of_testBit hb, h⟩
    | false =>
      have hlt := lt_two_pow_of_testBit_eq_false h hb
      obtain ⟨hlo, hhi⟩ := ih hlt
      have hbit : bit ≠ 0 := by rintro rfl; omega
      have hpow : 2 ^ bit = 2 ^ (bit - 1) * 2 := by rw [← pow_succ, Nat.sub_add_cancel (by omega)]
      rw [if_neg (by decide), Nat.add_sub_cancel, pow_succ 2 bit, pow_succ, ← Nat.mul_assoc]
      omega

/-! ### Float operands (46_radix.md R239 to R246) -/

section
variable {f : Native}

theorem readFloat_of_some (hf : getF s b = some f) : readFloat s b = checkFloat (f64 f) := by
  rw [readFloat, readF_of_some hf, bind_ok_eq]

/-- A finite value that is not negative is read exactly. -/
theorem exists_checkFloat_of_nonneg {x : ℚ} (hx : floatRat f = some x) (h0 : 0 ≤ x) :
    ∃ d : Dyadic, checkFloat (f64 f) = .ok d ∧ d.toRat = x := by
  obtain ⟨d, hd, hq⟩ | ⟨-, hneg⟩ := checkFloat_cases f
  · exact ⟨d, hd, Option.some.inj (hq.symm.trans hx)⟩
  · exact absurd (hneg x hx) h0.not_gt

theorem checkFloat_of_neg (h : ∀ x, floatRat f = some x → x < 0) :
    checkFloat (f64 f) = .error (.contract .floatDomain) := by
  obtain ⟨d, -, hq⟩ | ⟨herr, -⟩ := checkFloat_cases f
  · exact absurd (h _ hq) d.toRat_nonneg.not_gt
  · exact herr

theorem fdcntValue_lt {W : Nat} (hW : 1 ≤ W) {d : Dyadic} (hd : checkFloat (f64 f) = .ok d) :
    fdcntValue W d < 2 ^ 64 :=
  calc fdcntValue W d ≤ bitlen (floorDyadic d) := fdcntValue_le hW d
    _ ≤ 1024 := bitlen_le_of_lt (floorDyadic_lt hd)
    _ < 2 ^ 64 := by norm_num

end

/-! ### The obligations -/

/-- Settles O34: no result is larger than the value it is taken from, but for the digit count, which is 1 or 2. -/
theorem digitView : Obligations.DigitView := fun s _ _ =>
  ⟨xFromX_row (g := (· % s.params.base)) rfl rfl rfl rfl fun x => (Nat.mod_le _ _).trans_lt x.isLt,
    xFromX_row (g := (· % s.params.base)) rfl rfl rfl rfl fun x => (Nat.mod_le _ _).trans_lt x.isLt,
    xFromX_row (g := (· / s.params.base)) rfl rfl rfl rfl fun x => (Nat.div_le_self _ _).trans_lt x.isLt,
    xFromX_row (g := fun x => if x < s.params.base then 1 else 2) rfl rfl rfl rfl fun _ => by split <;> norm_num,
    xFromX_row (g := (· / s.params.w)) rfl rfl rfl rfl fun x => (Nat.div_le_self _ _).trans_lt x.isLt,
    xFromX_row (g := (· % s.params.w)) rfl rfl rfl rfl fun x => (Nat.mod_le _ _).trans_lt x.isLt⟩

/-- Settles O35: each digit of an accumulator value is below B, the highest because the value is below B^3. -/
theorem accumulatorReads : Obligations.AccumulatorReads := by
  intro s a b h
  have hpos : 0 < s.params.base := Nat.two_pow_pos _
  have hdigit {n : Nat} (hn : n < s.params.base) : n < 2 ^ 64 := lt_of_lt_of_le hn (base_le_of_legal h.params)
  refine ⟨h.xFromE_row rfl rfl rfl rfl fun v _ => hdigit (Nat.mod_lt _ hpos),
    h.xFromE_row rfl rfl rfl rfl fun v _ => hdigit (Nat.mod_lt _ hpos),
    h.xFromE_row rfl rfl rfl rfl fun v hv => hdigit (Nat.div_lt_of_lt_mul (by rwa [pow_succ] at hv)),
    h.xFromE_row rfl rfl rfl rfl fun v _ => ?_⟩
  split_ifs <;> norm_num

/-- Settles O36: the checks of each command in order, a digit operand before the result. -/
theorem accumulatorWrites : Obligations.AccumulatorWrites := by
  intro s a b c d
  refine ⟨⟨encoded_wordR rfl rfl, raisesUninit_readsOf rfl, fun lo mid hlo hmid => ?_⟩,
    ⟨encoded_wordR rfl rfl, raisesUninit_readsOf rfl, fun v hv => ?_⟩,
    ⟨encoded_wordR rfl rfl, raisesUninit_readsOf rfl, fun v dg hv hdg => ?_⟩,
    ⟨encoded_wordR rfl rfl, raisesUninit_readsOf rfl, fun v dg hv hdg => ?_⟩⟩
  · obtain ⟨hok, herr⟩ := require_setE (exec_emov a hlo hmid)
    exact ⟨fun h1 h2 => hok ⟨h1, h2⟩, fun h => herr (by omega)⟩
  · exact checkAcc_setE (by rw [exec, execEmb, readE_of_some hv]; rfl)
  · exact checkDigit_checkAcc_setE (by rw [exec, execEmba, readE_of_some hv, readX_of_some hdg]; rfl)
  · exact checkDigit_checkAcc_setE (by rw [exec, execEmuld, readE_of_some hv, readX_of_some hdg]; rfl)

/-- Settles O37: each command checks its operands once they are read, and then writes. -/
theorem accumulatorArithmetic : Obligations.AccumulatorArithmetic := by
  intro s a b c k
  refine ⟨⟨encoded_wordR rfl rfl, raisesUninit_readsOf rfl, fun u v hu hv => ?_⟩,
    ⟨encoded_wordR rfl rfl, raisesUninit_readsOf rfl, fun v hv => ?_⟩,
    ⟨encoded_wordR rfl rfl, raisesUninit_readsOf rfl, fun u v hu hv => ?_⟩⟩
  · exact (require_setE (exec_esub a hu hv)).imp_right fun herr hlt => herr hlt.not_ge
  · exact (require_setE (exec_eshr a hv k)).imp_right fun herr hle => herr hle.not_gt
  · exact completesSgn_of_ok (by rw [exec, execEcmp, readE_of_some hu, readE_of_some hv]; rfl)

/-- Settles O38: the loop's count puts the leading bit of a nonzero digit at position W - 1. -/
theorem leadingZeros : Obligations.LeadingZeros := by
  intro s a b hlegal
  refine ⟨encoded_wordR rfl rfl, raisesUninit_readsOf rfl, fun x hx => ?_⟩
  have h := exec_clz a hx
  have hpos : 0 < s.params.base := Nat.two_pow_pos _
  refine ⟨fun hle => raises_of_bind_error h (checkDigit_of_le hle), fun h0 => ?_, fun h0 hlt => ?_⟩
  · rw [checkDigit_of_lt (h0 ▸ hpos), bind_ok_eq] at h
    exact raises_of_bind_error h (require_of_false (by simpa using h0))
  · have hn : clzDigit s.params.w x.toNat < 2 ^ 64 :=
      calc clzDigit s.params.w x.toNat ≤ s.params.w := clzLoop_le _ _
        _ ≤ 64 := hlegal.1.2
        _ < 2 ^ 64 := by norm_num
    rw [checkDigit_of_lt hlt, bind_ok_eq, require_of_true (decide_eq_true h0), bind_ok_eq] at h
    exact ⟨_, completesX_of_ofNat hn h, mul_two_pow_clzLoop h0 hlt⟩

/-- Settles O59: an operand in the domain is read as its exact value, whose floor, digits and digit count the commands
compute; any other raises FLOAT_DOMAIN as it is read. -/
theorem floatCommands : Obligations.FloatCommands := by
  intro s a b hlegal
  have hW : 1 ≤ s.params.w := le_trans (by norm_num) hlegal.1.1
  refine ⟨⟨encoded_wordR rfl rfl, raisesUninit_readsOf rfl⟩, ⟨encoded_wordR rfl rfl, raisesUninit_readsOf rfl⟩,
    ⟨encoded_wordR rfl rfl, raisesUninit_readsOf rfl⟩, fun f hf => ⟨fun x hx h0 => ?_, fun hneg => ?_⟩⟩
  · obtain ⟨d, hd, rfl⟩ := exists_checkFloat_of_nonneg hx h0
    have hread : readFloat s b = .ok d := (readFloat_of_some hf).trans hd
    have hdigit : digitFromFloat s.params.base d < 2 ^ 64 :=
      (Nat.mod_lt _ (Nat.two_pow_pos _)).trans_le (base_le_of_legal hlegal)
    rw [← floorDyadic_eq]
    refine ⟨completesX_of_ofNat hdigit ?_, writesChecked_of ?_, fdcntValue s.params.w d, isDigitEstimate_fdcnt hW d,
      completesX_of_ofNat (fdcntValue_lt hW hd) ?_⟩
    · rw [exec, execDigvf, hread, bind_ok_eq, pure_eq_ok, digitFromFloat]
    · rw [exec, execFcvt, hread, bind_ok_eq, floatDigits_eq hW, Config.Params.base]
    · rw [exec, execFdcnt, hread, bind_ok_eq, pure_eq_ok]
  · have hread := (readFloat_of_some hf).trans (checkFloat_of_neg hneg)
    exact ⟨raises_of_bind_error rfl hread, raises_of_bind_error rfl hread, raises_of_bind_error rfl hread⟩

end Sys2Proof.Machine
end

section
/-! PROOF. The compares and the float operands of CMPF and ADDF (41_compare.md R130 to R133, 42_add_sub.md R144): a
native or float operand is compared and added as the canonical magnitude of its value. -/

namespace Sys2Proof.Machine

variable {s : State} {i : Instr} {p q : Magnitude}

/-! ### Operands as canonical magnitudes -/

theorem Inv.canonical_of_getM (h : Inv s) {r : MReg} (hr : getM s r = some p) : canonical s.params.base p = true :=
  (h.magnitudes r p hr).1

theorem Inv.val_view (h : Inv s) (x : Native) : val s.params.base (view s.params.base x) = x.toNat := by
  rw [view_eq h.two_le_base h.two_pow_64_le_base_mul_base, val_digits h.two_le_base]

theorem Inv.val_floatDigits (h : Inv s) (x : Dyadic) :
    val s.params.base (floatDigits s.params.w x) = ⌊x.toRat⌋₊ := by
  rw [floatDigits_eq h.one_le_w, floorDyadic_eq]
  exact val_digits h.two_le_base _

/-! ### A command that compares or adds two canonical magnitudes -/

theorem Inv.completesSgn_compareMag (h : Inv s) (hp : canonical s.params.base p = true)
    (hq : canonical s.params.base q = true) (hexec : exec i s = finish s (.ok (Machine.setSgn s (compareMag p q)))) :
    CompletesSgn i s (sgn ((val s.params.base p : Int) - (val s.params.base q : Int))) :=
  completesSgn_of_ok (by rw [hexec, compareMag_eq h.two_le_base hp hq, sgnSub])

theorem Inv.writesChecked_addMag (h : Inv s) {a : MReg} (hp : canonical s.params.base p = true)
    (hq : canonical s.params.base q = true)
    (hexec : exec i s = finish s (writeChecked s a (addMag s.params.base p q))) :
    WritesChecked i s a (digits s.params.base (val s.params.base p + val s.params.base q)) :=
  writesChecked_of
    (by rw [hexec, addMag_eq_digits h.two_le_base (canonical_allBelow hp) (canonical_allBelow hq)])

/-! ### What a command with a float operand does once its magnitude is read -/

theorem exec_cmpf {b : MReg} (hp : getM s b = some p) (c : FReg) :
    exec (.cmpf b c) s = finish s (readFloat s c >>= fun x =>
      .ok (setSgn s (compareMag p (floatDigits s.params.w x)))) := by
  rw [exec, execCmpf, readM_of_some hp]
  rfl

theorem exec_addf (a : MReg) {b : MReg} (hp : getM s b = some p) (c : FReg) :
    exec (.addf a b c) s = finish s (readFloat s c >>= fun x =>
      writeChecked s a (addMag s.params.base p (floatDigits s.params.w x))) := by
  rw [exec, execAddf, readM_of_some hp]
  rfl

/-! ### The obligations -/

/-- Settles O39: both operands are canonical magnitudes, and the order of those is the order of their values. -/
theorem compare : Obligations.Compare := by
  intro s b c h
  refine ⟨⟨encoded_wordR rfl rfl, raisesUninit_readsOf rfl, fun p q hp hq => ?_⟩,
    ⟨encoded_wordR rfl rfl, raisesUninit_readsOf rfl, fun p x hp hx => ?_⟩⟩
  · refine h.completesSgn_compareMag (h.canonical_of_getM hp) (h.canonical_of_getM hq) ?_
    rw [exec, execCmp, readM_of_some hp, readM_of_some hq, bind_ok_eq, bind_ok_eq, pure_eq_ok]
  · rw [← h.val_view x]
    refine h.completesSgn_compareMag (h.canonical_of_getM hp) (h.canonical_view x) ?_
    rw [exec, execCmpx, readM_of_some hp, readX_of_some hx, bind_ok_eq, bind_ok_eq, pure_eq_ok]

/-- Settles O41: an operand in the domain is read as its exact value, and its digits are those of the floor; any other
raises FLOAT_DOMAIN as it is read. -/
theorem floatOperands : Obligations.FloatOperands := by
  intro s a b c h
  refine ⟨⟨encoded_wordR rfl rfl, raisesUninit_readsOf rfl⟩, ⟨encoded_wordR rfl rfl, raisesUninit_readsOf rfl⟩,
    fun p f hp hf => ⟨fun x hx h0 => ?_, fun hneg => ?_⟩⟩
  · obtain ⟨d, hd, rfl⟩ := exists_checkFloat_of_nonneg hx h0
    have hread : readFloat s c = .ok d := (readFloat_of_some hf).trans hd
    have hcp := h.canonical_of_getM hp
    have hcd := h.canonical_floatDigits d
    rw [← Int.natCast_floor_eq_floor h0, ← h.val_floatDigits d]
    exact ⟨h.completesSgn_compareMag hcp hcd (by rw [exec_cmpf hp, hread, bind_ok_eq]),
      h.writesChecked_addMag hcp hcd (by rw [exec_addf a hp, hread, bind_ok_eq])⟩
  · have hread := (readFloat_of_some hf).trans (checkFloat_of_neg hneg)
    exact ⟨raises_of_bind_error (exec_cmpf hp c) hread, raises_of_bind_error (exec_addf a hp c) hread⟩

end Sys2Proof.Machine
end

section
/-! PROOF. Addition and subtraction as commands (42_add_sub.md R142, R143, R145, R147), and the law of the two
(R148). -/

namespace Sys2Proof.Machine

variable {s : State} {i : Instr} {p q : Magnitude}

/-! ### The subtractor in terms of the integer difference -/

/-- `sub(p, q)` is the sign of the integer difference and the digits of its absolute value (42_add_sub.md R145). -/
theorem subMag_eq_sgn_natAbs {B : Nat} (hB : 2 ≤ B) (hp : canonical B p = true) (hq : canonical B q = true) :
    subMag B p q = (sgn ((val B p : Int) - (val B q : Int)),
      digits B ((val B p : Int) - (val B q : Int)).natAbs) := by
  have habs : (if val B q ≤ val B p then val B p - val B q else val B q - val B p) =
      ((val B p : Int) - (val B q : Int)).natAbs := by
    split <;> omega
  rw [subMag_eq hB hp hq, habs, sgnSub]

theorem sgn_natCast (n : Nat) : sgn (n : Int) = if n = 0 then .zero else .positive := by
  simp [sgn]

/-! ### A command that writes a magnitude and its sign -/

/-- A command that only writes M[a] and FLAGS.SGN. -/
theorem completes_setM_setSgn {a : MReg} {m : Magnitude} {v : Sign}
    (h : exec i s = finish s (.ok (setSgn (setM s a m) v))) :
    Completes i s fun t => getM t a = some m ∧ t.sgn = v ∧ t.perr = s.perr ∧ Frame [] [a] [] [] s t ∧ KeepsTmem s t :=
  completes_of_next h rfl rfl ⟨rfl, rfl, rfl⟩ ⟨rfl, rfl, fun _ => rfl⟩
    ⟨(getM_setM s a a m).trans (if_pos rfl), rfl, rfl,
      ⟨fun _ _ => rfl, fun r hr => (getM_setM s a r m).trans (if_neg (List.ne_of_not_mem_cons hr)), fun _ _ => rfl,
        fun _ _ => rfl⟩, fun _ => rfl⟩

/-! ### The obligations -/

/-- Settles O40: both operands are canonical magnitudes, whose canonical sum goes through the checked write. -/
theorem addExact : Obligations.AddExact := by
  intro s a b c h
  refine ⟨⟨encoded_wordR rfl rfl, raisesUninit_readsOf rfl, fun p q hp hq => ?_⟩,
    ⟨encoded_wordR rfl rfl, raisesUninit_readsOf rfl, fun p x hp hx => ?_⟩⟩
  · refine h.writesChecked_addMag (h.canonical_of_getM hp) (h.canonical_of_getM hq) ?_
    rw [exec, execAdd, readM_of_some hp, readM_of_some hq, bind_ok_eq, bind_ok_eq]
  · rw [← h.val_view x]
    refine h.writesChecked_addMag (h.canonical_of_getM hp) (h.canonical_view x) ?_
    rw [exec, execAddx, readM_of_some hp, readX_of_some hx, bind_ok_eq, bind_ok_eq]

/-- Settles O42: the subtractor gives the digits and the sign of the integer difference, and SUB writes both. -/
theorem subtract : Obligations.Subtract := by
  intro s a b c h
  refine ⟨encoded_wordR rfl rfl, raisesUninit_readsOf rfl, fun p q hp hq => completes_setM_setSgn ?_⟩
  rw [exec, execSub, readM_of_some hp, readM_of_some hq, bind_ok_eq, bind_ok_eq, pure_eq_ok,
    subMag_eq_sgn_natAbs h.two_le_base (h.canonical_of_getM hp) (h.canonical_of_getM hq)]

/-- Settles O43: ADD leaves the sum in M[c] and the addend in M[b], in a state where the invariant still holds, so SUB
computes (p + q) - q. -/
theorem addThenSubtract : Obligations.AddThenSubtract := by
  intro s a b c d p q h hp hq hcb hfits
  have hB := h.two_le_base
  have hcanon := h.canonical_of_getM hp
  obtain ⟨u, hu, hadv, hsum, hframe, -⟩ := ((addExact s c a b h).1.2.2 p q hp hq).completes hfits
  have hub : getM u b = some q := (hframe.m b (by simpa using hcb.symm)).trans hq
  obtain ⟨v, hv, -, hres, hsgn, -⟩ := (subtract u d c b (h.nextInv_exec _ u hu)).2.2 _ q hsum hub
  have hdiff : ((val s.params.base p + val s.params.base q : Nat) : Int) - (val s.params.base q : Int) =
      (val s.params.base p : Int) := by
    omega
  rw [hadv.code.params, val_digits hB, hdiff] at hres hsgn
  refine ⟨u, v, hu, hv, ?_, ?_⟩
  · rw [hres, Int.natAbs_natCast, digits_val hB hcanon]
  · rw [hsgn, sgn_natCast]
    simp only [eq_zero_iff hB hcanon]

end Sys2Proof.Machine
end

section
/-! PROOF. The two multiply commands (43_multiply.md R160, R165 to R167): whichever datapath computes the product, the
command writes its digits through the checked write. -/

namespace Sys2Proof.Machine

variable {s : State} {a b c : MReg}

/-! ### The command without its datapath -/

/-- A multiply command with the architectural product in place of a datapath (43_multiply.md R160). -/
def writeProduct (s : State) (a b c : MReg) : Except Trap State := do
  let p ← readM s b
  let q ← readM s c
  writeChecked s a (digits s.params.base (val s.params.base p * val s.params.base q))

theorem writeProduct_of_some {p q : Magnitude} (hp : getM s b = some p) (hq : getM s c = some q) :
    writeProduct s a b c =
      writeChecked s a (digits s.params.base (val s.params.base p * val s.params.base q)) := by
  rw [writeProduct, readM_of_some hp, readM_of_some hq, bind_ok_eq, bind_ok_eq]

/-- Two sequences with the same first part are equal if their rests agree on what it can answer. -/
theorem OnOk.bind_congr {α β : Type} {P : α → Prop} {x : Except Trap α} {f f' : α → Except Trap β} (hx : OnOk P x)
    (hf : ∀ v, P v → f v = f' v) : (x >>= f) = (x >>= f') := by
  cases x with
  | error e => rfl
  | ok v => exact hf v (hx v rfl)

/-- A datapath that gives the digits of the product of canonical operands makes a command write the product: under the
invariant the operands read are canonical. -/
theorem Inv.writeProduct_of_datapath (h : Inv s) {mul : Magnitude → Magnitude → Magnitude}
    (hmul : ∀ p q, canonical s.params.base p = true → canonical s.params.base q = true →
      mul p q = digits s.params.base (val s.params.base p * val s.params.base q)) :
    (do let p ← readM s b; let q ← readM s c; writeChecked s a (mul p q)) = writeProduct s a b c :=
  (h.onOk_readM b).bind_congr fun p hp => (h.onOk_readM c).bind_congr fun q hq => by
    rw [hmul p q hp.canonical hq.canonical]

theorem Inv.exec_mul (h : Inv s) (a b c : MReg) : exec (.mul a b c) s = finish s (writeProduct s a b c) :=
  congrArg (finish s) (h.writeProduct_of_datapath fun _ _ => karatsuba_eq_digits h.two_le_base _)

theorem Inv.exec_mull (h : Inv s) (a b c : MReg) : exec (.mull a b c) s = finish s (writeProduct s a b c) :=
  congrArg (finish s) (h.writeProduct_of_datapath fun _ _ => longMultiply_eq_digits h.two_le_base)

/-! ### The obligations -/

/-- Settles O44: each datapath gives the digits of the product, which go through the checked write. -/
theorem multiply : Obligations.Multiply := by
  intro s a b c h
  refine ⟨⟨encoded_wordR rfl rfl, raisesUninit_readsOf rfl⟩, ⟨encoded_wordR rfl rfl, raisesUninit_readsOf rfl⟩,
    fun p q hp hq => ⟨writesChecked_of ?_, writesChecked_of ?_⟩⟩
  · rw [h.exec_mul, writeProduct_of_some hp hq]
  · rw [h.exec_mull, writeProduct_of_some hp hq]

/-- Settles O45: both commands write the same product. -/
theorem mulIsMull : Obligations.MulIsMull := fun _ a b c h => (h.exec_mul a b c).trans (h.exec_mull a b c).symm

end Sys2Proof.Machine
end

section
/-! PROOF. The five division commands (44_divide.md R180, R187, R195 to R199): whichever datapath divides, the command
writes the digits of quotient and remainder, or raises DIVZERO. -/

namespace Sys2Proof.Machine

variable {s : State} {i : Instr} {n dv q r : Magnitude}

/-! ### The division flow under the invariant -/

/-- A command that divides canonical magnitudes and hands the pair on: DIVZERO for the divisor [0], else the Euclidean
pair, on either datapath (44_divide.md R180). -/
theorem Inv.divZero_or_pair (h : Inv s) {forceLong : Bool} {f : Magnitude × Magnitude → Except Trap State}
    (hn : canonical s.params.base n = true) (hdv : canonical s.params.base dv = true)
    (hexec : exec i s = finish s (divideM s n dv forceLong >>= f)) :
    (val s.params.base dv = 0 → Raises i s .divZero) ∧
    (val s.params.base dv ≠ 0 → exec i s = finish s
      (f (digits s.params.base (val s.params.base n / val s.params.base dv),
        digits s.params.base (val s.params.base n % val s.params.base dv)))) := by
  rw [divideM_eq h.params forceLong hn hdv] at hexec
  constructor
  · intro h0
    exact raises_of_bind_error hexec (if_pos h0)
  · intro h0
    rw [hexec, if_neg h0, bind_ok_eq]

/-- Long division, forced or not, answers the same (44_divide.md R187). -/
theorem Inv.divideM_forceLong (h : Inv s) (forceLong forceLong' : Bool) (hn : canonical s.params.base n = true)
    (hdv : canonical s.params.base dv = true) : divideM s n dv forceLong = divideM s n dv forceLong' :=
  divide_path_eq h.one_le_w _ _ _ _ hn hdv

/-! ### What each command does once its operands are read -/

/-- The check of DIV and DIVL passes for two different destinations, and the word is not used (44_divide.md R195). -/
theorem divTwo_of_ne (w : Word) {a d : MReg} (had : a ≠ d) (b c : MReg) (forceLong : Bool) :
    divTwo w a b c d forceLong s = finish s (readM s b >>= fun n => readM s c >>= fun dv =>
      divideM s n dv forceLong >>= fun qr => .ok (setM (setM s a qr.1) d qr.2)) := by
  rw [divTwo, require_of_true (decide_eq_true had)]
  rfl

theorem divTwo_of_some (w : Word) {a b c d : MReg} (had : a ≠ d) (forceLong : Bool) (hn : getM s b = some n)
    (hdv : getM s c = some dv) :
    divTwo w a b c d forceLong s =
      finish s (divideM s n dv forceLong >>= fun qr => .ok (setM (setM s a qr.1) d qr.2)) := by
  rw [divTwo_of_ne w had, readM_of_some hn, bind_ok_eq, readM_of_some hdv, bind_ok_eq]

theorem exec_quo (a : MReg) {b c : MReg} (hn : getM s b = some n) (hdv : getM s c = some dv) :
    exec (.quo a b c) s = finish s (divideM s n dv false >>= fun qr => .ok (setM s a qr.1)) := by
  rw [exec, execQuo, readM_of_some hn, readM_of_some hdv]
  rfl

theorem exec_rem (a : MReg) {b c : MReg} (hn : getM s b = some n) (hdv : getM s c = some dv) :
    exec (.rem a b c) s = finish s (divideM s n dv false >>= fun qr => .ok (setM s a qr.2)) := by
  rw [exec, execRem, readM_of_some hn, readM_of_some hdv]
  rfl

theorem exec_divx (a : MReg) {b : MReg} {c : XReg} (d : XReg) {x : Native} (hn : getM s b = some n)
    (hx : getX s c = some x) :
    exec (.divx a b c d) s = finish s (divideM s n (view s.params.base x) false >>= fun qr =>
      .ok (setX (setM s a qr.1) d (BitVec.ofNat 64 (val s.params.base qr.2)))) := by
  rw [exec, execDivx, readM_of_some hn, readX_of_some hx]
  rfl

/-! ### Commands that write two registers -/

/-- A command that only writes M[a] and another M[d]. -/
theorem completes_setM_setM {a d : MReg} (had : a ≠ d)
    (h : exec i s = finish s (.ok (setM (setM s a q) d r))) :
    Completes i s fun t => getM t a = some q ∧ getM t d = some r ∧ Frame [] [a, d] [] [] s t ∧ KeepsFlags s t ∧
      KeepsTmem s t :=
  completes_of_next h rfl rfl ⟨rfl, rfl, rfl⟩ ⟨rfl, rfl, fun _ => rfl⟩
    ⟨by simp [had], by simp, ⟨fun _ _ => rfl, fun p hp => by simp_all, fun _ _ => rfl, fun _ _ => rfl⟩, ⟨rfl, rfl⟩,
      fun _ => rfl⟩

/-- A command that only writes M[a] and, with a number below 2^64, X[d]. -/
theorem completes_setM_setX {a : MReg} {d : XReg} {v : Nat} (hv : v < 2 ^ 64)
    (h : exec i s = finish s (.ok (setX (setM s a q) d (BitVec.ofNat 64 v)))) :
    Completes i s fun t => getM t a = some q ∧ HasX t d v ∧ Frame [d] [a] [] [] s t ∧ KeepsFlags s t ∧
      KeepsTmem s t :=
  completes_of_next h rfl rfl ⟨rfl, rfl, rfl⟩ ⟨rfl, rfl, fun _ => rfl⟩
    ⟨by simp, ⟨_, by simp, (BitVec.toNat_ofNat v 64).trans (Nat.mod_eq_of_lt hv)⟩,
      ⟨fun p hp => by simp_all, fun p hp => by simp_all, fun _ _ => rfl, fun _ _ => rfl⟩, ⟨rfl, rfl⟩, fun _ => rfl⟩

/-! ### Equal destinations (30_encoding.md R80 (5)) -/

/-- The word of a command that is not well formed is refused. -/
theorem decode_wordR_of_not_wellFormed {op : Nat} {a b c d : BitVec 4} {k : BitVec 8}
    (henc : encode i = packR (BitVec.ofNat 8 op) a b c d k) (hw : i.wellFormed = false) :
    decode (wordR op a b c d k) = .error .sameDestination := by
  rw [wordR_eq_packR, ← henc, decode, decodeByOpcode_encode, checkWellFormed, hw]
  rfl

/-! ### The obligations -/

/-- Settles O46: the flow gives the Euclidean pair or DIVZERO, and both commands write the pair to M[a] and M[d]. -/
theorem divide_holds : Obligations.Divide := by
  intro s a b c d h
  refine ⟨fun had => ⟨encoded_wordR rfl (bne_iff_ne.2 had), raisesUninit_readsOf (bne_iff_ne.2 had)⟩,
    fun had => ⟨encoded_wordR rfl (bne_iff_ne.2 had), raisesUninit_readsOf (bne_iff_ne.2 had)⟩,
    ⟨decode_wordR_of_not_wellFormed (i := .div a b c a) rfl (bne_self_eq_false a),
      decode_wordR_of_not_wellFormed (i := .divl a b c a) rfl (bne_self_eq_false a)⟩, fun n dv had hn hdv => ?_⟩
  have hcn := h.canonical_of_getM hn
  have hcdv := h.canonical_of_getM hdv
  obtain ⟨hdiv0, hdiv⟩ := h.divZero_or_pair (i := .div a b c d) hcn hcdv (divTwo_of_some _ had false hn hdv)
  obtain ⟨hdivl0, hdivl⟩ := h.divZero_or_pair (i := .divl a b c d) hcn hcdv (divTwo_of_some _ had true hn hdv)
  exact ⟨fun h0 => ⟨hdiv0 h0, hdivl0 h0⟩,
    fun h0 => ⟨completes_setM_setM had (hdiv h0), completes_setM_setM had (hdivl h0)⟩⟩

/-- Settles O47: the two commands differ only in the datapath, and on canonical operands the paths agree. -/
theorem divIsDivl : Obligations.DivIsDivl := by
  intro s a b c d h had
  rw [exec, exec, execDiv, execDivl, divTwo_of_ne _ had, divTwo_of_ne _ had]
  refine congrArg (finish s) <| (h.onOk_readM b).bind_congr fun n hn => (h.onOk_readM c).bind_congr fun dv hdv => ?_
  rw [h.divideM_forceLong false true hn.canonical hdv.canonical]

/-- Settles O48: each command writes its half of the Euclidean pair, or raises DIVZERO. -/
theorem quotientRemainder : Obligations.QuotientRemainder := by
  intro s a b c h
  refine ⟨⟨encoded_wordR rfl rfl, raisesUninit_readsOf rfl⟩, ⟨encoded_wordR rfl rfl, raisesUninit_readsOf rfl⟩,
    fun n dv hn hdv => ?_⟩
  have hcn := h.canonical_of_getM hn
  have hcdv := h.canonical_of_getM hdv
  obtain ⟨hquo0, hquo⟩ := h.divZero_or_pair hcn hcdv (exec_quo a hn hdv)
  obtain ⟨hrem0, hrem⟩ := h.divZero_or_pair hcn hcdv (exec_rem a hn hdv)
  exact ⟨fun h0 => ⟨hquo0 h0, hrem0 h0⟩, fun h0 => ⟨completesM_of_ok (hquo h0), completesM_of_ok (hrem h0)⟩⟩

/-- Settles O49: the divisor is the digit view of X[c], whose value is X[c], and the remainder is below it, so it fits
X[d]. -/
theorem divideByNative : Obligations.DivideByNative := by
  intro s a b c d h
  refine ⟨encoded_wordR rfl rfl, raisesUninit_readsOf rfl, fun n x hn hx => ?_⟩
  obtain ⟨hzero, hpair⟩ := h.divZero_or_pair (h.canonical_of_getM hn) (h.canonical_view x) (exec_divx a d hn hx)
  rw [h.val_view, val_digits h.two_le_base] at hpair
  rw [h.val_view] at hzero
  refine ⟨hzero, fun h0 => completes_setM_setX ?_ (hpair h0)⟩
  exact (Nat.mod_lt _ (Nat.pos_of_ne_zero h0)).trans x.isLt

end Sys2Proof.Machine
end

section
/-! PROOF. ASSERT is unreachable (60_exceptions.md R290): of all the checks of a command only those of a division raise
it, and under the invariant a division answers its pair or DIVZERO (44_divide.md R186, R193, R194). -/

namespace Sys2Proof.Machine

variable {s t : State}

/-! ### Ends of a command without ASSERT -/

/-- A next state of the outcome that is FAULTED is so by another fault than ASSERT (60_exceptions.md R282). -/
def RaisesNoAssert (o : Host.Outcome State Fault Refusal) : Prop :=
  ∀ t, o = .next t → t.runState = .faulted → t.faultCause.toNat ≠ 8

/-- ASSERT alone has the cause code 8. -/
theorem trapCause_toNat_ne {e : Trap} (he : ∀ site, e ≠ .assertion site) : (trapCause e).toNat ≠ 8 := by
  cases e with
  | assertion site => exact absurd rfl (he site)
  | _ => simp [trapCause]

theorem raisesNoAssert_next (ht : t.runState ≠ .faulted) : RaisesNoAssert (.next t) := by
  rintro _ ⟨⟩ hf
  exact absurd hf ht

theorem raisesNoAssert_takeFault {e : Trap} (he : ∀ site, e ≠ .assertion site) :
    RaisesNoAssert (.next (takeFault s e)) := by
  rintro _ ⟨⟩ -
  exact trapCause_toNat_ne he

/-- A command that completes with STATE still RUNNING. -/
theorem raisesNoAssert_ok (ht : t.runState = .running) : RaisesNoAssert (finish s (.ok t)) :=
  raisesNoAssert_next (t := advancePc t) (ht ▸ nofun)

/-- A read of an operand raises UNINIT only, and hands its value on. -/
theorem raisesNoAssert_read {α : Type} {v : Option α} {file : RegFile} {p : BitVec 4} {f : α → Except Trap State}
    (hf : ∀ a, v = some a → RaisesNoAssert (finish s (f a))) :
    RaisesNoAssert (finish s (orTrap v (.uninit file p) >>= f)) := by
  cases v with
  | none => exact raisesNoAssert_takeFault nofun
  | some a => exact hf a rfl

/-- A check of a command raises its own fault. -/
theorem raisesNoAssert_require {c : Bool} {e : Trap} {f : Unit → Except Trap State} (he : ∀ site, e ≠ .assertion site)
    (hf : c = true → RaisesNoAssert (finish s (f ()))) : RaisesNoAssert (finish s (require c e >>= f)) := by
  cases c with
  | false => exact raisesNoAssert_takeFault he
  | true => exact hf rfl

/-- A float operand raises UNINIT or FLOAT_DOMAIN (46_radix.md R240). -/
theorem raisesNoAssert_readFloat {p : FReg} {f : Dyadic → Except Trap State}
    (hf : ∀ x, RaisesNoAssert (finish s (f x))) : RaisesNoAssert (finish s (readFloat s p >>= f)) := by
  rw [readFloat, bind_assoc]
  refine raisesNoAssert_read fun bits _ => ?_
  obtain ⟨x, hx, -⟩ | ⟨herr, -⟩ := checkFloat_cases bits
  · rw [hx]
    exact hf x
  · rw [herr]
    exact raisesNoAssert_takeFault nofun

/-- The read of a text's first bytes raises MEMRANGE (46_radix.md R236, R238). -/
theorem raisesNoAssert_readPrefix {addr len : Nat} {f : List Byte → Except Trap State}
    (hf : ∀ bytes, RaisesNoAssert (finish s (f bytes))) :
    RaisesNoAssert (finish s (readPrefix s addr len >>= f)) := by
  rw [readPrefix, bind_assoc]
  exact raisesNoAssert_require nofun fun _ => hf _

section
variable (hs : s.runState = .running)
include hs

theorem raisesNoAssert_writeChecked (a : MReg) (m : Magnitude) : RaisesNoAssert (finish s (writeChecked s a m)) :=
  raisesNoAssert_require nofun fun _ => raisesNoAssert_ok hs

theorem raisesNoAssert_writeShl (a : MReg) (m : Magnitude) (k : Nat) : RaisesNoAssert (finish s (writeShl s a m k)) :=
  raisesNoAssert_require nofun fun _ => raisesNoAssert_ok hs

theorem raisesNoAssert_parseText (a : MReg) (addr len p : Nat) :
    RaisesNoAssert (finish s (parseText s a addr len p)) := by
  unfold parseText
  split
  · exact raisesNoAssert_ok hs
  split
  · exact raisesNoAssert_ok hs
  split
  · exact raisesNoAssert_ok hs
  · rw [writeChecked, bind_assoc]
    exact raisesNoAssert_require nofun fun _ => raisesNoAssert_ok hs

/-- The divisions of a text have a nonzero radix for divisor (46_radix.md R233). -/
theorem Inv.raisesNoAssert_formatText (h : Inv s) (a : XReg) {m : Magnitude} (hm : canonical s.params.base m = true)
    (addr p : Nat) : RaisesNoAssert (finish s (formatText s a m addr p)) := by
  unfold formatText
  split
  · exact raisesNoAssert_ok hs
  next hp =>
    have hp2 : 2 ≤ p := (legalRadix_iff.1 (by simpa using hp)).1
    refine raisesNoAssert_require nofun fun _ => ?_
    rw [formatMag_eq h.one_le_w _ hm hp2]
    exact raisesNoAssert_ok hs

end

/-- A division of canonical magnitudes raises DIVZERO only (44_divide.md R186, R193, R194). -/
theorem Inv.raisesNoAssert_divideM (h : Inv s) {n dv : Magnitude} {forceLong : Bool}
    {f : Magnitude × Magnitude → Except Trap State} (hn : canonical s.params.base n = true)
    (hdv : canonical s.params.base dv = true) (hf : ∀ qr, RaisesNoAssert (finish s (f qr))) :
    RaisesNoAssert (finish s (divideM s n dv forceLong >>= f)) := by
  rw [divideM_eq h.params forceLong hn hdv]
  split
  · exact raisesNoAssert_takeFault nofun
  · exact hf _

/-! ### Commands -/

theorem raisesNoAssert_br (hs : s.runState = .running) (cond : Cond) (off : BitVec 16) :
    RaisesNoAssert (execBr cond off s) := by
  have hne : s.runState ≠ .faulted := hs ▸ nofun
  unfold execBr
  split
  · exact raisesNoAssert_next hne
  · exact raisesNoAssert_next hne

theorem Inv.raisesNoAssert_divTwo (h : Inv s) (hs : s.runState = .running) (w : Word) (a b c d : MReg)
    (forceLong : Bool) : RaisesNoAssert (divTwo w a b c d forceLong s) :=
  raisesNoAssert_require nofun fun _ => raisesNoAssert_read fun _ hn => raisesNoAssert_read fun _ hdv =>
    h.raisesNoAssert_divideM (h.canonical_of_getM hn) (h.canonical_of_getM hdv) fun _ => raisesNoAssert_ok hs

/-- No command raises ASSERT: its reads and checks raise other faults, and a division or a text raises none of its own
but DIVZERO. -/
theorem Inv.raisesNoAssert_exec (h : Inv s) (hs : s.runState = .running) (i : Instr) : RaisesNoAssert (exec i s) := by
  cases i with
  | nop | csrr _ _ | li _ _ => exact raisesNoAssert_ok (s := s) hs
  | halt => exact raisesNoAssert_next nofun
  | br cond off => exact raisesNoAssert_br hs cond off
  | lih _ _ | xaddi _ _ _ | mov _ _ | mfx _ _ | len _ _ | fmvx _ _ | digv _ _ | edl _ _ | edm _ _ | edh _ _ | esz _ _
  | vlo _ _ | vhi _ _ | vsz _ _ | sodd _ _ | sodb _ _ | shri _ _ _ =>
    exact raisesNoAssert_read fun _ _ => raisesNoAssert_ok hs
  | xcmp _ _ | getd _ _ _ | ecmp _ _ | cmp _ _ | cmpx _ _ | sub _ _ _ | shr _ _ _ =>
    exact raisesNoAssert_read fun _ _ => raisesNoAssert_read fun _ _ => raisesNoAssert_ok hs
  | ldb _ _ _ | emb _ _ | eshr _ _ _ =>
    exact raisesNoAssert_read fun _ _ => raisesNoAssert_require nofun fun _ => raisesNoAssert_ok hs
  | clz _ _ =>
    exact raisesNoAssert_read fun _ _ => raisesNoAssert_require nofun fun _ => raisesNoAssert_require nofun fun _ =>
      raisesNoAssert_ok hs
  | stb _ _ _ | emov _ _ _ | esub _ _ _ =>
    exact raisesNoAssert_read fun _ _ => raisesNoAssert_read fun _ _ => raisesNoAssert_require nofun fun _ =>
      raisesNoAssert_ok hs
  | emba _ _ _ | emuld _ _ _ =>
    exact raisesNoAssert_read fun _ _ => raisesNoAssert_read fun _ _ => raisesNoAssert_require nofun fun _ =>
      raisesNoAssert_require nofun fun _ => raisesNoAssert_ok hs
  | rinf _ _ _ =>
    exact raisesNoAssert_read fun _ _ => raisesNoAssert_read fun _ _ => raisesNoAssert_readPrefix fun _ =>
      raisesNoAssert_ok hs
  | rpfx _ _ _ _ =>
    exact raisesNoAssert_read fun _ _ => raisesNoAssert_read fun _ _ => raisesNoAssert_read fun _ _ =>
      raisesNoAssert_readPrefix fun _ => raisesNoAssert_ok hs
  | digvf _ _ | fdcnt _ _ => exact raisesNoAssert_readFloat fun _ => raisesNoAssert_ok hs
  | fcvt a _ => exact raisesNoAssert_readFloat fun _ => raisesNoAssert_writeChecked hs a _
  | cmpf _ _ => exact raisesNoAssert_read fun _ _ => raisesNoAssert_readFloat fun _ => raisesNoAssert_ok hs
  | addf a _ _ =>
    exact raisesNoAssert_read fun _ _ => raisesNoAssert_readFloat fun _ => raisesNoAssert_writeChecked hs a _
  | add a _ _ | addx a _ _ | mul a _ _ | mull a _ _ =>
    exact raisesNoAssert_read fun _ _ => raisesNoAssert_read fun _ _ => raisesNoAssert_writeChecked hs a _
  | shl a _ _ =>
    exact raisesNoAssert_read fun _ _ => raisesNoAssert_read fun _ _ => raisesNoAssert_writeShl hs a _ _
  | shli a _ _ => exact raisesNoAssert_read fun _ _ => raisesNoAssert_writeShl hs a _ _
  | parse a _ _ _ =>
    exact raisesNoAssert_read fun _ _ => raisesNoAssert_read fun _ _ => raisesNoAssert_read fun _ _ =>
      raisesNoAssert_require nofun fun _ => raisesNoAssert_parseText hs a _ _ _
  | div a b c d => exact h.raisesNoAssert_divTwo hs _ a b c d false
  | divl a b c d => exact h.raisesNoAssert_divTwo hs _ a b c d true
  | quo _ _ _ | rem _ _ _ =>
    exact raisesNoAssert_read fun _ hn => raisesNoAssert_read fun _ hdv =>
      h.raisesNoAssert_divideM (h.canonical_of_getM hn) (h.canonical_of_getM hdv) fun _ => raisesNoAssert_ok hs
  | divx _ _ _ _ =>
    exact raisesNoAssert_read fun _ hn => raisesNoAssert_read fun x _ =>
      h.raisesNoAssert_divideM (h.canonical_of_getM hn) (h.canonical_view x) fun _ => raisesNoAssert_ok hs
  | fmt a _ _ _ =>
    exact raisesNoAssert_read fun _ hm => raisesNoAssert_read fun _ _ => raisesNoAssert_read fun _ _ =>
      h.raisesNoAssert_formatText hs a (h.canonical_of_getM hm) _ _

/-- A step of a running core ends in fetch's fault, PCRANGE, in ILLEGAL, or in a command. -/
theorem Inv.raisesNoAssert_step (h : Inv s) (hs : s.runState = .running) : RaisesNoAssert (step s) := by
  rw [step_of_running hs]
  unfold runStep
  split
  next e hf =>
    obtain ⟨-, rfl⟩ := fetch_eq_error.1 hf
    exact raisesNoAssert_takeFault nofun
  · split
    · exact raisesNoAssert_takeFault nofun
    · exact h.raisesNoAssert_exec hs _

/-! ### The obligations -/

/-- Settles O20: by cases on the command a running core executes; the divisions answer their pair or DIVZERO. -/
theorem assertNeverRaised : Obligations.AssertNeverRaised := fun _ t h hs ht => h.raisesNoAssert_step hs t ht

end Sys2Proof.Machine
end

section
/-! PROOF. The four shift commands (45_shift.md R211 to R216): under the invariant the shifter gives the digits of the
product or quotient by 2^k, which SHL and SHLI write through the capacity check and SHR and SHRI write as they are. -/

namespace Sys2Proof.Machine

variable {s : State} {i : Instr} {m : Magnitude} {k : Nat}

/-! ### Immediate commands -/

theorem encoded_wordI {op : Nat} {a b : BitVec 4} {imm : BitVec 16}
    (h : encode i = packI (BitVec.ofNat 8 op) a b imm) (hw : i.wellFormed = true) : Encoded (wordI op a b imm) i :=
  encoded_of_encode_eq (h.trans (wordI_eq_packI op a b imm).symm) hw

@[simp] theorem zextImm_toNat (imm : BitVec 16) : (zextImm imm).toNat = imm.toNat :=
  BitVec.toNat_setWidth_of_le (by decide)

/-! ### The shifters under the invariant -/

/-- The length SHL checks is that of the result, so it writes like any other command with a checked result
(45_shift.md R213). -/
theorem Inv.writeShl_eq_writeChecked (h : Inv s) (a : MReg) (hm : canonical s.params.base m = true) (k : Nat) :
    writeShl s a m k = writeChecked s a (digits s.params.base (val s.params.base m * 2 ^ k)) := by
  have hmag : shlMag s.params.w m k = digits s.params.base (val s.params.base m * 2 ^ k) :=
    shlMag_eq_digits h.one_le_w hm k
  rw [writeShl, writeChecked, ← shlMag_length (canonical_ne_nil hm), hmag]

/-- A left shift of the magnitude in a register (45_shift.md R211, R213). -/
theorem Inv.writesChecked_writeShl (h : Inv s) {a b : MReg} (hm : getM s b = some m)
    (hexec : exec i s = finish s (writeShl s a m k)) :
    WritesChecked i s a (digits s.params.base (val s.params.base m * 2 ^ k)) :=
  writesChecked_of (hexec.trans (by rw [h.writeShl_eq_writeChecked a (h.canonical_of_getM hm)]))

/-- A right shift of the magnitude in a register (45_shift.md R212, R214). -/
theorem Inv.completesM_shrMag (h : Inv s) {a b : MReg} (hm : getM s b = some m)
    (hexec : exec i s = finish s (.ok (Machine.setM s a (shrMag s.params.w m k)))) :
    CompletesM i s a (digits s.params.base (val s.params.base m / 2 ^ k)) := by
  rw [shrMag_eq_digits h.one_le_w (h.canonical_of_getM hm)] at hexec
  exact completesM_of_ok hexec

/-! ### The obligations -/

/-- Settles O50: both commands shift the canonical M[b] left through the checked write, by X[c] or by the immediate. -/
theorem shiftLeft : Obligations.ShiftLeft := by
  intro s a b c imm h
  refine ⟨⟨encoded_wordR rfl rfl, raisesUninit_readsOf rfl, fun m k hm hk => h.writesChecked_writeShl hm ?_⟩,
    ⟨encoded_wordI rfl rfl, raisesUninit_readsOf rfl, fun m hm => h.writesChecked_writeShl hm ?_⟩⟩
  · rw [exec, execShl, readM_of_some hm, readX_of_some hk, bind_ok_eq, bind_ok_eq]
  · rw [exec, execShli, readM_of_some hm, bind_ok_eq, zextImm_toNat]

/-- Settles O51: both commands shift the canonical M[b] right, by X[c] or by the immediate; the result needs no check. -/
theorem shiftRight : Obligations.ShiftRight := by
  intro s a b c imm h
  refine ⟨⟨encoded_wordR rfl rfl, raisesUninit_readsOf rfl, fun m k hm hk => h.completesM_shrMag hm ?_⟩,
    ⟨encoded_wordI rfl rfl, raisesUninit_readsOf rfl, fun m hm => h.completesM_shrMag hm ?_⟩⟩
  · rw [exec, execShr, readM_of_some hm, readX_of_some hk, bind_ok_eq, bind_ok_eq, pure_eq_ok]
  · rw [exec, execShri, readM_of_some hm, bind_ok_eq, pure_eq_ok, zextImm_toNat]

end Sys2Proof.Machine
end

section
/-! PROOF. PARSE, FMT, RINF and RPFX (46_radix.md R225 to R238): the range check of a text, the values of the characters
that stand in TMEM, and the way back from a magnitude's text to the magnitude (R247). -/

namespace Sys2Proof.Machine

variable {s : State} {i : Instr} {m : Magnitude} {vs : List Nat} {addr n r : Nat}

/-! ### The range check (20_memory.md R52) -/

theorem lowestBad_eq_ite (s : State) (addr : Nat) : ((lowestBad s addr : Nat) : Int) =
    if s.params.tmemSize ≤ addr then (addr : Int) else (s.params.tmemSize : Int) := by
  unfold lowestBad
  split <;> omega

/-- A command whose next part is the check of a range that leaves TMEM. -/
theorem raises_memRange {f : Unit → Except Trap State} (h : exec i s = finish s (checkRange s addr n >>= f))
    (hbad : 0 < n ∧ s.params.tmemSize < addr + n) :
    Raises i s (.memRange (if s.params.tmemSize ≤ addr then (addr : Int) else (s.params.tmemSize : Int))) :=
  lowestBad_eq_ite s addr ▸ raises_of_bind_error h (checkRange_eq_error.2 ⟨⟨hbad.1.ne', hbad.2⟩, rfl⟩)

theorem checkRange_of_not_bad (h : ¬ (0 < n ∧ s.params.tmemSize < addr + n)) : checkRange s addr n = .ok () :=
  checkRange_eq_ok.2 (by omega)

/-! ### Commands that write PERR -/

/-- A recoverable error is a completion that writes PERR only (60_exceptions.md R281). -/
theorem completes_setPerr {v : ParseError} (h : exec i s = finish s (.ok (setPerr s v))) :
    Completes i s fun t => t.perr = v ∧ t.sgn = s.sgn ∧ Frame [] [] [] [] s t ∧ KeepsTmem s t :=
  completes_of_next h rfl rfl ⟨rfl, rfl, rfl⟩ ⟨rfl, rfl, fun _ => rfl⟩
    ⟨rfl, rfl, ⟨fun _ _ => rfl, fun _ _ => rfl, fun _ _ => rfl, fun _ _ => rfl⟩, fun _ => rfl⟩

/-- A command that only writes M[a] and PERR. -/
theorem completes_setM_setPerr {a : MReg} {v : ParseError} (h : exec i s = finish s (.ok (setPerr (setM s a m) v))) :
    Completes i s fun t => getM t a = some m ∧ t.perr = v ∧ t.sgn = s.sgn ∧ Frame [] [a] [] [] s t ∧ KeepsTmem s t :=
  completes_of_next h rfl rfl ⟨rfl, rfl, rfl⟩ ⟨rfl, rfl, fun _ => rfl⟩
    ⟨(getM_setM s a a m).trans (if_pos rfl), rfl, rfl,
      ⟨fun _ _ => rfl, fun p hp => (getM_setM s a p m).trans (if_neg (List.ne_of_not_mem_cons hp)), fun _ _ => rfl,
        fun _ _ => rfl⟩, fun _ => rfl⟩

/-- A command that only stores a text in TMEM, writes its length to X[a], and writes PERR. -/
theorem completes_setBytes_setX_setPerr {a : XReg} {text : List Byte} {v : ParseError} (hwf : Memory.wf s.tmem)
    (hn : text.length = n) (hlt : n < 2 ^ 64)
    (h : exec i s = finish s (.ok (setPerr (setX (setBytes s addr text) a (BitVec.ofNat 64 n)) v))) :
    Completes i s fun t => HasX t a n ∧ t.perr = v ∧ t.sgn = s.sgn ∧ Frame [a] [] [] [] s t ∧
      KeepsTmemOutside addr n s t ∧ ∀ j, j < n → tmemByte t (addr + j) = (text[j]?).getD 0 :=
  completes_of_next h rfl rfl ⟨rfl, rfl, rfl⟩ ⟨rfl, rfl, fun _ => rfl⟩
    ⟨⟨_, (getX_setX _ a a _).trans (if_pos rfl), (BitVec.toNat_ofNat n 64).trans (Nat.mod_eq_of_lt hlt)⟩, rfl, rfl,
      ⟨fun p hp => (getX_setX _ a p _).trans (if_neg (List.ne_of_not_mem_cons hp)), fun _ _ => rfl, fun _ _ => rfl,
        fun _ _ => rfl⟩,
      keepsTmemOutside_setBytes hwf hn, fun j hj =>
        (tmemByte_setBytes s addr text (addr + j) hwf).trans (by rw [if_neg (by omega), Nat.add_sub_cancel_left])⟩

/-! ### PARSE (46_radix.md R230) -/

theorem legalRadix_eq_false_iff : legalRadix r = false ↔ r < 2 ∨ 64 < r := by
  rw [← Bool.not_eq_true, legalRadix_iff]
  omega

/-- The characters of a text in TMEM have these values. -/
theorem textValues_tmemBytes_of_forall (hlen : vs.length = n)
    (h : ∀ j, j < n → charValue (tmemByte s (addr + j)) r = some (vs.getD j 0)) :
    textValues r (tmemBytes s addr n) = some vs := by
  refine textValues_eq_some.2 (List.forall₂_iff_get.2 ⟨(tmemBytes_length s addr n).trans hlen.symm, fun j hj hj' => ?_⟩)
  have hchar := h j (hlen ▸ hj')
  rw [List.getD_eq_getElem _ _ hj'] at hchar
  simpa [tmemBytes] using hchar

/-- A text in TMEM has a character without a value. -/
theorem textValues_tmemBytes_eq_none :
    textValues r (tmemBytes s addr n) = none ↔ ∃ j, j < n ∧ charValue (tmemByte s (addr + j)) r = none := by
  simp [textValues_eq_none, tmemBytes]

theorem parseText_of_badRadix (a : MReg) (hr : r < 2 ∨ 64 < r) :
    parseText s a addr n r = .ok (setPerr s .badRadix) := by
  rw [parseText, legalRadix_eq_false_iff.2 hr]
  rfl

theorem parseText_of_empty (a : MReg) (hr : 2 ≤ r ∧ r ≤ 64) : parseText s a addr 0 r = .ok (setPerr s .empty) := by
  rw [parseText, legalRadix_iff.2 hr]
  rfl

theorem parseText_of_badChar (a : MReg) (hr : 2 ≤ r ∧ r ≤ 64) (hn : n ≠ 0)
    (ht : textValues r (tmemBytes s addr n) = none) : parseText s a addr n r = .ok (setPerr s .badChar) := by
  rw [parseText, legalRadix_iff.2 hr, if_neg (by decide), if_neg hn, ht]

/-- A well-formed text goes through the checked write as the digits of its number (46_radix.md R229). -/
theorem Inv.parseText_of_textValues (h : Inv s) (a : MReg) (hr : 2 ≤ r ∧ r ≤ 64) (hn : n ≠ 0)
    (ht : textValues r (tmemBytes s addr n) = some vs) :
    parseText s a addr n r =
      writeChecked s a (digits s.params.base (textNumber r vs)) >>= fun t => .ok (Machine.setPerr t .none) := by
  rw [parseText, legalRadix_iff.2 hr, if_neg (by decide), if_neg hn, ht,
    ← horner_eq h.two_le_base (h.radix_lt_base hr.2)]
  rfl

theorem exec_parse (a : MReg) {b c d : XReg} {addr len r : Native} (haddr : getX s b = some addr)
    (hlen : getX s c = some len) (hr : getX s d = some r) :
    exec (.parse a b c d) s = finish s (checkRange s addr.toNat len.toNat >>= fun _ =>
      parseText s a addr.toNat len.toNat r.toNat) := by
  rw [exec, execParse, readX_of_some haddr, readX_of_some hlen, readX_of_some hr]
  rfl

/-! ### FMT (46_radix.md R234) -/

theorem formatText_of_badRadix (a : XReg) (m : Magnitude) (hr : r < 2 ∨ 64 < r) :
    formatText s a m addr r = .ok (setPerr s .badRadix) := by
  rw [formatText, legalRadix_eq_false_iff.2 hr]
  rfl

/-- The text FMT writes: the radix-r digits of the value as characters, most significant first (46_radix.md R233). -/
def magText (r v : Nat) : List Byte := (digits r v).reverse.map (outputChar r)

theorem magText_length (r v : Nat) : (magText r v).length = fmtLen r v := by
  rw [magText, List.length_map, List.length_reverse, fmtLen_eq]

theorem Inv.formatText_of_legalRadix (h : Inv s) (a : XReg) (hm : canonical s.params.base m = true)
    (hr : 2 ≤ r ∧ r ≤ 64) :
    formatText s a m addr r = checkRange s addr (fmtLen r (val s.params.base m)) >>= fun _ =>
      .ok (Machine.setPerr (Machine.setX (Machine.setBytes s addr (magText r (val s.params.base m))) a
        (BitVec.ofNat 64 (fmtLen r (val s.params.base m)))) .none) := by
  rw [formatText, legalRadix_iff.2 hr, formatMag_eq h.one_le_w _ hm hr.1]
  rfl

theorem exec_fmt (a : XReg) {b : MReg} {c d : XReg} {addr r : Native} (hm : getM s b = some m)
    (haddr : getX s c = some addr) (hr : getX s d = some r) :
    exec (.fmt a b c d) s = finish s (formatText s a m addr.toNat r.toNat) := by
  rw [exec, execFmt, readM_of_some hm, readX_of_some haddr, readX_of_some hr]
  rfl

/-! ### The text of a magnitude read back (46_radix.md R247) -/

/-- The character FMT writes at a place of the text is read back as the digit at that place. -/
theorem charValue_formatted {v j : Nat} (hr : 2 ≤ r ∧ r ≤ 64) (hj : j < fmtLen r v) :
    charValue (outputChar r (v / r ^ (fmtLen r v - 1 - j) % r)) r = some ((digits r v).reverse.getD j 0) := by
  rw [List.getD_eq_getElem?_getD, digits_reverse_getElem? hr.1 hj]
  exact charValue_outputChar hr.2 (Nat.mod_lt _ (by omega))

theorem textNumber_digits_reverse (hr : 2 ≤ r) (v : Nat) : textNumber r (digits r v).reverse = v := by
  rw [textNumber_eq, List.reverse_reverse, val_digits hr]

/-! ### RINF and RPFX (46_radix.md R235 to R238) -/

theorem inferred_le (t0 t1 : Byte) (len : Nat) : inferred t0 t1 len ≤ 16 := by
  unfold inferred
  split_ifs <;> norm_num

theorem matchedPrefix_le (p r : Nat) : matchedPrefix p r ≤ 2 := by
  unfold matchedPrefix
  split_ifs <;> norm_num

theorem exec_rinf (a : XReg) {b c : XReg} {addr len : Native} (haddr : getX s b = some addr)
    (hlen : getX s c = some len) :
    exec (.rinf a b c) s = finish s (checkRange s addr.toNat (min len.toNat 2) >>= fun _ =>
      .ok (setX s a (BitVec.ofNat 64
        (inferred (tmemByte s addr.toNat) (tmemByte s (addr.toNat + 1)) len.toNat)))) := by
  rw [exec, execRinf, readX_of_some haddr, readX_of_some hlen, ← infer_tmemBytes]
  simp only [readPrefix, bind_assoc, bind_ok_eq, pure_eq_ok]

theorem exec_rpfx (a : XReg) {b c d : XReg} {addr len r : Native} (haddr : getX s b = some addr)
    (hlen : getX s c = some len) (hr : getX s d = some r) :
    exec (.rpfx a b c d) s = finish s (checkRange s addr.toNat (min len.toNat 2) >>= fun _ =>
      .ok (setX s a (BitVec.ofNat 64 (matchedPrefix
        (inferred (tmemByte s addr.toNat) (tmemByte s (addr.toNat + 1)) len.toNat) r.toNat)))) := by
  rw [exec, execRpfx, readX_of_some haddr, readX_of_some hlen, readX_of_some hr, ← infer_tmemBytes, ← prefixLen_eq]
  simp only [readPrefix, bind_assoc, bind_ok_eq, pure_eq_ok]

/-! ### The obligations -/

/-- Settles O53: the characters' values go through Horner's scheme to the digits of their number, which go through the
checked write. -/
theorem parseNumber : Obligations.ParseNumber := by
  intro s a b c d addr len r vs h haddr hlen hr hin h2 h64 hpos hvs hchars v
  have hexec := exec_parse a haddr hlen hr
  rw [checkRange_of_not_bad (by omega), bind_ok_eq,
    h.parseText_of_textValues a ⟨h2, h64⟩ (by omega) (textValues_tmemBytes_of_forall hvs hchars)] at hexec
  refine ⟨fun hfits => completes_setM_setPerr ?_,
    fun hfits => raises_of_bind_error hexec (writeChecked_eq_error.2 ⟨hfits, rfl⟩)⟩
  rw [hexec, writeChecked_of_fits hfits, bind_ok_eq]

/-- Settles O54: the range check comes before the body of PARSE, whose recoverable errors exclude each other in their
order. -/
theorem parseErrors : Obligations.ParseErrors := by
  intro s a b c d
  refine ⟨encoded_wordR rfl rfl, raisesUninit_readsOf rfl, fun addr len r haddr hlen hr => ?_⟩
  intro sets
  have hexec := exec_parse a haddr hlen hr
  split
  next hbad => exact raises_memRange hexec hbad
  next hbad =>
    rw [checkRange_of_not_bad hbad, bind_ok_eq] at hexec
    split_ifs with hradix hempty
    · exact completes_setPerr (by rw [hexec, parseText_of_badRadix a hradix])
    · exact completes_setPerr (by rw [hexec, hempty, parseText_of_empty a (by omega)])
    · exact fun hchar => completes_setPerr
        (by rw [hexec, parseText_of_badChar a (by omega) hempty (textValues_tmemBytes_eq_none.2 hchar)])

/-- Settles O55: the text has the announced length, passes the range check, and is stored as it is. -/
theorem formatNumber : Obligations.FormatNumber := by
  intro s a c d b m addr r L h hm haddr hr h2 h64 hL hin
  obtain rfl := (isTextLength_iff h2).1 hL
  have hsize : s.params.tmemSize < 2 ^ 64 := h.params.2.2.2.2.2.1.2
  have hexec := exec_fmt a hm haddr hr
  rw [h.formatText_of_legalRadix a (h.canonical_of_getM hm) ⟨h2, h64⟩, checkRange_of_not_bad (by omega),
    bind_ok_eq] at hexec
  obtain ⟨t, ht, hadv, hx, hperr, hsgn, hframe, hkeeps, hbytes⟩ :=
    completes_setBytes_setX_setPerr h.tmem (magText_length _ _) (by omega) hexec
  refine ⟨t, ht, hadv, hx, hperr, hsgn, hframe, hkeeps, fun j hj => ?_⟩
  rw [hbytes j hj, magText, format_getElem h2 hj, Option.getD_some]

/-- Settles O56: the radix is checked before the range, and the range checked is that of the whole text. -/
theorem formatErrors : Obligations.FormatErrors := by
  intro s a c d b h
  refine ⟨encoded_wordR rfl rfl, raisesUninit_readsOf rfl, fun m addr r hm haddr hr => ⟨fun hradix => ?_,
    fun L h2 h64 hL hbad => ?_⟩⟩
  · exact completes_setPerr (by rw [exec_fmt a hm haddr hr, formatText_of_badRadix a m hradix])
  · obtain rfl := (isTextLength_iff h2).1 hL
    have hpos : 0 < fmtLen r.toNat (val s.params.base m) :=
      fmtLen_eq _ _ ▸ length_pos_of_canonical (canonical_digits h2 _)
    have hexec := exec_fmt a hm haddr hr
    rw [h.formatText_of_legalRadix a (h.canonical_of_getM hm) ⟨h2, h64⟩] at hexec
    exact raises_memRange hexec ⟨hpos, hbad⟩

/-- Settles O57: FMT leaves in TMEM characters whose values are the digits of the magnitude, and PARSE, which finds the
address and the radix unchanged, reads their number, whose digits are the magnitude and fit as it did. -/
theorem formatThenParse : Obligations.FormatThenParse := by
  intro s a c d b e m addr r L h hm haddr hr h2 h64 hL hin hac had
  obtain ⟨u, hu, hadv, ⟨len, hlen, rfl⟩, -, -, hframe, -, hbytes⟩ :=
    formatNumber s a c d b m addr r L h hm haddr hr h2 h64 hL hin
  have hlenEq := (isTextLength_iff h2).1 hL
  have hparams : u.params = s.params := hadv.code.params
  have hvs : (digits r.toNat (val s.params.base m)).reverse.length = len.toNat := by
    rw [List.length_reverse, hlenEq, fmtLen_eq]
  have hpos : 1 ≤ len.toNat := by
    rw [← hvs, List.length_reverse]
    exact length_pos_of_canonical (canonical_digits h2 _)
  have hparse := parseNumber u e c a d addr len r _ (h.nextInv_exec _ u hu)
    ((hframe.x c (by simpa using hac.symm)).trans haddr) hlen ((hframe.x d (by simpa using had.symm)).trans hr)
    (hparams ▸ hin) h2 h64 hpos hvs fun j hj => by
      rw [hbytes j hj, hlenEq]
      exact charValue_formatted ⟨h2, h64⟩ (hlenEq ▸ hj)
  rw [hparams, textNumber_digits_reverse h2, digits_val h.two_le_base (h.canonical_of_getM hm)] at hparse
  obtain ⟨v, hv, -, hres, hperr, -⟩ := hparse.1 (h.magnitudes b m hm).2
  exact ⟨u, v, hu, hv, hres, hperr⟩

/-- Settles O58: both commands check the range of the bytes they read, and infer from those bytes alone. -/
theorem radixPrefix : Obligations.RadixPrefix := by
  intro s a b c d
  refine ⟨⟨encoded_wordR rfl rfl, raisesUninit_readsOf rfl⟩, ⟨encoded_wordR rfl rfl, raisesUninit_readsOf rfl⟩,
    fun addr len r haddr hlen hr => ?_⟩
  intro n p
  have hrinf := exec_rinf a haddr hlen
  have hrpfx := exec_rpfx a haddr hlen hr
  split
  next hbad => exact ⟨raises_memRange hrinf hbad, raises_memRange hrpfx hbad⟩
  next hbad =>
    rw [checkRange_of_not_bad hbad, bind_ok_eq] at hrinf hrpfx
    exact ⟨completesX_of_ofNat ((inferred_le _ _ _).trans_lt (by norm_num)) hrinf,
      completesX_of_ofNat ((matchedPrefix_le _ _).trans_lt (by norm_num)) hrpfx⟩

end Sys2Proof.Machine
end

section
/-! PROOF. Fault entry, the end of a step, reset, and the host's start and writes (60_exceptions.md R280 to R302,
47_control_move.md R250, 70_reset_and_hazards.md R310). -/

namespace Sys2Proof.Machine

variable {s : State} {i : Instr}

/-! ### How a step of a running core ends (47_control_move.md R250) -/

theorem runStep_of_decode_ok {w : Word} (hf : fetch s = .ok w) (hd : decode w = .ok i) : runStep s = exec i s := by
  simp only [runStep, hf, hd]

/-- A step of a running core takes a fault before it executes anything, or executes a command. -/
theorem runStep_eq_takeFault_or_exec (s : State) :
    (∃ e, runStep s = .next (takeFault s e)) ∨ ∃ i, runStep s = exec i s := by
  cases hf : fetch s with
  | error e => exact .inl ⟨e, runStep_of_fetch_error hf⟩
  | ok w =>
    cases hd : decode w with
    | error _ => exact .inl ⟨.illegal w, runStep_of_decode_error hf hd⟩
    | ok i => exact .inr ⟨i, runStep_of_decode_ok hf hd⟩

/-- A completion leaves the core RUNNING or, after HALT, IDLE. -/
theorem Completed.runState_ne_faulted {u : State} (h : Completed i s u) (hs : s.runState = .running) :
    u.runState ≠ .faulted := by
  obtain ⟨-, hidle⟩ | hkept := h.runState
  · rw [hidle]; nofun
  · rw [hkept, hs]; nofun

theorem Execution.exists_next {o : Host.Outcome State Fault Refusal} (h : Execution i s o) : ∃ t, o = .next t := by
  cases h with
  | @body r _ => cases r <;> exact ⟨_, rfl⟩
  | control => exact ⟨_, rfl⟩

theorem exists_next_of_runStep (s : State) : ∃ t, runStep s = .next t := by
  obtain ⟨_, he⟩ | ⟨i, hi⟩ := runStep_eq_takeFault_or_exec s
  · exact ⟨_, he⟩
  · exact hi ▸ (execution_exec i s).exists_next

/-! ### Single updates: what they leave unchanged -/

theorem frame_setX (s : State) (a : XReg) (v : Native) : Frame [a] [] [] [] s (setX s a v) :=
  ⟨fun r hr => (getX_setX s a r v).trans (if_neg (List.ne_of_not_mem_cons hr)), fun _ _ => rfl, fun _ _ => rfl,
    fun _ _ => rfl⟩

theorem frame_setM (s : State) (a : MReg) (v : Magnitude) : Frame [] [a] [] [] s (setM s a v) :=
  ⟨fun _ _ => rfl, fun r hr => (getM_setM s a r v).trans (if_neg (List.ne_of_not_mem_cons hr)), fun _ _ => rfl,
    fun _ _ => rfl⟩

theorem frame_setE (s : State) (a : EReg) (v : Nat) : Frame [] [] [a] [] s (setE s a v) :=
  ⟨fun _ _ => rfl, fun _ _ => rfl, fun r hr => (getE_setE s a r v).trans (if_neg (List.ne_of_not_mem_cons hr)),
    fun _ _ => rfl⟩

theorem frame_setF (s : State) (a : FReg) (v : Native) : Frame [] [] [] [a] s (setF s a v) :=
  ⟨fun _ _ => rfl, fun _ _ => rfl, fun _ _ => rfl,
    fun r hr => (getF_setF s a r v).trans (if_neg (List.ne_of_not_mem_cons hr))⟩

theorem frame_setBytes (s : State) (addr : Nat) (vs : List Byte) : Frame [] [] [] [] s (setBytes s addr vs) :=
  ⟨fun _ _ => rfl, fun _ _ => rfl, fun _ _ => rfl, fun _ _ => rfl⟩

theorem frame_setImem (s : State) (k : Nat) (w : Word) : Frame [] [] [] [] s (setImem s k w) :=
  ⟨fun _ _ => rfl, fun _ _ => rfl, fun _ _ => rfl, fun _ _ => rfl⟩

theorem tmemByte_setBytes_singleton (h : Memory.wf s.tmem) (addr : Nat) (v : Byte) :
    tmemByte (setBytes s addr [v]) addr = v := by
  rw [tmemByte_setBytes s addr [v] addr h]
  simp

/-! ### The host's writes (60_exceptions.md R298, R299) -/

theorem regValueAllowed_m_iff {m : Magnitude} :
    regValueAllowed s (.m m) = true ↔ canonical s.params.base m = true ∧ s.params.fits m.length = true :=
  Bool.and_eq_true_iff

theorem regValueAllowed_e_iff {v : Nat} : regValueAllowed s (.e v) = true ↔ v < s.params.base ^ 3 :=
  decide_eq_true_iff

theorem allowedIf_eq_ite {c : Bool} {p : Prop} [Decidable p] (hc : c = true ↔ p) {r : State × HostReply} :
    allowedIf c s r = if p then r else (s, .refused) := if_congr hc rfl rfl

/-- A register write touches only the register files. -/
theorem hostKeeps_setReg (s : State) (q : BitVec 4) (v : RegValue) :
    HostKeeps s (setReg s q v) ∧ KeepsTmem s (setReg s q v) ∧ KeepsImem s (setReg s q v) := by
  cases v <;> exact ⟨⟨rfl, rfl, ⟨rfl, rfl⟩, ⟨rfl, rfl, rfl⟩, rfl, rfl⟩, fun _ => rfl, fun _ => rfl⟩

theorem hostKeeps_setImem (s : State) (k : Nat) (w : Word) : HostKeeps s (setImem s k w) :=
  ⟨rfl, rfl, ⟨rfl, rfl⟩, ⟨rfl, rfl, rfl⟩, rfl, rfl⟩

theorem hostKeeps_setBytes (s : State) (addr : Nat) (vs : List Byte) : HostKeeps s (setBytes s addr vs) :=
  ⟨rfl, rfl, ⟨rfl, rfl⟩, ⟨rfl, rfl, rfl⟩, rfl, rfl⟩

section
variable (hs : s.runState ≠ .running)
include hs

theorem hostMove_writeReg {v : RegValue} {p : Prop} [Decidable p] (hv : regValueAllowed s v = true ↔ p)
    (q : BitVec 4) : hostMove (.writeReg q v) s = if p then (setReg s q v, .done) else (s, .refused) :=
  (hostMove_of_stopped hs _).trans (allowedIf_eq_ite hv)

theorem hostMove_writeImem (k : Nat) (w : Word) : hostMove (.writeImem k w) s =
    if k < s.params.imemWords then (setImem s k w, .done) else (s, .refused) :=
  (hostMove_of_stopped hs _).trans (allowedIf_eq_ite decide_eq_true_iff)

theorem hostMove_writeTmem (addr : Nat) (v : Byte) : hostMove (.writeTmem addr v) s =
    if addr < s.params.tmemSize then (setBytes s addr [v], .done) else (s, .refused) :=
  (hostMove_of_stopped hs _).trans (allowedIf_eq_ite decide_eq_true_iff)

theorem hostMove_readImem {k : Nat} (hk : k < s.params.imemWords) :
    hostMove (.readImem k) s = (s, .word (imemWord s k)) := by
  rw [hostMove_of_stopped hs, hostEffect, hostReadImem, allowedIf, if_pos (decide_eq_true hk)]

theorem hostMove_readTmem {addr : Nat} (ha : addr < s.params.tmemSize) :
    hostMove (.readTmem addr) s = (s, .byte (tmemByte s addr)) := by
  rw [hostMove_of_stopped hs, hostEffect, hostReadTmem, allowedIf, if_pos (decide_eq_true ha)]

end

/-! ### The obligations -/

/-- Settles O5: the fetch answers the word and the decoder the command. -/
theorem stepRunsTheCommand : Obligations.StepRunsTheCommand := fun _ _ hs hpc hd =>
  (step_of_running hs).trans (runStep_of_decode_ok (fetch_eq_ok.2 ⟨hpc, rfl⟩) hd)

/-- Settles O7: `takeFault` updates four fields. -/
theorem faultEntry : Obligations.FaultEntry := fun _ _ =>
  ⟨rfl, rfl, rfl, rfl, rfl, ⟨fun _ _ => rfl, fun _ _ => rfl, fun _ _ => rfl, fun _ _ => rfl⟩, ⟨rfl, rfl⟩,
    fun _ => rfl, ⟨rfl, rfl, fun _ => rfl⟩⟩

/-- Settles O8: FAULT_INFO zero-extends a word or a pc, puts UNINIT's file above its register, and takes a length or an
address modulo 2^64. -/
theorem faultCodes : Obligations.FaultCodes := by
  refine ⟨fun w => ⟨rfl, BitVec.toNat_setWidth_of_le (by decide)⟩, fun _ _ => rfl, fun r => ?_, fun _ => rfl,
    ⟨rfl, rfl, rfl, rfl, rfl, rfl⟩, ⟨rfl, rfl⟩, fun n => ⟨rfl, BitVec.toNat_ofNat n 64⟩, fun a => ⟨rfl, ?_⟩,
    fun pc => ⟨rfl, BitVec.toNat_setWidth_of_le (by decide)⟩, fun _ => rfl, ⟨rfl, rfl, rfl⟩⟩
  · simp [trapInfo_uninit_toNat, regFileCode]
  · rw [trapInfo, BitVec.toNat_ofInt, Int.toNat_of_nonneg (Int.emod_nonneg a (by norm_num))]
    rfl

/-- Settles O9: a step ends in fault entry or in a command, and a command that completes leaves the core not FAULTED. -/
theorem faultsArePrecise : Obligations.FaultsArePrecise := by
  intro s t hs ht hf
  rw [step_of_running hs] at ht
  obtain ⟨e, he⟩ | ⟨i, hi⟩ := runStep_eq_takeFault_or_exec s
  · exact ⟨e, Host.Outcome.next.inj (ht.symm.trans he)⟩
  · obtain hdone | hfault := completed_or_fault_of_exec (hi.symm.trans ht)
    · exact absurd hf (hdone.runState_ne_faulted hs)
    · exact hfault

/-- Settles O11: a command completes or takes a fault, and a core that is not RUNNING stays as it is. -/
theorem nothingStops : Obligations.NothingStops := by
  refine ⟨fun i s => (execution_exec i s).exists_next, fun s => ?_⟩
  unfold step
  split
  · exact exists_next_of_runStep s
  · exact ⟨s, rfl⟩
  · exact ⟨s, rfl⟩

/-- Settles O22: either reset is `State.resetWith` of some parameters and some epoch, and both memories are empty. -/
theorem resetState : Obligations.ResetState := by
  intro s t ht
  obtain ⟨p, n, rfl⟩ : ∃ p n, t = State.resetWith p n := by
    obtain rfl | rfl := ht
    · exact ⟨_, _, rfl⟩
    · exact ⟨_, _, rfl⟩
  exact ⟨getX_resetWith p n, getM_resetWith p n, getE_resetWith p n, getF_resetWith p n, rfl, rfl, rfl, rfl, rfl, rfl,
    rfl, rfl, fun _ => rfl, fun _ => rfl⟩

/-- Settles O23: a stopped core is started at the pc modulo 2^32, and a running core refuses. -/
theorem hostStart_holds : Obligations.HostStart := by
  refine fun s pc0 => ⟨fun hs => ?_, fun hs => hostMove_of_running hs nofun nofun⟩
  have hpc : BitVec.ofNat 32 (pc0 % 2 ^ 32) = BitVec.ofNat 32 pc0 := BitVec.eq_of_toNat_eq (by simp)
  rw [hostMove_of_stopped hs, hpc]
  rfl

/-- Settles O25: an allowed write is `setReg`, which writes the one register. -/
theorem hostWriteReg_holds : Obligations.HostWriteReg := by
  intro s q hs keeps
  have hkeeps (v : RegValue) : keeps (setReg s q v) := hostKeeps_setReg s q v
  refine ⟨fun v => ⟨_, hostMove_of_stopped hs _, ?_, frame_setX s q v, hkeeps (.x v)⟩,
    fun v => ⟨_, hostMove_of_stopped hs _, ?_, frame_setF s q v, hkeeps (.f v)⟩, fun m => ?_, fun v => ?_⟩
  · exact (getX_setX s q q v).trans (if_pos rfl)
  · exact (getF_setF s q q v).trans (if_pos rfl)
  · rw [hostMove_writeReg hs regValueAllowed_m_iff]
    split
    · exact ⟨_, rfl, (getM_setM s q q m).trans (if_pos rfl), frame_setM s q m, hkeeps (.m m)⟩
    · rfl
  · rw [hostMove_writeReg hs regValueAllowed_e_iff]
    split
    · exact ⟨_, rfl, (getE_setE s q q v).trans (if_pos rfl), frame_setE s q v, hkeeps (.e v)⟩
    · rfl

/-- Settles O26: an allowed write sets one location of a memory in canonical form. -/
theorem hostWriteMemory : Obligations.HostWriteMemory := by
  refine fun s h hs => ⟨fun k w => ?_, fun addr v => ?_⟩
  · rw [hostMove_writeImem hs]
    split
    next hk =>
      refine ⟨_, rfl, ?_, fun j hj => ?_, frame_setImem s k w, fun _ => rfl, hostKeeps_setImem s k w⟩
      · rw [hostMove_readImem (s := setImem s k w) hs hk, imemWord_setImem s k w k h.imem, if_pos rfl]
      · rw [imemWord_setImem s k w j h.imem, if_neg hj.symm]
    · rfl
  · rw [hostMove_writeTmem hs]
    split
    next ha =>
      refine ⟨_, rfl, ?_, keepsTmemOutside_setBytes h.tmem rfl, frame_setBytes s addr [v], fun _ => rfl,
        hostKeeps_setBytes s addr [v]⟩
      rw [hostMove_readTmem (s := setBytes s addr [v]) hs ha, tmemByte_setBytes_singleton h.tmem]
    · rfl

end Sys2Proof.Machine
end

section
/-! PROOF. The sequencer, the native registers, the moves and the text bytes (47_control_move.md R251 to R265): what
each command does once its operands are read, and the numbers the model's bit vectors stand for. -/

namespace Sys2Proof.Machine

variable {s : State} {i : Instr} {a b c : XReg} {x y : Native} {imm : BitVec 16}

/-! ### NOP, HALT and CSRR -/

theorem add_one_eq_ofNat (pc : BitVec 32) : pc + 1 = BitVec.ofNat 32 (pc.toNat + 1) := by
  rw [BitVec.ofNat_add, BitVec.ofNat_toNat, BitVec.setWidth_eq]
  rfl

/-- The core reads its own STATUS as RUNNING (10_state.md R33). -/
theorem csrValue_of_running (h : s.params.Legal) (hs : s.runState = .running) (csr : Csr) :
    (csrValue s csr).toNat = csrNumber s csr := by
  rw [csrValue_toNat h]
  split
  next hstatus => rw [hs, hstatus]; rfl
  · rfl

theorem decode_unassignedCsr {n : BitVec 16} (hn : csrOf n = none) (a : XReg) :
    decode (wordI 0x05 a 0 n) = .error .unassignedCsr := by
  rw [wordI_eq_packI]
  simp [decode, decodeByOpcode, shapeCsr, hn, checkWellFormed]

/-! ### Native arithmetic as numbers (47_control_move.md R256, R257) -/

theorem toNat_shift_in (x : Native) (imm : BitVec 16) :
    (x * 2 ^ 16 + zextImm imm).toNat = (x.toNat * 2 ^ 16 + imm.toNat) % 2 ^ 64 := by
  simp

theorem toNat_add_signExtend (x : Native) (imm : BitVec 16) :
    (x + imm.signExtend 64).toNat = (((x.toNat : Int) + imm.toInt) % 2 ^ 64).toNat := by
  have hofInt : x + imm.signExtend 64 = BitVec.ofInt 64 ((x.toNat : Int) + imm.toInt) := by
    rw [BitVec.ofInt_add, BitVec.ofInt_natCast, BitVec.ofNat_toNat, BitVec.setWidth_eq]
    rfl
  rw [hofInt, BitVec.toNat_ofInt]
  rfl

/-! ### What a command does once its operands are read -/

theorem exec_xcmp (hx : getX s b = some x) (hy : getX s c = some y) :
    exec (.xcmp b c) s = finish s (.ok (setSgn s (sgnSub x.toNat y.toNat))) := by
  rw [exec, execXcmp, readX_of_some hx, readX_of_some hy, bind_ok_eq, bind_ok_eq, pure_eq_ok]

theorem exec_mov (a : MReg) {b : MReg} {m : Magnitude} (hm : getM s b = some m) :
    exec (.mov a b) s = finish s (.ok (setM s a m)) := by
  rw [exec, execMov, readM_of_some hm, bind_ok_eq, pure_eq_ok]

theorem exec_mfx (a : MReg) (hx : getX s b = some x) :
    exec (.mfx a b) s = finish s (.ok (setM s a (view s.params.base x))) := by
  rw [exec, execMfx, readX_of_some hx, bind_ok_eq, pure_eq_ok]

theorem exec_fmvx (a : FReg) (hx : getX s b = some x) : exec (.fmvx a b) s = finish s (.ok (setF s a x)) := by
  rw [exec, execFmvx, readX_of_some hx, bind_ok_eq, pure_eq_ok]

theorem exec_len (a : XReg) {b : MReg} {m : Magnitude} (hm : getM s b = some m) :
    exec (.len a b) s = finish s (.ok (setX s a (lengthValue m.length))) := by
  rw [exec, execLen, readM_of_some hm, bind_ok_eq, pure_eq_ok]

theorem exec_getd (a : XReg) {b : MReg} {m : Magnitude} (hm : getM s b = some m) (hx : getX s c = some x) :
    exec (.getd a b c) s = finish s (.ok (setX s a (BitVec.ofNat 64 (digitAt m x.toNat)))) := by
  rw [exec, execGetd, readM_of_some hm, readX_of_some hx, bind_ok_eq, bind_ok_eq, pure_eq_ok]

theorem exec_ldb (a : XReg) (hx : getX s b = some x) (imm : BitVec 16) :
    exec (.ldb a b imm) s = finish s (checkByte s (byteAddress x imm) >>= fun _ =>
      .ok (setX s a ((tmemByte s (byteAddress x imm).toNat).setWidth 64))) := by
  rw [exec, execLdb, readX_of_some hx]
  rfl

theorem exec_stb (hx : getX s b = some x) (hy : getX s a = some y) (imm : BitVec 16) :
    exec (.stb a b imm) s = finish s (checkByte s (byteAddress x imm) >>= fun _ =>
      .ok (setBytes s (byteAddress x imm).toNat [y.setWidth 8])) := by
  rw [exec, execStb, readX_of_some hx, readX_of_some hy]
  rfl

/-! ### Digits and lengths (47_control_move.md R261, R262) -/

theorem lengthValue_of_lt {n : Nat} (h : n < 2 ^ 64) : (lengthValue n).toNat = n := by
  rw [lengthValue, if_pos h, BitVec.toNat_ofNat, Nat.mod_eq_of_lt h]

theorem digitAt_eq_dite (m : Magnitude) (k : Nat) : digitAt m k = if h : k < m.length then m[k] else 0 := by
  rw [digitAt]
  split
  next h => exact List.getD_eq_getElem m 0 h
  next h => exact List.getD_eq_default m 0 (by omega)

theorem Inv.digitAt_lt (h : Inv s) {r : MReg} {m : Magnitude} (hm : getM s r = some m) (k : Nat) :
    digitAt m k < 2 ^ 64 := by
  have hpos : 0 < s.params.base := Nat.two_pow_pos _
  rw [digitAt_eq hpos k (canonical_allBelow (h.canonical_of_getM hm))]
  exact (Nat.mod_lt _ hpos).trans_le (base_le_of_legal h.params)

/-- Under legal parameters the digit view of a native value is its digit list: their reset state meets the invariant,
which bounds B (40_digit_accumulator.md R107). -/
theorem view_eq_digits_of_legal {p : Config.Params} (hp : p.Legal) (x : Native) :
    view p.base x = digits p.base x.toNat :=
  have h : Inv (State.resetWith p 0) := inv_resetWith hp 0
  view_eq h.two_le_base h.two_pow_64_le_base_mul_base x

/-! ### Destinations and byte addresses -/

/-- A command that only writes F[a]. -/
theorem completes_setF {a : FReg} (h : exec i s = finish s (.ok (setF s a x))) :
    Completes i s fun t => getF t a = some x ∧ Frame [] [] [] [a] s t ∧ KeepsFlags s t ∧ KeepsTmem s t :=
  have hframe := frame_setF s a x
  completes_of_next h rfl rfl ⟨rfl, rfl, rfl⟩ ⟨rfl, rfl, fun _ => rfl⟩
    ⟨(getF_setF s a a x).trans (if_pos rfl), ⟨hframe.x, hframe.m, hframe.e, hframe.f⟩, ⟨rfl, rfl⟩, fun _ => rfl⟩

/-- A command that only stores one byte. -/
theorem completes_setBytes_singleton {addr : Nat} {v : Byte} (hwf : Memory.wf s.tmem)
    (h : exec i s = finish s (.ok (setBytes s addr [v]))) :
    Completes i s fun t => tmemByte t addr = v ∧ KeepsTmemOutside addr 1 s t ∧ Frame [] [] [] [] s t ∧ KeepsFlags s t :=
  completes_of_next h rfl rfl ⟨rfl, rfl, rfl⟩ ⟨rfl, rfl, fun _ => rfl⟩
    ⟨tmemByte_setBytes_singleton hwf addr v, keepsTmemOutside_setBytes (n := 1) hwf rfl,
      ⟨fun _ _ => rfl, fun _ _ => rfl, fun _ _ => rfl, fun _ _ => rfl⟩, ⟨rfl, rfl⟩⟩

/-- A command that checks a byte address: it goes on with the address inside TMEM, and raises MEMRANGE with the address
itself outside (20_memory.md R52). -/
theorem finish_or_raises_of_checkByte {addr : Int} {f : Nat → State}
    (h : exec i s = finish s (checkByte s addr >>= fun _ => .ok (f addr.toNat))) :
    (∀ n : Nat, (n : Int) = addr → n < s.params.tmemSize → exec i s = finish s (.ok (f n))) ∧
    (addr < 0 ∨ (s.params.tmemSize : Int) ≤ addr → Raises i s (.memRange addr)) := by
  refine ⟨fun n hn hlt => ?_, fun hbad => raises_of_bind_error h (checkByte_eq_error.2 ⟨by omega, rfl⟩)⟩
  have hok : checkByte s addr = .ok () := checkByte_eq_ok.2 (by omega)
  rw [h, hok, bind_ok_eq, ← hn, Int.toNat_natCast]

/-! ### The obligations -/

/-- Settles O27: both commands advance the pc by 1 modulo 2^32. -/
theorem nopHalt : Obligations.NopHalt := by
  refine ⟨encoded_wordR rfl rfl, encoded_wordR rfl rfl, fun s => ?_⟩
  rw [← add_one_eq_ofNat]
  exact ⟨rfl, rfl⟩

/-- Settles O29: under legal parameters every CSR fits 64 bits, and the numbers without a name do not decode. -/
theorem readCsr : Obligations.ReadCsr := by
  refine ⟨fun s a csr hp hs => ⟨encoded_wordI rfl rfl, ?_⟩, ⟨rfl, rfl⟩,
    fun a n hn => decode_unassignedCsr (csrOf_eq_none.2 (by omega)) a⟩
  exact csrValue_of_running hp hs csr ▸ completesX_of_ok rfl

/-- Settles O30: the results as numbers; XCMP writes the sign of the difference as the model computes it. -/
theorem nativeRegisters : Obligations.NativeRegisters := by
  intro s a b c imm
  refine ⟨⟨encoded_wordI rfl rfl, ?_⟩, ⟨encoded_wordI rfl rfl, raisesUninit_readsOf rfl, fun x hx => ?_⟩,
    ⟨encoded_wordI rfl rfl, raisesUninit_readsOf rfl, fun x hx => ?_⟩,
    ⟨encoded_wordR rfl rfl, raisesUninit_readsOf rfl, fun x y hx hy => completesSgn_of_ok (exec_xcmp hx hy)⟩⟩
  · exact zextImm_toNat imm ▸ completesX_of_ok rfl
  · exact toNat_shift_in x imm ▸ completesX_of_ok (exec_lih hx imm)
  · exact toNat_add_signExtend x imm ▸ completesX_of_ok (exec_xaddi hx a imm)

/-- Settles O31: under legal parameters the digit view of a native value is its canonical magnitude. -/
theorem moves : Obligations.Moves := by
  intro s a b hp
  refine ⟨⟨encoded_wordR rfl rfl, raisesUninit_readsOf rfl, fun m hm => completesM_of_ok (exec_mov a hm)⟩,
    ⟨encoded_wordR rfl rfl, raisesUninit_readsOf rfl, fun x hx => ?_⟩,
    ⟨encoded_wordR rfl rfl, raisesUninit_readsOf rfl, fun x hx => completes_setF (exec_fmvx a hx)⟩⟩
  exact view_eq_digits_of_legal hp x ▸ completesM_of_ok (exec_mfx a hx)

/-- Settles O32: LEN writes some value in any case, and below 2^64 it is the length; a digit is below B. -/
theorem lengthAndDigit : Obligations.LengthAndDigit := by
  intro s a c b h
  refine ⟨⟨encoded_wordR rfl rfl, raisesUninit_readsOf rfl, fun m hm => ?_⟩,
    ⟨encoded_wordR rfl rfl, raisesUninit_readsOf rfl, fun m x hm hx => ?_⟩⟩
  · have hlen := completesX_of_ok (exec_len a hm)
    exact ⟨fun hlt => by rwa [lengthValue_of_lt hlt] at hlen, _, hlen⟩
  · rw [← digitAt_eq_dite]
    exact completesX_of_ofNat (h.digitAt_lt hm _) (exec_getd a hm hx)

/-- Settles O33: both commands check the byte address as an integer, and then read or write that byte. -/
theorem textBytes : Obligations.TextBytes := by
  intro s a b imm h
  refine ⟨⟨encoded_wordI rfl rfl, raisesUninit_readsOf rfl, fun x hx => ?_⟩,
    ⟨encoded_wordI rfl rfl, raisesUninit_readsOf rfl, fun x v hx hv => ?_⟩⟩
  · obtain ⟨hin, hout⟩ := finish_or_raises_of_checkByte (f := fun n => setX s a ((tmemByte s n).setWidth 64))
      (exec_ldb a hx imm)
    refine ⟨fun n hn hlt => ?_, hout⟩
    have hbyte : ((tmemByte s n).setWidth 64).toNat = (tmemByte s n).toNat := BitVec.toNat_setWidth_of_le (by decide)
    exact hbyte ▸ completesX_of_ok (hin n hn hlt)
  · obtain ⟨hin, hout⟩ := finish_or_raises_of_checkByte (f := fun n => setBytes s n [v.setWidth 8]) (exec_stb hx hv imm)
    refine ⟨fun n hn hlt => ?_, hout⟩
    obtain ⟨t, ht, hadv, hbyte, hrest⟩ := completes_setBytes_singleton h.tmem (hin n hn hlt)
    exact ⟨t, ht, hadv, by rw [hbyte, BitVec.toNat_setWidth], hrest⟩

end Sys2Proof.Machine
end
